-- ==== Sys2Proof/Word.lean ====
section
/-! DEFINITION. The word types of the Oregon V3 protocol engine and the constants its source fixes (spec/00_scope.md R10, R13, R14). -/

namespace Sys2Proof

/-- A byte of the frame buffer, an 8-bit register or an operation code (R14). -/
abbrev Byte := BitVec 8

/-- A nibble: a 4-bit value (R14). -/
abbrev Nibble := BitVec 4

/-- Time and deadline values: 64-bit unsigned microseconds (R13). -/
abbrev Time := BitVec 64

/-- `HALF_US`, the half bit period in microseconds (R10). -/
abbrev halfUs : Nat := 488

/-- `BIT_US`, the bit period in microseconds, the step of the deadline (R10, R135). -/
abbrev bitUs : Nat := 976

/-- `CK_START`, the first nibble the checksums cover (R10). -/
abbrev ckStart : Nat := 7

/-- The first sensor-specific nibble of the frame map (R56). -/
abbrev sensorStart : Nat := 15

end Sys2Proof
end

