-- ==== Sys2Proof/Config.lean ====
section
/-! DEFINITION. The configuration record `PROFILE`, the reading record, a turn of the environment, and the values the spec
leaves open: constants without a body, so that no proof can see what they are (spec/00_scope.md R11, R12; spec/10_state.md R21 to R29;
spec/93_implementation_defined.md U1 to U16). -/

namespace Sys2Proof

/-- `CFG_KIND`: which measurement encoder a profile uses (R21). -/
inductive Kind where
  | uv | wind | th | rain
  deriving DecidableEq, Repr, Inhabited

/-- The names of the reading fields of the four kinds (R111 to R114). -/
inductive Input where
  | uv | avg | gust | dir | temp | hum | total | rate
  deriving DecidableEq, Repr, Inhabited

/-- A reading: integers already scaled to their field's unit (R109, R49).
The spec's record is kind-specific; this one holds the fields of all four kinds side by side, and a kind's encoder names its own
(DESIGN CHOICE, log 14). -/
structure Reading where
  uv    : Int
  avg   : Int
  gust  : Int
  dir   : Int
  temp  : Int
  hum   : Int
  total : Int
  rate  : Int
  deriving DecidableEq, Repr, Inhabited

/-- The order of the decimal digits of a field (R109, the open point D23). -/
inductive DigitOrder where
  | lsdFirst | msdFirst
  deriving DecidableEq, Repr, Inhabited

/-- A field's form: one binary nibble, or `digits` decimal nibbles in an order (R109). -/
inductive Form where
  | bin
  | bcd (digits : Nat) (order : DigitOrder)
  deriving DecidableEq, Repr, Inhabited

/-- `FieldSpec` (R109): which input, in which form, from which sensor nibble, and where its sign nibble is. -/
structure FieldSpec where
  input  : Input
  form   : Form
  offset : Nat
  signAt : Option Nat
  deriving DecidableEq, Repr, Inhabited

/-- A magic nibble: a sensor nibble that always holds a configured value (R109, R115). -/
structure ConstNibble where
  offset : Nat
  value  : Nibble
  deriving DecidableEq, Repr, Inhabited

/-- `ENCODE_kind` (R29, R109): the kind's nibble count `N_kind`, its fields and its constant nibbles. -/
structure Encoder where
  nibbles : Nat
  fields  : List FieldSpec
  consts  : List ConstNibble
  deriving DecidableEq, Repr, Inhabited

/-- The configuration registers, the DeviceProfile (R11, R21 to R29), and `LOG_PRESENT` (R162). -/
structure Profile where
  kind       : Kind
  sensorId   : BitVec 16
  channel    : BitVec 8
  k          : BitVec 8
  l          : BitVec 8
  interval   : BitVec 16
  fnum       : BitVec 16
  fden       : BitVec 16
  shorten    : BitVec 16
  enc        : Encoder
  logPresent : Bool
  deriving DecidableEq, Repr, Inhabited

/-- The spec's example profile `EX_A` (spec/95_test_vectors.md section 2), with the UV sensor id of R116.
What the configuration registers hold in `State.reset` (DESIGN CHOICE, log 1). -/
def Profile.exA : Profile :=
  { kind := .uv, sensorId := 0xD874, channel := 1, k := 9, l := 10, interval := 14, fnum := 1, fden := 1, shorten := 30,
    enc := { nibbles := 1, fields := [], consts := [] }, logPresent := false }

/-- What the environment does between two steps (R7, R45, R179): the time it lets pass, the processing time between what was
just done and the next operation's effect (R205, D24: none before an encoder wait; there it is the time until a reset event, log 7), how many one-second
boundaries passed (R159), whether the reset event arrived (R82), and what READING and BATT present from now on (R45). -/
structure Turn where
  delay   : Nat
  ticks   : Nat
  reset   : Bool
  reading : Reading
  batt    : Bool
  deriving DecidableEq, Repr, Inhabited

/-- The registers R83 leaves unspecified, but for the frame buffer. -/
structure Unspecified where
  roll     : Byte
  sum      : Byte
  crc      : Byte
  snapRd   : Reading
  snapBatt : Bool
  onUs     : BitVec 16
  dl       : Time
  bitix    : BitVec 16
  lastBit  : Bool
  deriving DecidableEq, Repr, Inhabited

/-- `RNG` (R12): the random byte of a draw, by the draw's number; free (U2). -/
opaque Config.rng : Nat → Byte

/-- `LATENCY` (R12, R144): the delay the environment adds to a sleep, by the sleep's number; free (U3, U4). -/
opaque Config.latency : Nat → Nat

/-- `TICKS`, `READING`, `BATT`, the reset event and the processing times (R12, R205): the environment's turn after a step, by its
number; free (U5, U13, U14, U22). -/
opaque Config.turn : Nat → Turn

/-- What the registers R83 leaves unspecified hold after a RESET, by its number; free (U1). -/
opaque Config.unspecified : Nat → Unspecified

/-- What byte `k` of the frame buffer holds after a RESET, by the RESET's number and `k`; free (U1). -/
opaque Config.unspecifiedFb : Nat → Nat → Byte

/-- What a register of width `w` holds when a sum does not fit it and the spec states no wrap (DESIGN CHOICE, log 9). -/
opaque Config.outOfWidth : (w : Nat) → Nat → BitVec w

/-- `ELAPSED mod 0`, which the spec gives no meaning (R89; DESIGN CHOICE, log 10). -/
opaque Config.modZero : BitVec 32 → Nat

/-- `LOG_TS` (R12, R164): how the sink renders a timestamp and joins it to the rendered bytes; free (U15). -/
opaque Config.logTs : Time → String → String

end Sys2Proof
end

