-- ==== Sys2Proof/Syntax.lean ====
section
/-! DEFINITION. The micro-operations: one constructor per row of spec/opcode_table.json (spec/30_encoding.md R73). No operation has an
operand field (R71); what each reads is fixed by R74. -/

namespace Sys2Proof

/-- The 22 micro-operations of the opcode map (R73). -/
inductive Instr where
  /-- `RESET`: lifecycle: the power-on reset (R83). -/
  | reset
  /-- `VALIDATE`: lifecycle: check the profile, compute ON_US (R92). -/
  | validate
  /-- `DRAW_ROLL`: lifecycle: draw a rolling code (R94). -/
  | drawRoll
  /-- `FB_CLEAR`: zero the frame buffer (R101). -/
  | fbClear
  /-- `FB_HDR`: preamble and sync (R102). -/
  | fbHdr
  /-- `FB_ID`: sensor id and channel (R104). -/
  | fbId
  /-- `FB_ROLL`: rolling code and battery flag (R106). -/
  | fbRoll
  /-- `FB_SENS_UV`: sensor nibbles, kind UV (R111). -/
  | fbSensUv
  /-- `FB_SENS_WIND`: sensor nibbles, kind WIND (R112). -/
  | fbSensWind
  /-- `FB_SENS_TH`: sensor nibbles, kind TH (R113). -/
  | fbSensTh
  /-- `FB_SENS_RAIN`: sensor nibbles, kind RAIN (R114). -/
  | fbSensRain
  /-- `CK_SUM`: additive checksum (R123). -/
  | ckSum
  /-- `CK_CRC`: CRC-8 (R125). -/
  | ckCrc
  /-- `CK_STORE`: store both checksums (R127). -/
  | ckStore
  /-- `ENC_START`: start of the line encoding (R140). -/
  | encStart
  /-- `ENC_FIRST`: first phase of a bit (R141). -/
  | encFirst
  /-- `ENC_SECOND`: second phase of a bit (R142). -/
  | encSecond
  /-- `ENC_END`: end of the line encoding (R143). -/
  | encEnd
  /-- `SCH_TICK`: accept a one-second tick (R149). -/
  | schTick
  /-- `SCH_EVAL`: fire or not (R150). -/
  | schEval
  /-- `SCH_DONE`: the transmission is over (R152). -/
  | schDone
  /-- `DBG_LOG`: hand over the debug record (R168). -/
  | dbgLog
  deriving DecidableEq, Repr, Inhabited

/-- Every micro-operation, in the order of the opcode map (R73). -/
def Instr.all : List Instr :=
  [.reset, .validate, .drawRoll] ++ [.fbClear, .fbHdr, .fbId, .fbRoll, .fbSensUv, .fbSensWind, .fbSensTh, .fbSensRain] ++
  [.ckSum, .ckCrc, .ckStore] ++ [.encStart, .encFirst, .encSecond, .encEnd] ++ [.schTick, .schEval, .schDone] ++ [.dbgLog]

/-- The four `FB_SENS_*` operations, by the kind they belong to (R75). -/
def Instr.sensOf : Kind → Instr
  | .uv => .fbSensUv
  | .wind => .fbSensWind
  | .th => .fbSensTh
  | .rain => .fbSensRain

end Sys2Proof
end

