-- ==== Sys2Proof/WellFormed.lean ====
section
/-! DEFINITION. Well-formedness: which operation may stand under which kind of profile, and which profiles lie in the domain the spec
gives their parameters (spec/30_encoding.md R75; spec/41_frame_builder.md R109 to R114). -/

namespace Sys2Proof

/-- An operation is legal under a kind unless it is a `FB_SENS_*` of another kind (R75, R76). -/
def Instr.wellFormed (kind : Kind) : Instr → Bool
  | .fbSensUv => kind = .uv
  | .fbSensWind => kind = .wind
  | .fbSensTh => kind = .th
  | .fbSensRain => kind = .rain
  | .reset | .validate | .drawRoll | .fbClear | .fbHdr | .fbId | .fbRoll | .ckSum | .ckCrc | .ckStore | .encStart | .encFirst
  | .encSecond | .encEnd | .schTick | .schEval | .schDone | .dbgLog => true

/-- The reading fields of a kind's record (R111 to R114). -/
def Kind.inputs : Kind → List Input
  | .uv => [.uv]
  | .wind => [.avg, .gust, .dir]
  | .th => [.temp, .hum]
  | .rain => [.total, .rate]

/-- The domain of a `FieldSpec` (R109): its input is one of the kind's, and a decimal field has at least one digit. -/
def FieldSpec.wellFormed (kind : Kind) (f : FieldSpec) : Bool :=
  kind.inputs.contains f.input && (match f.form with | .bin => true | .bcd d _ => decide (1 ≤ d))

/-- What R113 and R114 say of the sign nibble: the temperature has one, a rain field has none. -/
def FieldSpec.signWellFormed (f : FieldSpec) : Bool :=
  match f.input with
  | .temp => f.signAt.isSome
  | .total | .rate => f.signAt.isNone
  | .uv | .avg | .gust | .dir | .hum => true

/-- The domain of `PROFILE` (R109): `N_kind` is 1 to 247, every field and constant is in its own domain, and a UV profile has no field
but R111's own. The block checks none of this but what VALIDATE checks; a profile outside the domain is run as the rules read (log 28). -/
def Profile.conforms (p : Profile) : Bool :=
  decide (1 ≤ p.enc.nibbles) && decide (p.enc.nibbles ≤ 247) &&
  p.enc.fields.all (fun f => f.wellFormed p.kind && f.signWellFormed) &&
  p.enc.consts.all (fun c => decide (c.offset < p.enc.nibbles)) &&
  decide (p.kind = .uv → p.enc.fields = [])

end Sys2Proof
end

