-- ==== Sys2Proof/Decode.lean ====
section
/-! DEFINITION. Decoding of an operation code, total on every byte, and the encoder (spec/30_encoding.md R71 to R77). -/

namespace Sys2Proof

/-- Why a byte is no operation (R76). -/
inductive DecodeError where
  /-- A reserved code: a step from it raises ILLEGAL_OP (R174). -/
  | reserved (code : Byte)
  /-- `0xFF`: not an operation, the value of `SEQ` when halted; no step is performed from it. -/
  | halted
  deriving DecidableEq, Repr

/-- The `UNIT` field, bits 7:4 of a code (R71, R72). -/
def unitField (c : Byte) : Nibble := c.extractLsb' 4 4

/-- The `FUNC` field, bits 3:0 of a code (R71). -/
def funcField (c : Byte) : Nibble := c.extractLsb' 0 4

/-- Unit `0x0`, lifecycle (R72, R73). -/
def decodeSys (f : Nibble) : Option Instr :=
  if f = 0x1 then some .reset else if f = 0x2 then some .validate else if f = 0x3 then some .drawRoll else none

/-- Unit `0x1`, FrameBuilder (R72, R73). -/
def decodeFb (f : Nibble) : Option Instr :=
  if f = 0x0 then some .fbClear else if f = 0x1 then some .fbHdr else if f = 0x2 then some .fbId
  else if f = 0x3 then some .fbRoll else if f = 0x4 then some .fbSensUv else if f = 0x5 then some .fbSensWind
  else if f = 0x6 then some .fbSensTh else if f = 0x7 then some .fbSensRain else none

/-- Unit `0x2`, ChecksumEngine (R72, R73). -/
def decodeCk (f : Nibble) : Option Instr :=
  if f = 0x0 then some .ckSum else if f = 0x1 then some .ckCrc else if f = 0x2 then some .ckStore else none

/-- Unit `0x3`, ManchesterLineEncoder (R72, R73). -/
def decodeEnc (f : Nibble) : Option Instr :=
  if f = 0x0 then some .encStart else if f = 0x1 then some .encFirst else if f = 0x2 then some .encSecond
  else if f = 0x3 then some .encEnd else none

/-- Unit `0x4`, TransmitScheduler (R72, R73). -/
def decodeSch (f : Nibble) : Option Instr :=
  if f = 0x0 then some .schTick else if f = 0x1 then some .schEval else if f = 0x2 then some .schDone else none

/-- Unit `0x5`, debug sink (R72, R73). -/
def decodeDbg (f : Nibble) : Option Instr :=
  if f = 0x0 then some .dbgLog else none

/-- The operation of a code by its two fields; units `0x6` to `0xF` are reserved (R72, R73). -/
def decodeFields (u f : Nibble) : Option Instr :=
  if u = 0x0 then decodeSys f else if u = 0x1 then decodeFb f else if u = 0x2 then decodeCk f
  else if u = 0x3 then decodeEnc f else if u = 0x4 then decodeSch f else if u = 0x5 then decodeDbg f else none

/-- The operation a code stands for, or why there is none (R73, R76). No mode changes it (R77); whether a `FB_SENS_*` code agrees with
`CFG_KIND` is not seen here but in its meaning (R75, `Instr.wellFormed`). -/
def decode (c : Byte) : Except DecodeError Instr :=
  if c = 0xFF then .error .halted
  else match decodeFields (unitField c) (funcField c) with
    | some i => .ok i
    | none => .error (.reserved c)

/-- The code of an operation, from the opcode map (R73). -/
def encode : Instr → Byte
  | .reset => 0x01
  | .validate => 0x02
  | .drawRoll => 0x03
  | .fbClear => 0x10
  | .fbHdr => 0x11
  | .fbId => 0x12
  | .fbRoll => 0x13
  | .fbSensUv => 0x14
  | .fbSensWind => 0x15
  | .fbSensTh => 0x16
  | .fbSensRain => 0x17
  | .ckSum => 0x20
  | .ckCrc => 0x21
  | .ckStore => 0x22
  | .encStart => 0x30
  | .encFirst => 0x31
  | .encSecond => 0x32
  | .encEnd => 0x33
  | .schTick => 0x40
  | .schEval => 0x41
  | .schDone => 0x42
  | .dbgLog => 0x50

/-- What the decoder reads from an instruction whose bits are `w`, numbered as spec/opcode_table.json numbers them. -/
def decodeTableWord (nbits w : Nat) : Option Instr :=
  (decode (BitVec.ofNat 8 (w % 2 ^ nbits))).toOption

end Sys2Proof
end

