-- ==== Sys2Proof/Machine/State.lean ====
section
/-! DEFINITION. The state of the block, of its ports and of the environment's side of them, as plain data, and the state after reset
(spec/10_state.md; spec/60_exceptions.md R185; spec/70_reset_and_hazards.md R189). -/

namespace Sys2Proof.Machine

/-- The level of the output line, `TX` (R38): LOW is 0, HIGH is 1. -/
inductive Level where
  | low | high
  deriving DecidableEq, Repr, Inhabited

/-- `SPHASE` (R37): the scheduler's state; the value 3 of its two bits is never written. -/
inductive SPhase where
  | idle | pending | sent
  deriving DecidableEq, Repr, Inhabited

/-- `FAULT` (R44): `HALTED`, `ECODE` (R170) and `EDETAIL`. -/
structure FaultReg where
  halted  : Bool
  ecode   : BitVec 4
  edetail : BitVec 8
  deriving DecidableEq, Repr, Inhabited

/-- The frame buffer's contents (R32, R51): the bytes that differ from what an unlisted address reads as, addresses rising. -/
abbrev Memory := List Host.Cell

/-- A setpoint of the line: one call of `setLine` (R16, R20). -/
structure Setpoint where
  time  : Time
  level : Level
  deriving DecidableEq, Repr, Inhabited

/-- A debug record: the time at which `DBG_LOG` ran and the rendered frame bytes (R163, R164). -/
structure DebugRecord where
  stamp : Time
  bytes : String
  deriving DecidableEq, Repr, Inhabited

/-- Which registers have been written since the last reset: what the status view needs to refuse a read before the first write
(R50, R189). `fb` lists the written byte addresses, rising. -/
structure Written where
  roll  : Bool
  sum   : Bool
  crc   : Bool
  onUs  : Bool
  dl    : Bool
  bitix : Bool
  fb    : List Nat
  deriving DecidableEq, Repr, Inhabited

/-- The input ports and the environment's side of them (R12, R45, R185). `rng`, `latency` and `turns` are what the environment has
ready; past their ends the values are free (`Config.rng`, `Config.latency`, `Config.turn`), applied to the counters, which are the
model's own (log 6, log 22). -/
structure Env where
  now       : Time
  tickReq   : Nat
  resetReq  : Bool
  reading   : Reading
  batt      : Bool
  rng       : List Byte
  rngIx     : Nat
  latency   : List Nat
  latencyIx : Nat
  turns     : List Turn
  turnIx    : Nat
  deriving DecidableEq, Repr, Inhabited

/-- The state of the machine (R21 to R45). -/
structure State where
  /-- The configuration registers (R21 to R29, R162); no operation writes them (R30). -/
  cfg      : Profile
  /-- `ROLL` (R31). -/
  roll     : Byte
  /-- `FB` (R32). -/
  fb       : Memory
  /-- `SUM` (R33). -/
  sum      : Byte
  /-- `CRC` (R34). -/
  crc      : Byte
  /-- `SNAP_RD` (R35). -/
  snapRd   : Reading
  /-- `SNAP_BATT` (R35). -/
  snapBatt : Bool
  /-- `ELAPSED` (R36). -/
  elapsed  : BitVec 32
  /-- `SPHASE` (R37). -/
  sphase   : SPhase
  /-- `TX` (R38). -/
  tx       : Level
  /-- `ON_US` (R39). -/
  onUs     : BitVec 16
  /-- `DL` (R40). -/
  dl       : Time
  /-- `BITIX` (R41). -/
  bitix    : BitVec 16
  /-- `LASTBIT` (R42). -/
  lastBit  : Bool
  /-- `SEQ` (R43). -/
  seq      : Byte
  /-- `FAULT` (R44). -/
  fault    : FaultReg
  /-- Which registers the status view may read (R50). -/
  written  : Written
  /-- The output trace, oldest setpoint first (R16, R146). -/
  trace    : List Setpoint
  /-- The debug records, oldest first (R168). -/
  log      : List DebugRecord
  /-- The input ports (R45). -/
  env      : Env
  /-- The model's own counter of RESETs, which the free values of unspecified registers are applied to (log 3). -/
  resets   : Nat
  deriving DecidableEq, Repr, Inhabited

/-- Why the machine stops. The block's own three faults (R170) are no constructor of this type: their entry (R177) is a next state. -/
inductive Fault where
  /-- A micro-operation meets a frame-buffer address outside `0 .. CFG_L - 1`, which does not exist (R53, U18: a model "refuses it").
  Raised by the operations that access the frame buffer, in a configuration VALIDATE would not pass or with a bit cursor past the
  frame's end. Safe: the hardware never meets one once VALIDATE has passed (log 11). -/
  | noFrameByte (addr : Nat)
  deriving DecidableEq, Repr

/-- What the model gives no meaning. -/
inductive Refusal where
  /-- An instruction without a meaning; raised by `exec` alone. Safe. -/
  | notModelled (mnemonic : String)
  /-- A status-view number that is not listed (R50, U17); raised by the status view, by no step. Safe. -/
  | viewNumber (no : Nat)
  /-- A status-view read of a register before its first write (R50, U1); raised by the status view, by no step. Safe. -/
  | viewUnwritten (no : Nat)
  /-- A write to the status view (R50, U17); raised by the status view, by no step. Safe. -/
  | viewWrite (no : Nat)
  deriving DecidableEq, Repr

/-- The outcome of a micro-operation or a step. -/
abbrev Result := Host.Outcome State Fault Refusal

/-- No fault recorded: the value of `FAULT` after reset (R44). -/
def FaultReg.clear : FaultReg := { halted := false, ecode := 0, edetail := 0 }

/-- Nothing written yet (R189). -/
def Written.none : Written :=
  { roll := false, sum := false, crc := false, onUs := false, dl := false, bitix := false, fb := [] }

/-- A reading whose integers are all 0: what READING presents and SNAP_RD holds in `State.reset` (DESIGN CHOICE, log 2, log 5). -/
def Reading.zero : Reading :=
  { uv := 0, avg := 0, gust := 0, dir := 0, temp := 0, hum := 0, total := 0, rate := 0 }

/-- The environment's side right after reset: the clock at 0 and nothing ready (DESIGN CHOICE, log 5); no tick outstanding (R192). -/
def Env.reset : Env :=
  { now := 0, tickReq := 0, resetReq := false, reading := Reading.zero, batt := false, rng := [], rngIx := 0, latency := [],
    latencyIx := 0, turns := [], turnIx := 0 }

/-- A block of a given profile right after its first RESET (R83, R189). The registers R189 calls unspecified hold 0 (DESIGN CHOICE,
log 2, log 4). -/
def State.powerOn (p : Profile) : State :=
  { cfg := p, roll := 0, fb := [], sum := 0, crc := 0, snapRd := Reading.zero, snapBatt := false, elapsed := 0, sphase := .idle,
    tx := .low, onUs := 0, dl := 0, bitix := 0, lastBit := false, seq := 0x02, fault := FaultReg.clear, written := Written.none,
    trace := [{ time := 0, level := .low }], log := [], env := Env.reset, resets := 0 }

/-- The machine right after reset, with the profile `EX_A` (DESIGN CHOICE, log 1). -/
def State.reset : State := State.powerOn Profile.exA

end Sys2Proof.Machine
end

