-- ==== Sys2Proof/Machine/Operands.lean ====
section
/-! DEFINITION. Operand forms: the halves of a byte, the nibbles and bits of the frame buffer, the fields the frame builder writes
(spec/20_memory.md R51 to R62; spec/41_frame_builder.md R103, R104, R110). -/

namespace Sys2Proof.Machine

/-- Bits 7:4 of a byte. -/
def hiNib (b : Byte) : Nibble := b.extractLsb' 4 4

/-- Bits 3:0 of a byte. -/
def loNib (b : Byte) : Nibble := b.extractLsb' 0 4

/-- The byte of a high and a low nibble. -/
def joinNibs (hi lo : Nibble) : Byte := hi ++ lo

/-- `swap8`: the nibbles of a byte exchanged (R15). -/
def swap8 (b : Byte) : Byte := joinNibs (loNib b) (hiNib b)

/-- What a frame-buffer byte that is not listed reads as (DESIGN CHOICE, log 4). -/
def unlisted : Byte := 0

/-- Byte `k` of the frame buffer (R15, R51). -/
def Memory.read : Memory → Nat → Byte
  | [], _ => unlisted
  | (a, v) :: m, k => if k = a then v else Memory.read m k

/-- Nibble `i` of the frame buffer, `NibRead` (R51): the high half of its byte for an even index. -/
def Memory.nib (m : Memory) (i : Nat) : Nibble :=
  if i % 2 = 0 then hiNib (m.read (i / 2)) else loNib (m.read (i / 2))

/-- The bytes `0 .. l-1` of the frame buffer in address order. -/
def Memory.bytes (m : Memory) (l : Nat) : List Byte := (List.range l).map m.read

/-- The order in which the bits of a byte reach the line (R60). -/
def bitOrder : List Nat := [4, 5, 6, 7, 0, 1, 2, 3]

/-- Bit `j` of the frame's bit stream (R60). -/
def Memory.lineBit (m : Memory) (j : Nat) : Bool := (m.read (j / 8)).getLsbD (bitOrder.getD (j % 8) 0)

/-- The nibbles `7 .. 6 + k` that the checksums cover (R57). -/
def Memory.rangeNibs (m : Memory) (k : Nat) : List Nibble := (List.range k).map fun j => m.nib (ckStart + j)

/-- Nibble `j` of the sensor id in line order, `CFG_SENSOR_ID[15-4j : 12-4j]` (R22, R103). -/
def sidNib (id : BitVec 16) (j : Nat) : Nibble := id.extractLsb' (12 - 4 * j) 4

/-- The channel nibble, `min(CFG_CHANNEL, 15)` (R104, R105). -/
def channelNib (channel : BitVec 8) : Nibble := BitVec.ofNat 4 (min channel.toNat 15)

/-- The two bits of `CFG_KIND` (R21). -/
def kindBits : Kind → BitVec 2
  | .uv => 0
  | .wind => 1
  | .th => 2
  | .rain => 3

/-- The two bits of `SPHASE` (R37). -/
def sphaseBits : SPhase → BitVec 2
  | .idle => 0
  | .pending => 1
  | .sent => 2

/-- The bit of `TX` (R38). -/
def levelBit : Level → BitVec 1
  | .low => 0
  | .high => 1

/-- The level of a bit's first phase: HIGH for 1, LOW for 0 (R136). -/
def firstLevel (b : Bool) : Level := if b then .high else .low

/-- The level of a bit's second phase, the opposite one (R136). -/
def secondLevel (b : Bool) : Level := if b then .low else .high

/-- The code of the `FB_SENS_*` operation of a kind, `0x14 | CFG_KIND` (R75, R106). -/
def sensCode (kind : Kind) : Byte := 0x14 ||| (kindBits kind).setWidth 8

/-- A field of a reading record by its name (R109). -/
def readField (rd : Reading) : Input → Int
  | .uv => rd.uv
  | .avg => rd.avg
  | .gust => rd.gust
  | .dir => rd.dir
  | .temp => rd.temp
  | .hum => rd.hum
  | .total => rd.total
  | .rate => rd.rate

/-- Decimal digit `k` of a magnitude (R110). -/
def digit (k m : Nat) : Nat := m / 10 ^ k % 10

/-- The sensor nibble that digit `k` of a `d`-digit field at `offset` goes to (R110). -/
def digitPos (order : DigitOrder) (offset d k : Nat) : Nat :=
  match order with
  | .lsdFirst => offset + k
  | .msdFirst => offset + (d - 1 - k)

/-- The UV field: one binary nibble at sensor nibble 0, no sign (R111). -/
def uvField : FieldSpec := { input := .uv, form := .bin, offset := 0, signAt := none }

/-- The fields a kind's encoder writes: for UV the one field R111 fixes, else `ENCODE_kind.fields` (R111 to R114; log 15). -/
def fieldsOf (kind : Kind) (enc : Encoder) : List FieldSpec :=
  match kind with
  | .uv => [uvField]
  | .wind | .th | .rain => enc.fields

/-- The sensor nibbles a field takes: its digits and its sign nibble (R109). -/
def fieldTakes (f : FieldSpec) : List Nat :=
  (match f.form with
    | .bin => [f.offset]
    | .bcd d _ => (List.range d).map (f.offset + ·)) ++ f.signAt.toList

/-- `layout_ok` (R92, R109): every field and constant nibble lies in `0 .. N_kind - 1` and no two are the same nibble. -/
def layoutOk (kind : Kind) (enc : Encoder) : Bool :=
  let taken := (fieldsOf kind enc).flatMap fieldTakes ++ enc.consts.map ConstNibble.offset
  taken.all (fun i => decide (i < enc.nibbles)) && decide taken.Nodup

/-- A value narrowed to a register of width `w`: itself where it fits, free where it does not and the spec states no wrap (log 9). -/
def fit (w v : Nat) : BitVec w := if v < 2 ^ w then BitVec.ofNat w v else Config.outOfWidth w v

/-- `ELAPSED mod CFG_INTERVAL` (R150); free for an interval of 0, which has no meaning (R89; log 10). -/
def elapsedMod (elapsed : BitVec 32) (interval : BitVec 16) : Nat :=
  if interval = 0 then Config.modZero elapsed else elapsed.toNat % interval.toNat

end Sys2Proof.Machine
end

