-- ==== Sys2Proof/Machine/Flags.lean ====
section
/-! DEFINITION. The block's one-bit flags and the words they stand in (spec/10_state.md R44, R47, R50; spec/41_frame_builder.md R107, R110).
No arithmetic operation sets a condition flag (R47). -/

namespace Sys2Proof.Machine

/-- The battery-flag nibble: `0x8` for low, `0x0` for ok (R10, R107). -/
def batteryNib (low : Bool) : Nibble := if low then 0x8 else 0x0

/-- The sign nibble: `0x8` for a negative value, else `0x0` (R110; spec/90_conflicts.md C8). -/
def signNib (v : Int) : Nibble := if v < 0 then 0x8 else 0x0

/-- The busy condition, `SPHASE = SENT` (R47). -/
def State.busy (s : State) : Bool := s.sphase = .sent

/-- The pending flag, `SPHASE = PENDING` (R37, R47). -/
def State.pending (s : State) : Bool := s.sphase = .pending

/-- `FAULT` as its 13 bits: `HALTED` 12, `ECODE` 11:8, `EDETAIL` 7:0 (R44). -/
def FaultReg.word (f : FaultReg) : BitVec 13 := BitVec.ofBool f.halted ++ f.ecode ++ f.edetail

/-- The `STATUS` word of the status view (R50). -/
def State.status (s : State) : BitVec 16 :=
  s.fault.edetail ++ s.fault.ecode ++ levelBit s.tx ++ BitVec.ofBool s.pending ++ BitVec.ofBool s.busy ++ BitVec.ofBool s.fault.halted

end Sys2Proof.Machine
end

