-- ==== Sys2Proof/Machine/Ops.lean ====
section
/-! DEFINITION. The named operations over the frame buffer, the line, the ports and the fault register, fault entry, the environment's
turn, and what a step does next (spec/00_scope.md R15 to R17; spec/20_memory.md R51 to R53; spec/43_manchester.md R144;
spec/60_exceptions.md R177 to R180). -/

namespace Sys2Proof.Machine

/-! ### The frame buffer -/

/-- A cell put at its place in a list of rising addresses. -/
def Memory.insert (c : Host.Cell) : Memory → Memory
  | [] => [c]
  | d :: m => if c.1 < d.1 then c :: d :: m else d :: Memory.insert c m

/-- `FB[k] <- v` (R15, R52), keeping the canonical form. -/
def Memory.write (m : Memory) (k : Nat) (v : Byte) : Memory :=
  let rest : Memory := m.filter fun c => c.1 ≠ k
  if v = unlisted then rest else Memory.insert (k, v) rest

/-- `NibWrite(i, v)`: only the addressed nibble changes (R52). -/
def Memory.nibWrite (m : Memory) (i : Nat) (v : Nibble) : Memory :=
  let b := m.read (i / 2)
  m.write (i / 2) (if i % 2 = 0 then joinNibs v (loNib b) else joinNibs (hiNib b) v)

/-- Addresses rise from `lo` on and no byte is what an unlisted address reads as. -/
def Memory.wfFrom (lo : Nat) : Memory → Bool
  | [] => true
  | (a, v) :: m => decide (lo ≤ a) && decide (v ≠ unlisted) && Memory.wfFrom (a + 1) m

/-- The canonical form of the frame buffer's contents. -/
def Memory.wf (m : Memory) : Bool := Memory.wfFrom 0 m

/-- Every listed address is one of the `l` bytes of the frame buffer (R53). -/
def Memory.within (m : Memory) (l : Nat) : Bool := m.all fun c => decide (c.1 < l)

/-- One write of a micro-operation to the frame buffer: a whole byte or one nibble (R64). -/
inductive FrameWrite where
  | byte (k : Nat) (v : Byte)
  | nib (i : Nat) (v : Nibble)
  deriving DecidableEq, Repr

/-- The byte address a write stores to. -/
def FrameWrite.addr : FrameWrite → Nat
  | .byte k _ => k
  | .nib i _ => i / 2

/-- One write carried out. -/
def Memory.store (m : Memory) : FrameWrite → Memory
  | .byte k v => m.write k v
  | .nib i v => m.nibWrite i v

/-- A list of writes carried out in order. -/
def Memory.storeAll (m : Memory) (ws : List FrameWrite) : Memory := ws.foldl Memory.store m

/-- An address marked as written, the list kept rising and without repeats. -/
def markAddr (k : Nat) : List Nat → List Nat
  | [] => [k]
  | a :: l => if k < a then k :: a :: l else if k = a then a :: l else a :: markAddr k l

/-- The state after a list of writes: the bytes, and their marks for the status view (R50). -/
def State.stored (s : State) (ws : List FrameWrite) : State :=
  { s with
    fb := s.fb.storeAll ws
    written := { s.written with fb := (ws.map FrameWrite.addr).foldl (fun l k => markAddr k l) s.written.fb } }

/-- The first of some byte addresses that lies outside a frame of `l` bytes (R53). -/
def outside (l : Nat) (addrs : List Nat) : Option Nat := addrs.find? fun a => decide (l ≤ a)

/-- The next state `t`, if the accessed addresses all exist (R53); else the stop of log 11. -/
def guardFrame (addrs : List Nat) (s t : State) : Result :=
  match outside s.cfg.l.toNat addrs with
  | some a => .fault (.noFrameByte a)
  | none => .next t

/-- The state with `SEQ` holding another code (R43). -/
def State.goto (s : State) (code : Byte) : State := { s with seq := code }

/-- The writes of a micro-operation carried out and `SEQ` set, if the addresses all exist. -/
def storeAndGo (ws : List FrameWrite) (code : Byte) (s : State) : Result :=
  guardFrame (ws.map FrameWrite.addr) s ((s.stored ws).goto code)

/-- A frame buffer of `l` bytes of given contents. -/
def Memory.ofBytes (l : Nat) (byteAt : Nat → Byte) : Memory :=
  (List.range l).foldl (fun m k => m.write k (byteAt k)) []

/-! ### The line, the clock and the draws -/

/-- `setLine` (R16): the line's level, and a setpoint at the current time. -/
def State.setLine (s : State) (level : Level) : State :=
  { s with tx := level, trace := s.trace ++ [{ time := s.env.now, level := level }] }

/-- The clock after a further `d` microseconds. It never decreases and holds 64 bits (R45): a delay past its last value is cut to what
fits (log 8). -/
def later (t : Time) (d : Nat) : Time := BitVec.ofNat 64 (min (t.toNat + d) (2 ^ 64 - 1))

/-- Draw `j` from now on of `RNG`. -/
def Env.rngAt (e : Env) (j : Nat) : Byte := e.rng[j]?.getD (Config.rng (e.rngIx + j))

/-- The environment after one draw of `RNG` was taken. -/
def Env.rngTaken (e : Env) : Env := { e with rng := e.rng.tail, rngIx := e.rngIx + 1 }

/-- Delay `j` from now on of `LATENCY`. -/
def Env.latencyAt (e : Env) (j : Nat) : Nat := e.latency[j]?.getD (Config.latency (e.latencyIx + j))

/-- Turn `j` from now on of the environment. -/
def Env.turnAt (e : Env) (j : Nat) : Turn := e.turns[j]?.getD (Config.turn (e.turnIx + j))

/-- The environment after a sleep until `t`: the time is `max(now, t) + δ`, `δ` one draw of `LATENCY` (R144). -/
def Env.slept (e : Env) (t : Time) : Env :=
  { e with
    now := later (if e.now ≤ t then t else e.now) (e.latencyAt 0)
    latency := e.latency.tail
    latencyIx := e.latencyIx + 1 }

/-- `sleepUntil(t)` (R16, R144). -/
def State.sleepUntil (s : State) (t : Time) : State := { s with env := s.env.slept t }

/-- The time that passes in the environment's next turn: the turn's own where processing time passes; before an encoder wait none
(R205, D24), but for a reset event that comes with the turn, which arrives after that time (log 7). -/
def Env.passing (timed : Bool) (e : Env) : Nat := if timed || (e.turnAt 0).reset then (e.turnAt 0).delay else 0

/-- The environment's turn after a step: the time that passes, the second boundaries that passed, the reset event if it arrived, and what
READING and BATT present (R45, R159, R179, R205). `timed` says whether processing time passes. -/
def Env.turned (timed : Bool) (e : Env) : Env :=
  let t := e.turnAt 0
  { e with
    now := later e.now (e.passing timed)
    tickReq := e.tickReq + t.ticks
    resetReq := e.resetReq || t.reset
    reading := t.reading
    batt := t.batt
    turns := e.turns.tail
    turnIx := e.turnIx + 1 }

/-- The state after the environment's turn; it changes the input ports only. -/
def State.environment (timed : Bool) (s : State) : State := { s with env := s.env.turned timed }

/-! ### Faults -/

/-- The fault code `CONFIG_ERROR` (R170, R171). -/
def configError : BitVec 4 := 0x1

/-- The fault code `READING_RANGE` (R170, R173). -/
def readingRange : BitVec 4 := 0x2

/-- The fault code `ILLEGAL_OP` (R170, R174). -/
def illegalOp : BitVec 4 := 0x3

/-- The line forced LOW by fault entry: a setpoint only if it was HIGH (R177). -/
def State.forceLow (s : State) : State := if s.tx = .high then s.setLine .low else s

/-- Fault entry, `raise Fault(code, detail)` (R177), from the state the faulting operation found: its own writes are discarded.
`FAULT` is written, the line forced LOW, and the sequencer halted; nothing else changes. There is no return from it but RESET (R181). -/
def raiseFault (s : State) (code : BitVec 4) (detail : BitVec 8) : State :=
  { s.forceLow with fault := { halted := true, ecode := code, edetail := detail }, seq := 0xFF }

/-! ### What a step does next -/

/-- What the sequencer does in a step. -/
inductive Action where
  /-- It performs a micro-operation. -/
  | run (i : Instr)
  /-- `SEQ` holds a reserved code: ILLEGAL_OP (R174). -/
  | illegal (code : Byte)
  /-- It is halted and performs nothing (R178). -/
  | halted
  deriving DecidableEq, Repr

/-- The sequencer's choice: the reset event first (R180), else the operation whose code `SEQ` holds (R43, R76). -/
def State.nextAction (s : State) : Action :=
  if s.env.resetReq then .run .reset
  else match decode s.seq with
    | .ok i => .run i
    | .error (.reserved c) => .illegal c
    | .error .halted => .halted

/-- The operations whose next operation is one of the encoder's waits, ENC_FIRST, ENC_SECOND or ENC_END (R158). -/
def beforeWait : List Instr := [.encStart, .encFirst, .encSecond]

/-- Whether processing time passes between an action and the next (R205): none before the encoder's waits, whose times the deadlines fix
(R146, R204; D24), and a free time after everything else. So a free time passes after ENC_END too: whether any of DBG_LOG's own time passes
before it reads `now` is open, and the model leaves it free (DESIGN CHOICE, log 31). After entry from a reserved code and a halted step time
passes as well (log 6). -/
def Action.takesTime : Action → Bool
  | .run i => decide (i ∉ beforeWait)
  | .illegal _ => true
  | .halted => true

/-- A step from a reserved code (R174). -/
def illegalStep (code : Byte) (s : State) : Result := .next (raiseFault s illegalOp code)

/-- A step while halted: the block performs nothing and keeps every register (R178; log 12). -/
def haltedStep (s : State) : Result := .next s

/-- The step after its operation: the environment's turn on a next state. -/
def withTurn (timed : Bool) : Result → Result
  | .next t => .next (t.environment timed)
  | .fault r => .fault r
  | .refused r => .refused r

/-- The kind a `FB_SENS_*` code needs in order not to be reserved (R75). -/
def kindFor (code : Byte) (kind : Kind) : Kind :=
  if code = 0x14 then .uv else if code = 0x15 then .wind else if code = 0x16 then .th else if code = 0x17 then .rain else kind

/-- The ticks `SCH_TICK` needs in order to be enabled (R149). -/
def ticksFor (code : Byte) (n : Nat) : Nat := if code = 0x40 then max n 1 else n

/-- A state made so that its very next step performs the operation of a code: `SEQ` holds the code, no reset event is pending, and what
enables the code is there, the kind of a `FB_SENS_*` (R75) or a tick for `SCH_TICK` (R149) (log 20). -/
def placeCode (s : State) (code : Byte) : State :=
  { s with
    seq := code
    cfg := { s.cfg with kind := kindFor code s.cfg.kind }
    env := { s.env with resetReq := false, tickReq := ticksFor code s.env.tickReq } }

end Sys2Proof.Machine
end

