-- ==== Sys2Proof/Machine/Checksum.lean ====
section
/-! DEFINITION. The ChecksumEngine micro-operations CK_SUM, CK_CRC and CK_STORE (spec/42_checksum.md). -/

namespace Sys2Proof.Machine

/-- The loop of `CK_SUM` (R123): `r` nibbles are left, from byte `k`; the half-covered final byte gives its high nibble only. -/
def sumLoop (m : Memory) : (r k acc : Nat) → Nat
  | 0, _, acc => acc
  | 1, k, acc => acc + (hiNib (m.read k)).toNat
  | r + 2, k, acc => sumLoop m r (k + 1) (acc + (hiNib (m.read k)).toNat + (loNib (m.read k)).toNat)

/-- The byte addresses of the nibbles `7 .. 6 + k` (R57). -/
def rangeAddrs (k : Nat) : List Nat := (List.range k).map fun j => (ckStart + j) / 2

/-- `CK_SUM` (R123); for `CFG_K = 0`, which VALIDATE never passes, the rule's text is followed as it stands (log 16). -/
def execCkSum (s : State) : Result :=
  let k := s.cfg.k.toNat
  guardFrame (3 :: rangeAddrs k) s
    { s with
      sum := BitVec.ofNat 8 (sumLoop s.fb (k - 1) 4 (loNib (s.fb.read 3)).toNat)
      written := { s.written with sum := true }
      seq := 0x21 }

/-- One of the four rounds of a CRC step: shift left, and the polynomial `0x07` if bit 7 was 1 (R124). -/
def crcRound (c : Byte) : Byte := if c.getLsbD 7 then (c <<< 1) ^^^ 0x07 else c <<< 1

/-- The four rounds of a CRC step (R124). -/
def crcRounds (c : Byte) : Byte := crcRound (crcRound (crcRound (crcRound c)))

/-- `crcStep(c, n)` (R124): the nibble into the high half of the register, then four rounds. -/
def crcStep (c : Byte) (n : Nibble) : Byte := crcRounds (c ^^^ joinNibs n 0)

/-- The CRC-8 of a list of nibbles (R124). -/
def crcOf (ns : List Nibble) : Byte := ns.foldl crcStep 0x00

/-- `CK_CRC` (R125). -/
def execCkCrc (s : State) : Result :=
  let k := s.cfg.k.toNat
  guardFrame (rangeAddrs k) s
    { s with
      crc := crcOf (s.fb.rangeNibs k)
      written := { s.written with crc := true }
      seq := 0x22 }

/-- `CK_STORE` (R127): each checksum with its low nibble first, the sum before the CRC. -/
def execCkStore (s : State) : Result :=
  let p := ckStart + s.cfg.k.toNat
  storeAndGo [.nib p (loNib s.sum), .nib (p + 1) (hiNib s.sum), .nib (p + 2) (loNib s.crc), .nib (p + 3) (hiNib s.crc)] 0x30 s

end Sys2Proof.Machine
end

