-- ==== Sys2Proof/Machine/DebugSink.lean ====
section
/-! DEFINITION. The debug record and DBG_LOG (spec/45_debug_sink.md). -/

namespace Sys2Proof.Machine

/-- The upper-case hexadecimal digit of a nibble (R163). -/
def hexDigit (n : Nibble) : Char := "0123456789ABCDEF".toList.getD n.toNat '0'

/-- The two characters of a byte, high nibble first (R163). -/
def hexByte (b : Byte) : List Char := [hexDigit (hiNib b), hexDigit (loNib b)]

/-- The bytes as two digits each, one space between (R163). -/
def renderChars : List Byte → List Char
  | [] => []
  | [b] => hexByte b
  | b :: c :: bs => hexByte b ++ ' ' :: renderChars (c :: bs)

/-- The rendered frame bytes (R163). -/
def render (bs : List Byte) : String := String.ofList (renderChars bs)

/-- `DBG_LOG` (R168). The sequencer issues it only when LOG_PRESENT; without a sink no record exists (R162; log 13). The
time that passes after ENC_END and before this effect is free, so the timestamp need not be the final LOW's time (R164, R205; DESIGN CHOICE,
log 31). -/
def execDbgLog (s : State) : Result :=
  let record : DebugRecord := { stamp := s.env.now, bytes := render (s.fb.bytes s.cfg.l.toNat) }
  .next { s with log := if s.cfg.logPresent then s.log ++ [record] else s.log, seq := 0x42 }

/-- The line the sink shows for a record: how the timestamp is rendered is the parameter LOG_TS (R164; log 21). -/
def DebugRecord.line (r : DebugRecord) : String := Config.logTs r.stamp r.bytes

end Sys2Proof.Machine
end

