-- ==== Sys2Proof/Machine/FrameBuilder.lean ====
section
/-! DEFINITION. The FrameBuilder micro-operations (spec/41_frame_builder.md). -/

namespace Sys2Proof.Machine

/-- `FB_CLEAR` (R101). -/
def execFbClear (s : State) : Result :=
  storeAndGo ((List.range s.cfg.l.toNat).map (FrameWrite.byte · 0x00)) 0x11 s

/-- `FB_HDR` (R102): preamble and sync. -/
def execFbHdr (s : State) : Result :=
  storeAndGo [.byte 0 0xFF, .byte 1 0xFF, .byte 2 0xFF, .nib 6 0xA] 0x12 s

/-- `FB_ID` (R104): sensor-id nibbles and channel nibble. -/
def execFbId (s : State) : Result :=
  storeAndGo ((List.range 4).map (fun j => FrameWrite.nib (7 + j) (sidNib s.cfg.sensorId j)) ++ [.nib 11 (channelNib s.cfg.channel)])
    0x13 s

/-- `FB_ROLL` (R106): rolling code and battery-flag nibble; the kind's `FB_SENS_*` is next. -/
def execFbRoll (s : State) : Result :=
  storeAndGo [.byte 6 s.roll, .nib 14 (batteryNib s.snapBatt)] (sensCode s.cfg.kind) s

/-! ### The sensor nibbles -/

/-- The writes of the sign nibble, none for a field without one (R110). -/
def signWrites (f : FieldSpec) (v : Int) : List FrameWrite :=
  f.signAt.toList.map fun i => .nib (sensorStart + i) (signNib v)

/-- `put(f, v)` (R110): the nibbles a field writes, or the READING_RANGE detail it raises; the sign check stands before the magnitude
check (R180). -/
def putField (f : FieldSpec) (v : Int) : Except Byte (List FrameWrite) :=
  if f.signAt = none ∧ v < 0 then .error 0x03
  else
    let m := v.natAbs
    match f.form with
    | .bin =>
      if m > 15 then .error 0x01
      else .ok (.nib (sensorStart + f.offset) (BitVec.ofNat 4 m) :: signWrites f v)
    | .bcd d order =>
      if m ≥ 10 ^ d then .error 0x02
      else .ok ((List.range d).map (fun k => FrameWrite.nib (sensorStart + digitPos order f.offset d k) (BitVec.ofNat 4 (digit k m))) ++
        signWrites f v)

/-- Why the sensor nibbles cannot be written. -/
inductive SensorStop where
  /-- READING_RANGE with a detail (R173). -/
  | range (detail : Byte)
  /-- A byte address outside the frame (R53, log 11). -/
  | outside (addr : Nat)
  deriving DecidableEq, Repr

/-- The writes of some fields, in their order; the first that fails stops (R180). -/
def putFields (l : Nat) (rd : Reading) : List FieldSpec → Except SensorStop (List FrameWrite)
  | [] => .ok []
  | f :: fs =>
    match putField f (readField rd f.input) with
    | .error d => .error (.range d)
    | .ok ws =>
      match outside l (ws.map FrameWrite.addr) with
      | some a => .error (.outside a)
      | none =>
        match putFields l rd fs with
        | .error e => .error e
        | .ok rest => .ok (ws ++ rest)

/-- The writes of the constant nibbles, after the fields (R115). -/
def constWrites (enc : Encoder) : List FrameWrite :=
  enc.consts.map fun c => .nib (sensorStart + c.offset) c.value

/-- What the four `FB_SENS_*` operations share (R108 to R117): ILLEGAL_OP with the operation's code if the kind disagrees, before
anything else (R174); the fields, then the constants; READING_RANGE with nothing written (R177). R74 lists `CFG_K` among what
they read and R108 ends their writes at nibble `14 + N`, `N = CFG_K - 8`, while the pseudocode of R110 to R115 uses no `CFG_K`: the model
follows the pseudocode and writes a field or constant past that bound, which only a profile that VALIDATE refuses can have (DEDUCED,
log 30). -/
def sensStore (kind : Kind) (fields : List FieldSpec) (s : State) : Result :=
  if s.cfg.kind ≠ kind then .next (raiseFault s illegalOp (sensCode kind))
  else
    match putFields s.cfg.l.toNat s.snapRd fields with
    | .error (.range d) => .next (raiseFault s readingRange d)
    | .error (.outside a) => .fault (.noFrameByte a)
    | .ok ws => storeAndGo (ws ++ constWrites s.cfg.enc) 0x20 s

/-- `FB_SENS_UV` (R111). -/
def execFbSensUv (s : State) : Result := sensStore .uv [uvField] s

/-- `FB_SENS_WIND` (R112). -/
def execFbSensWind (s : State) : Result := sensStore .wind s.cfg.enc.fields s

/-- `FB_SENS_TH` (R113). -/
def execFbSensTh (s : State) : Result := sensStore .th s.cfg.enc.fields s

/-- `FB_SENS_RAIN` (R114). -/
def execFbSensRain (s : State) : Result := sensStore .rain s.cfg.enc.fields s

end Sys2Proof.Machine
end

