-- ==== Sys2Proof/Machine/Lifecycle.lean ====
section
/-! DEFINITION. The lifecycle micro-operations RESET, VALIDATE and DRAW_ROLL (spec/40_lifecycle.md). -/

namespace Sys2Proof.Machine

/-- `RESET` (R83). The registers the rule leaves unspecified become free values (log 3); the configuration stays (R81); the line goes LOW
with a setpoint at the reset's time; the ticks outstanding are discarded (R192) and the reset event is taken. -/
def execReset (s : State) : Result :=
  let u := Config.unspecified s.resets
  .next
    { cfg := s.cfg
      roll := u.roll
      fb := Memory.ofBytes s.cfg.l.toNat (Config.unspecifiedFb s.resets)
      sum := u.sum
      crc := u.crc
      snapRd := u.snapRd
      snapBatt := u.snapBatt
      elapsed := 0
      sphase := .idle
      tx := .low
      onUs := u.onUs
      dl := u.dl
      bitix := u.bitix
      lastBit := u.lastBit
      seq := 0x02
      fault := FaultReg.clear
      written := Written.none
      trace := s.trace ++ [{ time := s.env.now, level := .low }]
      log := s.log
      env := { s.env with tickReq := 0, resetReq := false }
      resets := s.resets + 1 }

/-- The integer of R91, `floor(488 * CFG_FNUM / CFG_FDEN) - CFG_SHORTEN`, signed. -/
def onPhase (p : Profile) : Int := (halfUs * p.fnum.toNat / p.fden.toNat : Nat) - (p.shorten.toNat : Int)

/-- The checks of VALIDATE in their order (R85 to R92): the detail of the first that fails, or none. -/
def configCheck (p : Profile) : Option Byte :=
  let pos := ckStart + p.k.toNat
  if p.k.toNat < 8 then some 0x01
  else if p.k.toNat - 8 ≠ p.enc.nibbles then some 0x02
  else if pos + 4 > 2 * p.l.toNat then some 0x03
  else if 2 * p.l.toNat > pos + 5 then some 0x04
  else if p.interval = 0 then some 0x05
  else if p.fden = 0 then some 0x06
  else if onPhase p < 1 ∨ onPhase p > 975 then some 0x07
  else if layoutOk p.kind p.enc = false then some 0x08
  else none

/-- `VALIDATE` (R92). -/
def execValidate (s : State) : Result :=
  match configCheck s.cfg with
  | some d => .next (raiseFault s configError d)
  | none =>
    .next { s with
      onUs := BitVec.ofInt 16 (onPhase s.cfg)
      written := { s.written with onUs := true }
      seq := 0x03 }

/-- The rolling codes that must be drawn again, `ROLL_BAD` (R10, R94). -/
def rollBad (r : Byte) : Bool := r = 0x00 ∨ r = 0xFF

/-- `DRAW_ROLL` (R94): one draw of RNG is taken, whatever it is. -/
def execDrawRoll (s : State) : Result :=
  let r := s.env.rngAt 0
  let t : State := { s with env := s.env.rngTaken }
  .next (if rollBad r then t.goto 0x03
    else { t with roll := r, written := { t.written with roll := true }, seq := 0x40 })

end Sys2Proof.Machine
end

