-- ==== Sys2Proof/Machine/Manchester.lean ====
section
/-! DEFINITION. The ManchesterLineEncoder micro-operations (spec/43_manchester.md). -/

namespace Sys2Proof.Machine

/-- `ENC_START` (R140). -/
def execEncStart (s : State) : Result :=
  .next { s.setLine .low with
    dl := s.env.now
    bitix := 0
    written := { s.written with dl := true, bitix := true }
    seq := 0x31 }

/-- `ENC_FIRST` (R141): sleep until the bit's start, then the bit's first level. -/
def execEncFirst (s : State) : Result :=
  let b := s.fb.lineBit s.bitix.toNat
  guardFrame [s.bitix.toNat / 8] s
    { (s.sleepUntil s.dl).setLine (firstLevel b) with lastBit := b, seq := 0x32 }

/-- `ENC_SECOND` (R142): sleep until the transition point, then the opposite level; the deadline advances by one bit period exactly.
The sums that do not fit their registers are free (log 9). -/
def execEncSecond (s : State) : Result :=
  let next := fit 16 (s.bitix.toNat + 1)
  .next { (s.sleepUntil (fit 64 (s.dl.toNat + s.onUs.toNat))).setLine (secondLevel s.lastBit) with
    dl := fit 64 (s.dl.toNat + bitUs)
    bitix := next
    written := { s.written with dl := true, bitix := true }
    seq := if next.toNat = 8 * s.cfg.l.toNat then 0x33 else 0x31 }

/-- `ENC_END` (R143): sleep until the end of the last bit period, a half period more after a final 1, then LOW. -/
def execEncEnd (s : State) : Result :=
  let atEnd := s.sleepUntil s.dl
  let closed := if s.lastBit then atEnd.sleepUntil (fit 64 (s.dl.toNat + halfUs)) else atEnd
  .next ((closed.setLine .low).goto (if s.cfg.logPresent then 0x50 else 0x42))

end Sys2Proof.Machine
end

