-- ==== Sys2Proof/Machine/Scheduler.lean ====
section
/-! DEFINITION. The TransmitScheduler micro-operations (spec/44_scheduler.md). -/

namespace Sys2Proof.Machine

/-- `SCH_TICK` (R149): consume one outstanding tick; with none outstanding the sequencer waits and changes nothing (R156). -/
def execSchTick (s : State) : Result :=
  if s.env.tickReq = 0 then .next s
  else
    .next { s with
      env := { s.env with tickReq := s.env.tickReq - 1 }
      elapsed := s.elapsed + 1
      sphase := .pending
      seq := 0x41 }

/-- `SCH_EVAL` (R150): fire, latching the reading and the battery flag, or wait for the next tick. -/
def execSchEval (s : State) : Result :=
  if elapsedMod s.elapsed s.cfg.interval = 0 then
    .next { s with snapRd := s.env.reading, snapBatt := s.env.batt, sphase := .sent, seq := 0x10 }
  else .next { s with sphase := .idle, seq := 0x40 }

/-- `SCH_DONE` (R152). -/
def execSchDone (s : State) : Result := .next { s with sphase := .idle, seq := 0x40 }

end Sys2Proof.Machine
end

