-- ==== Sys2Proof/Machine/Dispatch.lean ====
section
/-! DEFINITION. The dispatch of a micro-operation to its meaning, one arm per constructor. -/

namespace Sys2Proof.Machine

def exec (i : Instr) (s : State) : Host.Outcome State Fault Refusal :=
  match i with
  | .reset => Sys2Proof.Machine.execReset s
  | .validate => Sys2Proof.Machine.execValidate s
  | .drawRoll => Sys2Proof.Machine.execDrawRoll s
  | .fbClear => Sys2Proof.Machine.execFbClear s
  | .fbHdr => Sys2Proof.Machine.execFbHdr s
  | .fbId => Sys2Proof.Machine.execFbId s
  | .fbRoll => Sys2Proof.Machine.execFbRoll s
  | .fbSensUv => Sys2Proof.Machine.execFbSensUv s
  | .fbSensWind => Sys2Proof.Machine.execFbSensWind s
  | .fbSensTh => Sys2Proof.Machine.execFbSensTh s
  | .fbSensRain => Sys2Proof.Machine.execFbSensRain s
  | .ckSum => Sys2Proof.Machine.execCkSum s
  | .ckCrc => Sys2Proof.Machine.execCkCrc s
  | .ckStore => Sys2Proof.Machine.execCkStore s
  | .encStart => Sys2Proof.Machine.execEncStart s
  | .encFirst => Sys2Proof.Machine.execEncFirst s
  | .encSecond => Sys2Proof.Machine.execEncSecond s
  | .encEnd => Sys2Proof.Machine.execEncEnd s
  | .schTick => Sys2Proof.Machine.execSchTick s
  | .schEval => Sys2Proof.Machine.execSchEval s
  | .schDone => Sys2Proof.Machine.execSchDone s
  | .dbgLog => Sys2Proof.Machine.execDbgLog s

end Sys2Proof.Machine
end

