-- ==== Sys2Proof/Machine/Step.lean ====
section
/-! DEFINITION. One step of the machine: the sequencer's action, then the environment's turn (spec/00_scope.md R7, R8; spec/44_scheduler.md
R158; log 6). -/

namespace Sys2Proof.Machine

/-- What the sequencer's action leaves, before the environment's turn. -/
def act (s : State) : Result :=
  match s.nextAction with
  | .run i => exec i s
  | .illegal c => illegalStep c s
  | .halted => haltedStep s

/-- One step: the sequencer acts, then the environment takes its turn, in which the action's processing time passes (R205). -/
def step (s : State) : Host.Outcome State Fault Refusal := withTurn s.nextAction.takesTime (act s)

/-- The state in which the next step performs the operation whose code is `w` (log 20). -/
def State.withFetchWord (s : State) (nbits w : Nat) : State := placeCode s (BitVec.ofNat 8 (w % 2 ^ nbits))

end Sys2Proof.Machine
end

