-- ==== Sys2Proof/Machine/Listing.lean ====
section
/-! DEFINITION. Mnemonics, listings and pseudo-operations (spec/30_encoding.md R78 to R80). -/

namespace Sys2Proof.Machine

/-- The mnemonic of an operation (R73). -/
def mnemonic : Instr → String
  | .reset => "RESET"
  | .validate => "VALIDATE"
  | .drawRoll => "DRAW_ROLL"
  | .fbClear => "FB_CLEAR"
  | .fbHdr => "FB_HDR"
  | .fbId => "FB_ID"
  | .fbRoll => "FB_ROLL"
  | .fbSensUv => "FB_SENS_UV"
  | .fbSensWind => "FB_SENS_WIND"
  | .fbSensTh => "FB_SENS_TH"
  | .fbSensRain => "FB_SENS_RAIN"
  | .ckSum => "CK_SUM"
  | .ckCrc => "CK_CRC"
  | .ckStore => "CK_STORE"
  | .encStart => "ENC_START"
  | .encFirst => "ENC_FIRST"
  | .encSecond => "ENC_SECOND"
  | .encEnd => "ENC_END"
  | .schTick => "SCH_TICK"
  | .schEval => "SCH_EVAL"
  | .schDone => "SCH_DONE"
  | .dbgLog => "DBG_LOG"

/-- The operation of a mnemonic (R73). -/
def ofMnemonic (w : List Char) : Option Instr := Instr.all.find? fun i => (mnemonic i).toList == w

/-! ### The text of a listing (R78) -/

/-- A token of a listing. -/
inductive Token where
  | word (w : List Char)
  | lpar
  | rpar
  deriving DecidableEq, Repr

/-- The word read so far, if any. -/
def flushWord (cur : List Char) : List Token := if cur = [] then [] else [.word cur]

/-- The tokens of a line: `;` starts a comment to its end (R78). -/
def lexLine (cur : List Char) : List Char → List Token
  | [] => flushWord cur
  | c :: cs =>
    if c = ';' then flushWord cur
    else if c = ' ' ∨ c = '\t' ∨ c = '\r' then flushWord cur ++ lexLine [] cs
    else if c = '(' then flushWord cur ++ .lpar :: lexLine [] cs
    else if c = ')' then flushWord cur ++ .rpar :: lexLine [] cs
    else lexLine (cur ++ [c]) cs

/-- The tokens of a line without the label at its start (R78). -/
def lineTokens (line : List Char) : List Token :=
  match lexLine [] line with
  | .word w :: ts => if w.getLast? = some ':' then ts else .word w :: ts
  | ts => ts

/-- The lines of a text. -/
def linesOf (cur : List Char) : List Char → List (List Char)
  | [] => [cur]
  | c :: cs => if c = '\n' then cur :: linesOf [] cs else linesOf (cur ++ [c]) cs

/-- A decimal number. -/
def readNat (acc : Nat) : List Char → Option Nat
  | [] => some acc
  | c :: cs => if c.isDigit then readNat (10 * acc + (c.toNat - 48)) cs else none

/-- The count of a repeat mark `xN` (R78). -/
def readRepeat : List Char → Option Nat
  | 'x' :: c :: cs => readNat 0 (c :: cs)
  | _ => none

/-- The operations of a listing's tokens: `( ... ) xN` repeats a group, groups do not nest; none if it is no listing (R78; log 26). -/
def parseTokens (done : List Instr) (group : Option (List Instr)) : List Token → Option (List Instr)
  | [] => if group = none then some done else none
  | .lpar :: ts => if group = none then parseTokens done (some []) ts else none
  | .rpar :: .word w :: ts =>
    match group, readRepeat w with
    | some g, some n => parseTokens (done ++ (List.replicate n g).flatten) none ts
    | _, _ => none
  | .rpar :: _ => none
  | .word w :: ts =>
    match ofMnemonic w, group with
    | some i, some g => parseTokens done (some (g ++ [i])) ts
    | some i, none => parseTokens (done ++ [i]) none ts
    | none, _ => none

/-- The operations of a listing (R78). -/
def parseListing (text : String) : Option (List Instr) :=
  parseTokens [] none ((linesOf [] text.toList).flatMap lineTokens)

/-- The encoding of a listing: its codes in order (R78). -/
def assemble (text : String) : Option (List Byte) := (parseListing text).map (·.map encode)

/-! ### Pseudo-operations (R79) -/

/-- `POWERON` with a number of draws. -/
def powerOnOps (draws : Nat) : List Instr := [.reset, .validate] ++ List.replicate draws .drawRoll

/-- `BUILD` of a kind. -/
def buildOps (kind : Kind) : List Instr := [.fbClear, .fbHdr, .fbId, .fbRoll, Instr.sensOf kind]

/-- `CHECKSUM`. -/
def checksumOps : List Instr := [.ckSum, .ckCrc, .ckStore]

/-- `ENCODE` of a frame of `l` bytes. -/
def encodeOps (l : Nat) : List Instr := [.encStart] ++ (List.replicate (8 * l) [.encFirst, .encSecond]).flatten ++ [.encEnd]

/-- `TRANSMIT` under a profile. -/
def transmitOps (p : Profile) : List Instr :=
  buildOps p.kind ++ checksumOps ++ encodeOps p.l.toNat ++ (if p.logPresent then [.dbgLog] else []) ++ [.schDone]

/-- `SECOND` under a profile, with `TRANSMIT` if the evaluation fired. -/
def secondOps (p : Profile) (fired : Bool) : List Instr := [.schTick, .schEval] ++ (if fired then transmitOps p else [])

end Sys2Proof.Machine
end

