-- ==== Sys2Proof/Machine/Reference.lean ====
section
/-! DEFINITION. The pure functions the spec names, each written from its own rule and not from the micro-operations: the sum of a range
(spec/42_checksum.md R122), the equivalent CRC forms and the table (R126, R129), the frame as a function of its inputs
(spec/41_frame_builder.md R119), the bit stream (spec/20_memory.md R60), the waveform and the receiver (spec/43_manchester.md R146, R148). -/

namespace Sys2Proof.Machine

/-! ### Checksums -/

/-- `sumRange` (R122): the sum of the nibble values, truncated to 8 bits. -/
def sumOf (ns : List Nibble) : Byte := BitVec.ofNat 8 (ns.map BitVec.toNat).sum

/-- The table `T[b]` as R129 lists it. -/
def crcTable : List Byte :=
  [0x00, 0x07, 0x0E, 0x09, 0x1C, 0x1B, 0x12, 0x15, 0x38, 0x3F, 0x36, 0x31, 0x24, 0x23, 0x2A, 0x2D] ++
  [0x70, 0x77, 0x7E, 0x79, 0x6C, 0x6B, 0x62, 0x65, 0x48, 0x4F, 0x46, 0x41, 0x54, 0x53, 0x5A, 0x5D] ++
  [0xE0, 0xE7, 0xEE, 0xE9, 0xFC, 0xFB, 0xF2, 0xF5, 0xD8, 0xDF, 0xD6, 0xD1, 0xC4, 0xC3, 0xCA, 0xCD] ++
  [0x90, 0x97, 0x9E, 0x99, 0x8C, 0x8B, 0x82, 0x85, 0xA8, 0xAF, 0xA6, 0xA1, 0xB4, 0xB3, 0xBA, 0xBD] ++
  [0xC7, 0xC0, 0xC9, 0xCE, 0xDB, 0xDC, 0xD5, 0xD2, 0xFF, 0xF8, 0xF1, 0xF6, 0xE3, 0xE4, 0xED, 0xEA] ++
  [0xB7, 0xB0, 0xB9, 0xBE, 0xAB, 0xAC, 0xA5, 0xA2, 0x8F, 0x88, 0x81, 0x86, 0x93, 0x94, 0x9D, 0x9A] ++
  [0x27, 0x20, 0x29, 0x2E, 0x3B, 0x3C, 0x35, 0x32, 0x1F, 0x18, 0x11, 0x16, 0x03, 0x04, 0x0D, 0x0A] ++
  [0x57, 0x50, 0x59, 0x5E, 0x4B, 0x4C, 0x45, 0x42, 0x6F, 0x68, 0x61, 0x66, 0x73, 0x74, 0x7D, 0x7A] ++
  [0x89, 0x8E, 0x87, 0x80, 0x95, 0x92, 0x9B, 0x9C, 0xB1, 0xB6, 0xBF, 0xB8, 0xAD, 0xAA, 0xA3, 0xA4] ++
  [0xF9, 0xFE, 0xF7, 0xF0, 0xE5, 0xE2, 0xEB, 0xEC, 0xC1, 0xC6, 0xCF, 0xC8, 0xDD, 0xDA, 0xD3, 0xD4] ++
  [0x69, 0x6E, 0x67, 0x60, 0x75, 0x72, 0x7B, 0x7C, 0x51, 0x56, 0x5F, 0x58, 0x4D, 0x4A, 0x43, 0x44] ++
  [0x19, 0x1E, 0x17, 0x10, 0x05, 0x02, 0x0B, 0x0C, 0x21, 0x26, 0x2F, 0x28, 0x3D, 0x3A, 0x33, 0x34] ++
  [0x4E, 0x49, 0x40, 0x47, 0x52, 0x55, 0x5C, 0x5B, 0x76, 0x71, 0x78, 0x7F, 0x6A, 0x6D, 0x64, 0x63] ++
  [0x3E, 0x39, 0x30, 0x37, 0x22, 0x25, 0x2C, 0x2B, 0x06, 0x01, 0x08, 0x0F, 0x1A, 0x1D, 0x14, 0x13] ++
  [0xAE, 0xA9, 0xA0, 0xA7, 0xB2, 0xB5, 0xBC, 0xBB, 0x96, 0x91, 0x98, 0x9F, 0x8A, 0x8D, 0x84, 0x83] ++
  [0xDE, 0xD9, 0xD0, 0xD7, 0xC2, 0xC5, 0xCC, 0xCB, 0xE6, 0xE1, 0xE8, 0xEF, 0xFA, 0xFD, 0xF4, 0xF3]

/-- `T[b]` (R129). -/
def crcEntry (b : Byte) : Byte := crcTable.getD b.toNat 0

/-- The table form of the CRC (R126 (a)) from a register value: pairs of nibbles as pseudo-bytes, and a nibble step for an odd last one. -/
def crcByTable : Byte → List Nibble → Byte
  | c, [] => c
  | c, [n] => joinNibs (loNib c) 0 ^^^ crcEntry (joinNibs 0 (hiNib c) ^^^ joinNibs 0 n)
  | c, n :: m :: ns => crcByTable (crcEntry (c ^^^ joinNibs n m)) ns

/-- A step of the low-nibble form (R126 (b)): the nibble into the low half of the register, then four rounds. -/
def crcLowStep (c : Byte) (n : Nibble) : Byte := crcRounds (c ^^^ joinNibs 0 n)

/-- The low-nibble form of the CRC (R126 (b)), with its trailing zero nibble. -/
def crcLowForm (ns : List Nibble) : Byte := (ns ++ [0]).foldl crcLowStep 0x00

/-! ### The frame as a pure function -/

/-- Whether a value is in a field's domain (R110, R173). -/
def fieldFits (f : FieldSpec) (v : Int) : Bool :=
  (f.signAt.isSome || decide (0 ≤ v)) &&
  (match f.form with
    | .bin => decide (v.natAbs ≤ 15)
    | .bcd d _ => decide (v.natAbs < 10 ^ d))

/-- What a field puts at sensor nibble `m`, if it covers it (R109, R110). -/
def fieldNib (f : FieldSpec) (v : Int) (m : Nat) : Option Nibble :=
  if f.signAt = some m then some (signNib v)
  else match f.form with
    | .bin => if m = f.offset then some (BitVec.ofNat 4 v.natAbs) else none
    | .bcd d .lsdFirst =>
      if f.offset ≤ m ∧ m < f.offset + d then some (BitVec.ofNat 4 (digit (m - f.offset) v.natAbs)) else none
    | .bcd d .msdFirst =>
      if f.offset ≤ m ∧ m < f.offset + d then some (BitVec.ofNat 4 (digit (f.offset + d - 1 - m) v.natAbs)) else none

/-- What `ENCODE_kind` puts at sensor nibble `m` for a reading, if a field or a constant covers it (R109, R115). -/
def sensorNib (kind : Kind) (enc : Encoder) (rd : Reading) (m : Nat) : Option Nibble :=
  match (fieldsOf kind enc).findSome? fun f => fieldNib f (readField rd f.input) m with
  | some n => some n
  | none => enc.consts.findSome? fun c => if c.offset = m then some c.value else none

/-- Whether a reading is in the domain of a kind's encoder (R117). -/
def readingFits (kind : Kind) (enc : Encoder) (rd : Reading) : Bool :=
  (fieldsOf kind enc).all fun f => fieldFits f (readField rd f.input)

/-- Nibble `i` of the frame before its checksums, `fb1` of R119. -/
def bodyNib (p : Profile) (roll : Byte) (batt : Bool) (rd : Reading) (i : Nat) : Nibble :=
  if i < 6 then 0xF
  else if i = 6 then 0xA
  else if i < 11 then sidNib p.sensorId (i - 7)
  else if i = 11 then channelNib p.channel
  else if i = 12 then hiNib roll
  else if i = 13 then loNib roll
  else if i = 14 then batteryNib batt
  else if i < ckStart + p.k.toNat then (sensorNib p.kind p.enc rd (i - sensorStart)).getD 0
  else 0

/-- The nibbles of the checksum range of a frame (R57). -/
def bodyRange (p : Profile) (roll : Byte) (batt : Bool) (rd : Reading) : List Nibble :=
  (List.range p.k.toNat).map fun j => bodyNib p roll batt rd (ckStart + j)

/-- Nibble `i` of the whole frame (R119). -/
def frameNib (p : Profile) (roll : Byte) (batt : Bool) (rd : Reading) (i : Nat) : Nibble :=
  let s := sumOf (bodyRange p roll batt rd)
  let c := crcOf (bodyRange p roll batt rd)
  let pos := ckStart + p.k.toNat
  if i = pos then loNib s
  else if i = pos + 1 then hiNib s
  else if i = pos + 2 then loNib c
  else if i = pos + 3 then hiNib c
  else bodyNib p roll batt rd i

/-- `frameOf(CFG, roll, batt, rd)` (R119): the bytes of the frame. -/
def frameOf (p : Profile) (roll : Byte) (batt : Bool) (rd : Reading) : List Byte :=
  (List.range p.l.toNat).map fun k => joinNibs (frameNib p roll batt rd (2 * k)) (frameNib p roll batt rd (2 * k + 1))

/-! ### The line -/

/-- The bits of a byte in line order (R60). -/
def byteBits (b : Byte) : List Bool :=
  [b.getLsbD 4, b.getLsbD 5, b.getLsbD 6, b.getLsbD 7, b.getLsbD 0, b.getLsbD 1, b.getLsbD 2, b.getLsbD 3]

/-- `bits(FB)` (R60). -/
def frameBits (bs : List Byte) : List Bool := bs.flatMap byteBits

/-- The setpoints of the bits from number `j` on (R146). -/
def waveBits (t0 on : Nat) : Nat → List Bool → List (Nat × Level)
  | _, [] => []
  | j, b :: bs => (t0 + bitUs * j, firstLevel b) :: (t0 + bitUs * j + on, secondLevel b) :: waveBits t0 on (j + 1) bs

/-- The time of the last setpoint of a transmission: a half period later after a final 1 (R143, R146). -/
def waveEnd (t0 : Nat) (bits : List Bool) : Nat :=
  t0 + bitUs * bits.length + (if bits.getLastD false then halfUs else 0)

/-- `wave(FB, t0)` in the ideal model (R146). -/
def wave (bits : List Bool) (t0 on : Nat) : List (Nat × Level) :=
  (t0, .low) :: waveBits t0 on 0 bits ++ [(waveEnd t0 bits, .low)]

/-- The line level at time `t`: the level of the last setpoint whose time is `<= t`, LOW before the first (R146). -/
def levelAt (w : List (Nat × Level)) (t : Nat) : Level :=
  w.foldl (fun l p => if p.1 ≤ t then p.2 else l) .low

/-- What a receiver samples in the first phase of each of `n` bits (R148). -/
def sampled (w : List (Nat × Level)) (t0 on n : Nat) : List Bool :=
  (List.range n).map fun j => levelAt w (t0 + bitUs * j + on / 2) = .high

/-- Eight received bits regrouped into a byte: bits 4, 5, 6, 7, 0, 1, 2, 3 (R148). -/
def byteOfBits (b4 b5 b6 b7 b0 b1 b2 b3 : Bool) : Byte :=
  BitVec.ofBool b7 ++ BitVec.ofBool b6 ++ BitVec.ofBool b5 ++ BitVec.ofBool b4 ++
  BitVec.ofBool b3 ++ BitVec.ofBool b2 ++ BitVec.ofBool b1 ++ BitVec.ofBool b0

/-- Received bits regrouped into bytes; bits that do not fill a byte are dropped (R148). -/
def bytesOfBits : List Bool → List Byte
  | b4 :: b5 :: b6 :: b7 :: b0 :: b1 :: b2 :: b3 :: rest => byteOfBits b4 b5 b6 b7 b0 b1 b2 b3 :: bytesOfBits rest
  | _ => []

/-- The setpoints of a trace as numbers. -/
def setpoints (trace : List Setpoint) : List (Nat × Level) := trace.map fun p => (p.time.toNat, p.level)

end Sys2Proof.Machine
end

