-- ==== Sys2Proof/Machine/StatusView.lean ====
section
/-! DEFINITION. The read-only status view (spec/10_state.md R50): what a debug host reads, by number. It is no micro-operation. -/

namespace Sys2Proof.Machine

/-- A view register's value, if the register has been written. -/
def viewIf (written : Bool) (no : Nat) (v : BitVec 32) : Except Refusal (BitVec 32) :=
  if written then .ok v else .error (.viewUnwritten no)

/-- The view registers of rule R50 below the frame bytes; unused bits read as 0. R48 counts LASTBIT among what the view exposes, and R172
has the configuration registers, so `CFG_ENC` (R29) too, readable through it; yet R50's table gives neither a number and refuses every
number it does not list: the view follows the table and shows neither LASTBIT nor `CFG_ENC` (DESIGN CHOICE, log 29). -/
def viewReg (s : State) (no : Nat) : Except Refusal (BitVec 32) :=
  match no with
  | 0x00 => .ok (s.status.setWidth 32)
  | 0x01 => .ok s.elapsed
  | 0x02 => viewIf s.written.roll no (s.roll.setWidth 32)
  | 0x03 => .ok (s.seq.setWidth 32)
  | 0x04 => viewIf s.written.dl no (s.dl.extractLsb' 0 32)
  | 0x05 => viewIf s.written.dl no (s.dl.extractLsb' 32 32)
  | 0x06 => viewIf s.written.bitix no (s.bitix.setWidth 32)
  | 0x07 => viewIf s.written.onUs no (s.onUs.setWidth 32)
  | 0x08 => viewIf (s.written.sum && s.written.crc) no ((s.sum ++ s.crc).setWidth 32)
  | 0x10 => .ok ((kindBits s.cfg.kind).setWidth 32)
  | 0x11 => .ok (s.cfg.sensorId.setWidth 32)
  | 0x12 => .ok (s.cfg.channel.setWidth 32)
  | 0x13 => .ok (s.cfg.k.setWidth 32)
  | 0x14 => .ok (s.cfg.l.setWidth 32)
  | 0x15 => .ok (s.cfg.interval.setWidth 32)
  | 0x16 => .ok (s.cfg.fnum.setWidth 32)
  | 0x17 => .ok (s.cfg.fden.setWidth 32)
  | 0x18 => .ok (s.cfg.shorten.setWidth 32)
  | _ => .error (.viewNumber no)

/-- A read of the status view (R50): frame byte `k` at `0x20 + k`, the registers below, a refusal for any other number (U17) and for a
register or frame byte not yet written (U1; log 17). -/
def viewRead (s : State) (no : Nat) : Except Refusal (BitVec 32) :=
  if 0x20 ≤ no then
    if no - 0x20 < s.cfg.l.toNat then
      viewIf (s.written.fb.contains (no - 0x20)) no ((s.fb.read (no - 0x20)).setWidth 32)
    else .error (.viewNumber no)
  else viewReg s no

/-- A write to the status view: always refused (R50). -/
def viewWrite (_ : State) (no : Nat) (_ : BitVec 32) : Except Refusal State := .error (.viewWrite no)

end Sys2Proof.Machine
end

