-- ==== Sys2Proof/Safety.lean ====
section
/-! DEFINITION. What counts as a safe run, in the terms the claims use: the invariant of the block, the sequencer's table, and runs under
assumptions on the environment. -/

namespace Sys2Proof.Machine

/-! ### Runs -/

/-- `n` steps, stopping at the first stop. -/
def steps : Nat → State → Result
  | 0, s => .next s
  | n + 1, s =>
    match step s with
    | .next t => steps n t
    | .fault r => .fault r
    | .refused r => .refused r

/-- The micro-operations that `n` steps perform, in order; a step from a reserved code or while halted performs none. -/
def performed : Nat → State → List Instr
  | 0, _ => []
  | n + 1, s =>
    match s.nextAction, step s with
    | .run i, .next t => i :: performed n t
    | .run i, _ => [i]
    | _, .next t => performed n t
    | _, _ => []

/-- No reset event arrives in the environment's next `n` turns. -/
def Env.noReset (n : Nat) (e : Env) : Prop := ∀ j < n, (e.turnAt j).reset = false

/-- The ideal model (R144): no delay in the next `sleeps` sleeps, and in the next `n` turns no reset event. -/
def Env.ideal (n sleeps : Nat) (e : Env) : Prop := e.noReset n ∧ ∀ j < sleeps, e.latencyAt j = 0

/-- One second of the scheduler (R149, R150, R152): a tick accepted and evaluated, and if it fired the busy state left again. The answer
says whether it fired. -/
def second (s : State) : Option (Bool × State) :=
  match exec .schTick s with
  | .next a =>
    match exec .schEval a with
    | .next b =>
      if b.sphase = .sent then
        match exec .schDone b with
        | .next c => some (true, c)
        | _ => none
      else some (false, b)
    | _ => none
  | _ => none

/-- Which of `n` seconds fired, in order. -/
def seconds : Nat → State → Option (List Bool)
  | 0, _ => some []
  | n + 1, s =>
    match second s with
    | some (b, t) => (seconds n t).map (b :: ·)
    | none => none

/-- Whether a step from a state accepts a tick (R149). -/
def State.acceptsTick (s : State) : Bool := s.nextAction = .run .schTick ∧ s.env.tickReq ≠ 0

/-- How many ticks `n` steps accept (R149, R154). -/
def accepted : Nat → State → Nat
  | 0, _ => 0
  | n + 1, s =>
    match step s with
    | .next t => s.acceptsTick.toNat + accepted n t
    | _ => 0

/-- The numbers of the ticks that fire in `n` steps, in order (R150, R154), where `k` ticks were accepted before. -/
def firings (k : Nat) : Nat → State → List Nat
  | 0, _ => []
  | n + 1, s =>
    match step s with
    | .next t => (if s.nextAction = .run .schEval ∧ t.sphase = .sent then [k] else []) ++ firings (k + s.acceptsTick.toNat) n t
    | _ => []

/-! ### The sequencer's table (R158) -/

/-- The codes that may stand in `SEQ` after an operation (R158); `SCH_TICK` keeps its own code while it waits, which is a step in the model
(log 12). -/
def successors (kind : Kind) : Instr → List Byte
  | .reset => [0x02]
  | .validate => [0x03, 0xFF]
  | .drawRoll => [0x03, 0x40]
  | .schTick => [0x41, 0x40]
  | .schEval => [0x10, 0x40]
  | .fbClear => [0x11]
  | .fbHdr => [0x12]
  | .fbId => [0x13]
  | .fbRoll => [encode (Instr.sensOf kind)]
  | .fbSensUv | .fbSensWind | .fbSensTh | .fbSensRain => [0x20, 0xFF]
  | .ckSum => [0x21]
  | .ckCrc => [0x22]
  | .ckStore => [0x30]
  | .encStart => [0x31]
  | .encFirst => [0x32]
  | .encSecond => [0x31, 0x33]
  | .encEnd => [0x50, 0x42]
  | .dbgLog => [0x42]
  | .schDone => [0x40]

/-! ### Frames of single operations -/

/-- What a storing operation may change: the frame bytes at the given addresses, which it marks as written for the status view, and
`SEQ`. -/
def frameStored (s t : State) (code : Byte) (addrs : List Nat) : Prop :=
  t = { s with fb := t.fb, written := { s.written with fb := t.written.fb }, seq := code } ∧
  (∀ a, a ∉ addrs → t.fb.read a = s.fb.read a) ∧
  ∀ a, a ∈ t.written.fb ↔ a ∈ addrs ∨ a ∈ s.written.fb

/-- The byte addresses of the sensor nibbles a kind's fields and constants take (R109). -/
def sensorAddrs (kind : Kind) (enc : Encoder) : List Nat :=
  ((fieldsOf kind enc).flatMap fieldTakes ++ enc.consts.map ConstNibble.offset).map fun m => (sensorStart + m) / 2

/-- The byte addresses that a field's writes use, in their order: the digits, then the sign nibble (R110). -/
def fieldAddrs (f : FieldSpec) : List Nat :=
  ((match f.form with
    | .bin => [f.offset]
    | .bcd d order => (List.range d).map (digitPos order f.offset d)) ++ f.signAt.toList).map fun m => (sensorStart + m) / 2

/-- The byte addresses of a kind's constant nibbles, in their order (R115). -/
def constAddrs (enc : Encoder) : List Nat := enc.consts.map fun c => (sensorStart + c.offset) / 2

/-- The READING_RANGE detail of a value outside a field's domain: the sign before the magnitude (R173, R180). -/
def rangeDetail (f : FieldSpec) (v : Int) : Byte :=
  if f.signAt = none ∧ v < 0 then 0x03
  else match f.form with
    | .bin => 0x01
    | .bcd _ _ => 0x02

/-! ### The invariant -/

/-- A profile that VALIDATE passes (R92). -/
def validProfile (p : Profile) : Bool := (configCheck p).isNone

/-- The scheduler phase in which a code is performed (R149, R150, R153); none for the halted value. -/
def phaseOf (code : Byte) : Option SPhase :=
  if code = 0xFF then none
  else if code = 0x02 ∨ code = 0x03 ∨ code = 0x40 then some .idle
  else if code = 0x41 then some .pending
  else some .sent

/-- The line's level between two operations of an encode (R136, R139): LOW before the first bit, then the level of the phase last set. -/
def encodeLevel (s : State) : Level :=
  if s.seq = 0x31 then (if s.bitix = 0 then .low else secondLevel s.lastBit)
  else if s.seq = 0x32 then firstLevel s.lastBit
  else secondLevel s.lastBit

/-- The codes performed while a frame is on the line, after its `ENC_START` (R145). -/
def encoding (code : Byte) : Prop := code = 0x31 ∨ code = 0x32 ∨ code = 0x33

/-- The invariant of the block: what holds between any two steps after a reset. -/
structure State.Inv (s : State) : Prop where
  /-- The frame buffer's contents are in canonical form. -/
  canonical : s.fb.wf = true
  /-- No byte is listed outside the frame (R53). -/
  inFrame : s.fb.within s.cfg.l.toNat = true
  /-- `SEQ` holds 0xFF or the code of an operation that is legal under the kind; RESET's code is never left there (R76, R158). -/
  legal : s.seq = 0xFF ∨ ∃ i, decode s.seq = .ok i ∧ i.wellFormed s.cfg.kind = true ∧ i ≠ .reset
  /-- Halted is the same as `SEQ = 0xFF` (R177, R178). -/
  halted : s.fault.halted = true ↔ s.seq = 0xFF
  /-- Without a fault `FAULT` is 0 (R44). -/
  noFault : s.fault.halted = false → s.fault = FaultReg.clear
  /-- A fault is one of the two the block itself can raise, in the phase it is raised in (R171, R173, R177). -/
  faultCode : s.fault.halted = true →
    (s.fault.ecode = configError ∧ s.sphase = .idle) ∨ (s.fault.ecode = readingRange ∧ s.sphase = .sent)
  /-- The scheduler's phase is that of the operation to come (R153). -/
  phase : ∀ p, phaseOf s.seq = some p → s.sphase = p
  /-- Past VALIDATE the profile is valid and `ON_US` is its on-phase duration (R39). -/
  validated : s.seq ≠ 0x02 → s.seq ≠ 0xFF → validProfile s.cfg = true ∧ (s.onUs.toNat : Int) = onPhase s.cfg
  /-- Past the draw the rolling code is neither of the degenerate ones (R31). -/
  rolled : s.seq ≠ 0x02 → s.seq ≠ 0x03 → s.seq ≠ 0xFF → rollBad s.roll = false
  /-- In an encode the cursor lies in the bit stream; at ENC_END it is at its end (R41). -/
  cursor : (s.seq = 0x31 ∨ s.seq = 0x32 → s.bitix.toNat < 8 * s.cfg.l.toNat) ∧
    (s.seq = 0x33 → s.bitix.toNat = 8 * s.cfg.l.toNat)
  /-- Outside an encode the line is LOW (R139, R156, R178). -/
  lineLow : ¬ encoding s.seq → s.tx = .low
  /-- Within an encode the line has the level of the phase last set (R136). -/
  lineLevel : encoding s.seq → s.tx = encodeLevel s
  /-- The setpoints' times never decrease and none lies after the present (R144). -/
  traceTimes : s.trace.Pairwise (fun p q => p.time ≤ q.time) ∧ ∀ p ∈ s.trace, p.time ≤ s.env.now
  /-- The last setpoint is the line's level (R16). -/
  traceLevel : s.trace.getLast?.map Setpoint.level = some s.tx

end Sys2Proof.Machine
end

