-- ==== Sys2Proof/Certificates/Slice0/Obligations.lean ====
section
/-! DEFINITION. The statements for the provers. Each says which rule of spec/ it formalises; `exec` and `step` are the model's. -/

open Sys2Proof Sys2Proof.Machine

/-! ### Encoding and dispatch -/

/-- R73: the codes of the opcode map, written out bit by bit, decode to their operations, and every other code but 0xFF is reserved. -/
def Obligations.DecodeReadsTheOpcodeMap : Prop :=
  (decode 0b00000001#8 = .ok .reset ∧ decode 0b00000010#8 = .ok .validate ∧ decode 0b00000011#8 = .ok .drawRoll) ∧
  (decode 0b00010000#8 = .ok .fbClear ∧ decode 0b00010001#8 = .ok .fbHdr ∧ decode 0b00010010#8 = .ok .fbId ∧
    decode 0b00010011#8 = .ok .fbRoll ∧ decode 0b00010100#8 = .ok .fbSensUv ∧ decode 0b00010101#8 = .ok .fbSensWind ∧
    decode 0b00010110#8 = .ok .fbSensTh ∧ decode 0b00010111#8 = .ok .fbSensRain) ∧
  (decode 0b00100000#8 = .ok .ckSum ∧ decode 0b00100001#8 = .ok .ckCrc ∧ decode 0b00100010#8 = .ok .ckStore) ∧
  (decode 0b00110000#8 = .ok .encStart ∧ decode 0b00110001#8 = .ok .encFirst ∧ decode 0b00110010#8 = .ok .encSecond ∧
    decode 0b00110011#8 = .ok .encEnd) ∧
  (decode 0b01000000#8 = .ok .schTick ∧ decode 0b01000001#8 = .ok .schEval ∧ decode 0b01000010#8 = .ok .schDone) ∧
  decode 0b01010000#8 = .ok .dbgLog ∧
  ∀ c : Byte, c ≠ 0xFF → c ∉ [0x01, 0x02, 0x03, 0x10, 0x11, 0x12, 0x13, 0x14, 0x15, 0x16, 0x17, 0x20, 0x21, 0x22, 0x30, 0x31,
    0x32, 0x33, 0x40, 0x41, 0x42, 0x50] → decode c = .error (.reserved c)

/-- R73, R76: a code decodes to an operation exactly when it is that operation's code, 0xFF is no operation, and every other code is
reserved. -/
def Obligations.DecodeInvertsEncode : Prop :=
  (∀ (c : Byte) (i : Instr), decode c = .ok i ↔ c = encode i) ∧
  (∀ c : Byte, decode c = .error .halted ↔ c = 0xFF) ∧
  ∀ c d : Byte, decode c = .error (.reserved d) ↔ (d = c ∧ c ≠ 0xFF ∧ ∀ i, c ≠ encode i)

/-- R8, R43, R158: with no reset event pending, a step from a state whose `SEQ` holds an operation's code is that operation's `exec` and
then the environment's turn on its next state. R45, R159, R179, R205: a turn changes the input ports only; the turn's time passes after
every operation but those before an encoder wait, ticks arrive, the reset event may arrive, READING and BATT are what the turn says, and the next
turn is the one after it; draws and delays stay. The turn is the model's, log 6; so are the end of the clock's range, log 8, and that a
reset event before an encoder wait comes after the turn's time, log 7, and that time passes after ENC_END, log 31. -/
def Obligations.StepRunsTheDecodedOperation : Prop :=
  (∀ (s : State) (i : Instr), s.env.resetReq = false → decode s.seq = .ok i →
    step s = match exec i s with
      | .next u => .next (u.environment (decide (i ∉ [.encStart, .encFirst, .encSecond])))
      | .fault r => .fault r
      | .refused r => .refused r) ∧
  ∀ (u : State) (timed : Bool),
    let turn := u.env.turnAt 0
    let e := (u.environment timed).env
    u.environment timed = { u with env := e } ∧
    e = { u.env with
      now := e.now, tickReq := u.env.tickReq + turn.ticks, resetReq := u.env.resetReq || turn.reset, reading := turn.reading
      batt := turn.batt, turns := e.turns, turnIx := e.turnIx } ∧
    e.now.toNat = min (u.env.now.toNat + if timed = true ∨ turn.reset = true then turn.delay else 0) (2 ^ 64 - 1) ∧
    (∀ j, e.turnAt j = u.env.turnAt (j + 1)) ∧ (∀ j, e.rngAt j = u.env.rngAt j) ∧ ∀ j, e.latencyAt j = u.env.latencyAt j

/-- R82, R179, R180: a pending reset event makes the step RESET, whatever `SEQ` and `FAULT` hold, and RESET takes the event (how the event
pends and is taken is the model's, log 6 and log 19). -/
def Obligations.ResetEventTakesPriority : Prop :=
  ∀ s : State, s.env.resetReq = true →
    ∃ u, exec .reset s = .next u ∧ u.env.resetReq = false ∧ step s = .next (u.environment true)

/-- R76, R174: a step from a reserved code raises ILLEGAL_OP with the code as its detail (then the environment's turn, log 6). -/
def Obligations.ReservedCodeRaisesIllegalOp : Prop :=
  ∀ s : State, s.env.resetReq = false → s.seq ≠ 0xFF → (∀ i, s.seq ≠ encode i) →
    step s = .next ((raiseFault s 0x3 s.seq).environment true)

/-- R178: while halted, with no reset event, a step changes nothing but what the environment does to the input ports (log 12). -/
def Obligations.HaltedStepChangesNothing : Prop :=
  ∀ s : State, s.env.resetReq = false → s.seq = 0xFF → step s = .next { s with env := s.env.turned true }

/-- R75: a `FB_SENS_*` code of another kind raises ILLEGAL_OP with that code and does nothing else. -/
def Obligations.SensorCodeOfAnotherKindIsIllegal : Prop :=
  ∀ (s : State) (k : Kind), k ≠ s.cfg.kind → exec (Instr.sensOf k) s = .next (raiseFault s 0x3 (encode (Instr.sensOf k)))

/-! ### Lifecycle -/

/-- R83, R192: RESET's effect. The registers the rule leaves unspecified may hold anything; `trace` gains the reset's setpoint, the
configuration stays, and every input port but the ticks and the event keeps its value. The model's choices in it: that the trace and the
debug records are histories which RESET keeps (log 24), and that the outstanding ticks it discards (R192) are those held when it runs, the
reset event's own turn included (log 19). -/
def Obligations.ResetEffect : Prop :=
  ∀ s : State, ∃ t, exec .reset s = .next t ∧
    t.fault = FaultReg.clear ∧ t.elapsed = 0 ∧ t.sphase = .idle ∧ t.tx = .low ∧ t.seq = 0x02 ∧ t.cfg = s.cfg ∧
    t.trace = s.trace ++ [{ time := s.env.now, level := .low }] ∧ t.log = s.log ∧ t.written = Written.none ∧
    t.env = { s.env with tickReq := 0, resetReq := t.env.resetReq }

/-- R189: the values the spec gives for the state after reset. -/
def Obligations.ResetStateValues : Prop :=
  State.reset.elapsed = 0 ∧ State.reset.sphase = .idle ∧ State.reset.tx = .low ∧ State.reset.seq = 0x02 ∧
  State.reset.fault = FaultReg.clear ∧ State.reset.fault.word = 0 ∧ State.reset.status = 0x0000 ∧ State.reset.env.tickReq = 0

/-- R92, with the checks of R85 to R91: VALIDATE raises CONFIG_ERROR with the number of the first check that fails, and if none fails it
writes `ON_US`, goes to DRAW_ROLL and changes nothing else. -/
def Obligations.ValidateEffect : Prop :=
  ∀ s : State,
    let k := s.cfg.k.toNat
    let l := s.cfg.l.toNat
    let t : Int := (488 * s.cfg.fnum.toNat / s.cfg.fden.toNat : Nat) - (s.cfg.shorten.toNat : Int)
    let c1 := 8 ≤ k
    let c2 := k = 8 + s.cfg.enc.nibbles
    let c3 := 7 + k + 4 ≤ 2 * l
    let c4 := 2 * l ≤ 7 + k + 5
    let c5 := s.cfg.interval ≠ 0
    let c6 := s.cfg.fden ≠ 0
    let c7 := 1 ≤ t ∧ t ≤ 975
    let c8 := layoutOk s.cfg.kind s.cfg.enc = true
    let fails (d : Byte) := exec .validate s = .next (raiseFault s 0x1 d)
    (¬c1 → fails 0x01) ∧ (c1 → ¬c2 → fails 0x02) ∧ (c1 → c2 → ¬c3 → fails 0x03) ∧ (c1 → c2 → c3 → ¬c4 → fails 0x04) ∧
    (c1 → c2 → c3 → c4 → ¬c5 → fails 0x05) ∧ (c1 → c2 → c3 → c4 → c5 → ¬c6 → fails 0x06) ∧
    (c1 → c2 → c3 → c4 → c5 → c6 → ¬c7 → fails 0x07) ∧
    (c1 → c2 → c3 → c4 → c5 → c6 → c7 → ¬c8 → fails 0x08) ∧
    ∀ on : Nat, (on : Int) = t → c1 → c2 → c3 → c4 → c5 → c6 → c7 → c8 →
      exec .validate s = .next { s with
        onUs := BitVec.ofNat 16 on, written := { s.written with onUs := true }, seq := 0x03 }

/-- R93: the frames VALIDATE admits have `CFG_L = ceil((7 + CFG_K) / 2) + 2`, and such a length passes its two length checks; the known
lengths 12 to 15 admit the values of `CFG_K` that the rule tabulates. -/
def Obligations.ValidProfileFixesTheLength : Prop :=
  ∀ p : Profile,
    let k := p.k.toNat
    let l := p.l.toNat
    (validProfile p = true → l = (7 + k + 1) / 2 + 2 ∧ (l = 12 → k = 12 ∨ k = 13) ∧ (l = 13 → k = 14 ∨ k = 15) ∧
      (l = 14 → k = 16 ∨ k = 17) ∧ (l = 15 → k = 18 ∨ k = 19)) ∧
    (l = (7 + k + 1) / 2 + 2 → configCheck p ≠ some 0x03 ∧ configCheck p ≠ some 0x04)

/-- R94, R175: DRAW_ROLL takes one draw; a degenerate one is drawn again with nothing written, any other becomes the rolling code. Taking a
draw moves the sequence of draws (R12) on by one and no other input. -/
def Obligations.DrawRollAcceptsOrRepeats : Prop :=
  ∀ s : State, ∀ r, r = s.env.rngAt 0 →
    ((r = 0x00 ∨ r = 0xFF) → exec .drawRoll s = .next { s with env := s.env.rngTaken, seq := 0x03 }) ∧
    (r ≠ 0x00 → r ≠ 0xFF → exec .drawRoll s = .next { s with
      env := s.env.rngTaken, roll := r, written := { s.written with roll := true }, seq := 0x40 }) ∧
    (∀ j, s.env.rngTaken.rngAt j = s.env.rngAt (j + 1)) ∧
    s.env.rngTaken = { s.env with rng := s.env.rngTaken.rng, rngIx := s.env.rngTaken.rngIx }

/-! ### FrameBuilder -/

/-- R101: FB_CLEAR zeroes every byte of the frame, which the status view then shows (R50), and changes nothing else. -/
def Obligations.FbClearEffect : Prop :=
  ∀ s : State, ∃ t, exec .fbClear s = .next t ∧ frameStored s t 0x11 (List.range s.cfg.l.toNat) ∧
    ∀ k < s.cfg.l.toNat, t.fb.read k = 0x00 ∧ viewRead t (0x20 + k) = .ok 0

/-- R102: FB_HDR writes the preamble and the sync nibble and changes nothing else. -/
def Obligations.FbHdrEffect : Prop :=
  ∀ s : State, 4 ≤ s.cfg.l.toNat → ∃ t, exec .fbHdr s = .next t ∧ frameStored s t 0x12 [0, 1, 2, 3] ∧
    t.fb.read 0 = 0xFF ∧ t.fb.read 1 = 0xFF ∧ t.fb.read 2 = 0xFF ∧ t.fb.nib 6 = 0xA ∧ t.fb.nib 7 = s.fb.nib 7

/-- R103, R104, R105: FB_ID writes the sensor id's nibbles, first nibble first, and the channel clamped to 15, and changes nothing else. -/
def Obligations.FbIdEffect : Prop :=
  ∀ s : State, 6 ≤ s.cfg.l.toNat → ∃ t, exec .fbId s = .next t ∧ frameStored s t 0x13 [3, 4, 5] ∧
    t.fb.nib 6 = s.fb.nib 6 ∧
    (∀ j < 4, (t.fb.nib (7 + j)).toNat = s.cfg.sensorId.toNat / 16 ^ (3 - j) % 16) ∧
    (t.fb.nib 11).toNat = min s.cfg.channel.toNat 15

/-- R106, R107: FB_ROLL writes the rolling code verbatim and the battery nibble, and goes to the kind's `FB_SENS_*`. -/
def Obligations.FbRollEffect : Prop :=
  ∀ s : State, 8 ≤ s.cfg.l.toNat → ∃ t, exec .fbRoll s = .next t ∧
    frameStored s t (encode (Instr.sensOf s.cfg.kind)) [6, 7] ∧
    t.fb.read 6 = s.roll ∧ t.fb.nib 14 = (if s.snapBatt then 0x8 else 0x0) ∧ t.fb.nib 15 = s.fb.nib 15

/-- R111: FB_SENS_UV puts a UV index of 0 to 15 in binary at sensor nibble 0, the constants at theirs, and leaves every other nibble; an
index above 15 or below 0 raises READING_RANGE. -/
def Obligations.FbSensUvEffect : Prop :=
  ∀ s : State, validProfile s.cfg = true → s.cfg.kind = .uv →
    (0 ≤ s.snapRd.uv → s.snapRd.uv ≤ 15 →
      ∃ t, exec .fbSensUv s = .next t ∧ frameStored s t 0x20 (sensorAddrs .uv s.cfg.enc) ∧
        ((t.fb.nib 15).toNat : Int) = s.snapRd.uv ∧
        (∀ c ∈ s.cfg.enc.consts, t.fb.nib (15 + c.offset) = c.value) ∧
        ∀ i, i ≠ 15 → (∀ c ∈ s.cfg.enc.consts, i ≠ 15 + c.offset) → t.fb.nib i = s.fb.nib i) ∧
    (15 < s.snapRd.uv → exec .fbSensUv s = .next (raiseFault s 0x2 0x01)) ∧
    (s.snapRd.uv < 0 → exec .fbSensUv s = .next (raiseFault s 0x2 0x03))

/-- R108 to R115: with a valid profile and a reading in its domain, the kind's operation among FB_SENS_UV, FB_SENS_WIND, FB_SENS_TH and
FB_SENS_RAIN puts at each sensor nibble what the kind's fields and constants say, by the closed form `sensorNib`, and leaves every other
nibble and register. -/
def Obligations.FbSensEffect : Prop :=
  ∀ s : State, validProfile s.cfg = true → readingFits s.cfg.kind s.cfg.enc s.snapRd = true →
    ∃ t, exec (Instr.sensOf s.cfg.kind) s = .next t ∧ frameStored s t 0x20 (sensorAddrs s.cfg.kind s.cfg.enc) ∧
      ∀ i, t.fb.nib i =
        if 15 ≤ i then (sensorNib s.cfg.kind s.cfg.enc s.snapRd (i - 15)).getD (s.fb.nib i) else s.fb.nib i

/-- R110, R117, R173, R177, R180: with a valid profile, the first field whose value is out of its domain makes the kind's `FB_SENS_*`
raise READING_RANGE with that field's detail, and nothing is written to the frame. -/
def Obligations.FbSensRaisesReadingRange : Prop :=
  ∀ (s : State) (before after : List FieldSpec) (f : FieldSpec), validProfile s.cfg = true →
    fieldsOf s.cfg.kind s.cfg.enc = before ++ f :: after →
    (∀ g ∈ before, fieldFits g (readField s.snapRd g.input) = true) → fieldFits f (readField s.snapRd f.input) = false →
    exec (Instr.sensOf s.cfg.kind) s = .next (raiseFault s 0x2 (rangeDetail f (readField s.snapRd f.input))) ∧
    (raiseFault s 0x2 (rangeDetail f (readField s.snapRd f.input))).fb = s.fb

/-- R120: the build and checksum operations read no environment input: on two states that differ in the input ports alone they answer
states that differ in the input ports alone. -/
def Obligations.BuildReadsNoInput : Prop :=
  ∀ (s t : State) (e : Env) (i : Instr), i ∈ buildOps s.cfg.kind ++ checksumOps → s.tx = .low → exec i s = .next t →
    exec i { s with env := e } = .next { t with env := e }

/-! ### Checksums -/

/-- R122, R123: CK_SUM writes the sum of the range's nibbles modulo 256, for either parity of `CFG_K`, and changes nothing else. -/
def Obligations.CkSumIsTheRangeSum : Prop :=
  ∀ s : State, 1 ≤ s.cfg.k.toNat → (6 + s.cfg.k.toNat) / 2 < s.cfg.l.toNat →
    exec .ckSum s = .next { s with
      sum := BitVec.ofNat 8 (((List.range s.cfg.k.toNat).map fun j => (s.fb.nib (7 + j)).toNat).sum % 256)
      written := { s.written with sum := true }, seq := 0x21 }

/-- R124, R125: CK_CRC writes the CRC-8 of the range's nibbles and changes nothing else. -/
def Obligations.CkCrcIsTheRangeCrc : Prop :=
  ∀ s : State, (∀ j < s.cfg.k.toNat, (7 + j) / 2 < s.cfg.l.toNat) →
    exec .ckCrc s = .next { s with
      crc := ((List.range s.cfg.k.toNat).map fun j => s.fb.nib (7 + j)).foldl crcStep 0x00
      written := { s.written with crc := true }, seq := 0x22 }

/-- R58, R127: CK_STORE puts the checksums at nibbles P to P + 3, low nibbles first, and changes nothing else. -/
def Obligations.CkStoreEffect : Prop :=
  ∀ s : State, (s.cfg.k.toNat + 10) / 2 < s.cfg.l.toNat →
    let p := 7 + s.cfg.k.toNat
    ∃ t, exec .ckStore s = .next t ∧ frameStored s t 0x30 [p / 2, (p + 1) / 2, (p + 2) / 2, (p + 3) / 2] ∧
      ∀ i, t.fb.nib i =
        if i = p then loNib s.sum else if i = p + 1 then hiNib s.sum
        else if i = p + 2 then loNib s.crc else if i = p + 3 then hiNib s.crc else s.fb.nib i

/-- R126: the table form and the low-nibble form with its trailing step give the CRC of every list of nibbles; without that step the
low-nibble form gives 0x10 for the byte 0x01. -/
def Obligations.CrcFormsAgree : Prop :=
  (∀ ns : List Nibble, crcByTable 0x00 ns = crcOf ns ∧ crcLowForm ns = crcOf ns) ∧
  [0, 1].foldl crcLowStep 0x00 = 0x10 ∧ crcOf [0, 1] = 0x07

/-- R129: entry `b` of the table is the CRC of the two nibbles of the byte `b`, and the low-nibble form agrees. -/
def Obligations.CrcTableIsTheByteCrc : Prop :=
  crcTable.length = 256 ∧ crcEntry 0x00 = 0x00 ∧ crcEntry 0x01 = 0x07 ∧
  ∀ b : Byte, crcEntry b = crcOf [hiNib b, loNib b] ∧ crcEntry b = crcLowForm [hiNib b, loNib b]

/-- R131: the additive checksum does not depend on the order of the nibbles; the CRC is linear over ranges of equal length and does
depend on the order. -/
def Obligations.ChecksumLaws : Prop :=
  (∀ ns ms : List Nibble, ns.Perm ms → sumOf ns = sumOf ms) ∧
  (∀ ns ms : List Nibble, ns.length = ms.length → crcOf (List.zipWith (· ^^^ ·) ns ms) = crcOf ns ^^^ crcOf ms) ∧
  ∃ ns ms : List Nibble, ns.Perm ms ∧ crcOf ns ≠ crcOf ms

/-- R132: changing any one nibble of a range changes its CRC. -/
def Obligations.CrcSeesEverySingleNibble : Prop :=
  ∀ (ns ms : List Nibble) (a b : Nibble), a ≠ b → crcOf (ns ++ a :: ms) ≠ crcOf (ns ++ b :: ms)

/-- R118: changing only the reading changes only the sensor nibbles its fields take and the four checksum nibbles; and two different UV
indices give frames whose measurement nibbles, sums and CRCs all differ. -/
def Obligations.ReadingChangesOnlyItsNibbles : Prop :=
  ∀ (p : Profile) (roll : Byte) (batt : Bool) (rd rd' : Reading),
    (∀ i, (∀ f ∈ fieldsOf p.kind p.enc, ∀ m ∈ fieldTakes f, i ≠ 15 + m) → (i < 7 + p.k.toNat ∨ 7 + p.k.toNat + 4 ≤ i) →
      frameNib p roll batt rd i = frameNib p roll batt rd' i) ∧
    (validProfile p = true → p.kind = .uv → 0 ≤ rd.uv → rd.uv ≤ 15 → 0 ≤ rd'.uv → rd'.uv ≤ 15 → rd.uv ≠ rd'.uv →
      frameNib p roll batt rd 15 ≠ frameNib p roll batt rd' 15 ∧
      sumOf (bodyRange p roll batt rd) ≠ sumOf (bodyRange p roll batt rd') ∧
      crcOf (bodyRange p roll batt rd) ≠ crcOf (bodyRange p roll batt rd'))

/-- R98, R99, R119: eight steps from FB_CLEAR, with a valid profile, a snapshot in its domain and no reset event, leave the frame
`frameOf` and the sequencer at ENC_START, whatever the buffer held and whatever else the environment does. -/
def Obligations.BuildAndChecksumGiveFrameOf : Prop :=
  ∀ s : State, s.seq = 0x10 → validProfile s.cfg = true → readingFits s.cfg.kind s.cfg.enc s.snapRd = true →
    s.env.resetReq = false → s.env.noReset 8 →
    ∃ t, steps 8 s = .next t ∧ t.fb.bytes s.cfg.l.toNat = frameOf s.cfg s.roll s.snapBatt s.snapRd ∧
      t.seq = 0x30 ∧ t.tx = s.tx ∧ t.trace = s.trace ∧ t.sphase = s.sphase

/-! ### Line encoder -/

/-- R140: ENC_START's effect. -/
def Obligations.EncStartEffect : Prop :=
  ∀ s : State, exec .encStart s = .next { s with
    tx := .low, trace := s.trace ++ [{ time := s.env.now, level := .low }], dl := s.env.now, bitix := 0
    written := { s.written with dl := true, bitix := true }, seq := 0x31 }

/-- R136, R141: ENC_FIRST sleeps until the deadline and sets the level of the cursor's bit, and changes nothing else. -/
def Obligations.EncFirstEffect : Prop :=
  ∀ s : State, s.bitix.toNat < 8 * s.cfg.l.toNat → ∀ b, (frameBits (s.fb.bytes s.cfg.l.toNat))[s.bitix.toNat]? = some b →
    exec .encFirst s = .next { s with
      env := s.env.slept s.dl, tx := if b then .high else .low
      trace := s.trace ++ [{ time := (s.env.slept s.dl).now, level := if b then .high else .low }], lastBit := b, seq := 0x32 }

/-- R137, R138, R142: ENC_SECOND sleeps until the transition point, sets the opposite level and moves the deadline by one bit period and
the cursor by one; where a sum does not fit its register, that register's value is the model's free value (log 9) and the rest still
happens. -/
def Obligations.EncSecondEffect : Prop :=
  ∀ s : State, ∃ target dl bitix,
    (s.dl.toNat + s.onUs.toNat < 2 ^ 64 → target.toNat = s.dl.toNat + s.onUs.toNat) ∧
    (s.dl.toNat + 976 < 2 ^ 64 → dl.toNat = s.dl.toNat + 976) ∧
    (s.bitix.toNat + 1 < 2 ^ 16 → bitix.toNat = s.bitix.toNat + 1) ∧
    exec .encSecond s = .next { s with
      env := s.env.slept target, tx := if s.lastBit then .low else .high
      trace := s.trace ++ [{ time := (s.env.slept target).now, level := if s.lastBit then .low else .high }]
      dl := dl, bitix := bitix, written := { s.written with dl := true, bitix := true }
      seq := if bitix.toNat = 8 * s.cfg.l.toNat then 0x33 else 0x31 }

/-- R143: ENC_END sleeps until the deadline, after a final 1 a half period more, forces the line LOW and goes to DBG_LOG if LOG_PRESENT,
else to SCH_DONE; a deadline sum that does not fit 64 bits is the model's free value (log 9). -/
def Obligations.EncEndEffect : Prop :=
  ∀ s : State, ∃ target,
    (s.dl.toNat + 488 < 2 ^ 64 → target.toNat = s.dl.toNat + 488) ∧
    exec .encEnd s = .next { s with
      env := if s.lastBit then (s.env.slept s.dl).slept target else s.env.slept s.dl
      tx := .low
      trace := s.trace ++
        [{ time := if s.lastBit then ((s.env.slept s.dl).slept target).now else (s.env.slept s.dl).now, level := .low }]
      seq := if s.cfg.logPresent then 0x50 else 0x42 }

/-- R16, R144: a sleep ends at `max(now, t) + δ`, δ the next draw of LATENCY, so never before its target; at the end of the clock's range
it ends at its last value (the model's choice, log 8). It takes one draw and moves no other input. -/
def Obligations.SleepEndsAtTheDeadlinePlusDelay : Prop :=
  ∀ (e : Env) (t : Time),
    (e.slept t).now.toNat = min (max e.now.toNat t.toNat + e.latencyAt 0) (2 ^ 64 - 1) ∧
    t.toNat ≤ (e.slept t).now.toNat ∧ e.now.toNat ≤ (e.slept t).now.toNat ∧
    (∀ j, (e.slept t).latencyAt j = e.latencyAt (j + 1)) ∧ (∀ j, (e.slept t).turnAt j = e.turnAt j) ∧
    (∀ j, (e.slept t).rngAt j = e.rngAt j) ∧ (e.slept t).tickReq = e.tickReq ∧ (e.slept t).resetReq = e.resetReq ∧
    (e.slept t).reading = e.reading ∧ (e.slept t).batt = e.batt

/-- R60: the frame's bit stream has `8 * l` bits, and bit `j` of it is the bit the encoder's cursor reads: of the byte `j / 8` the bits
4, 5, 6, 7, 0, 1, 2, 3 in turn. -/
def Obligations.CursorReadsTheBitStream : Prop :=
  ∀ (m : Memory) (l : Nat), (frameBits (m.bytes l)).length = 8 * l ∧
    ∀ j < 8 * l, (frameBits (m.bytes l))[j]? = some (m.lineBit j) ∧
      m.lineBit j = (m.read (j / 8)).getLsbD ((j % 8 + 4) % 8)

/-- R138: whatever the delays, after bit `j` of a frame the deadline is the start time plus `976 * j` and the cursor is `j`. -/
def Obligations.DeadlinesStayOnTheGrid : Prop :=
  ∀ (s : State) (j : Nat), s.seq = 0x30 → 1 ≤ s.cfg.l.toNat → j ≤ 8 * s.cfg.l.toNat →
    s.env.resetReq = false → s.env.noReset (1 + 2 * j) → s.env.now.toNat + 976 * j < 2 ^ 64 →
    ∃ t, steps (1 + 2 * j) s = .next t ∧ t.dl.toNat = s.env.now.toNat + 976 * j ∧ t.bitix.toNat = j ∧ t.fb = s.fb ∧
      t.seq = if j = 8 * s.cfg.l.toNat then 0x33 else 0x31

/-- R146: in the ideal model the encode of a frame puts exactly `wave(FB, t0)` on the line, and takes 976 microseconds a bit and 488 more
after a final 1, at the end of ENC_END, whatever processing times the turns hold; the turn after ENC_END moves the input ports only. -/
def Obligations.EncodePutsTheWaveformOnTheLine : Prop :=
  ∀ s : State, s.seq = 0x30 → 1 ≤ s.cfg.l.toNat → 1 ≤ s.onUs.toNat → s.onUs.toNat ≤ 975 →
    s.env.resetReq = false → s.env.ideal (2 + 16 * s.cfg.l.toNat) (2 + 16 * s.cfg.l.toNat) →
    s.env.now.toNat + 976 * (8 * s.cfg.l.toNat) + 488 < 2 ^ 64 →
    ∃ u v t, steps (1 + 16 * s.cfg.l.toNat) s = .next u ∧ exec .encEnd u = .next v ∧
      steps (2 + 16 * s.cfg.l.toNat) s = .next t ∧ t = { v with env := t.env } ∧
      setpoints t.trace =
        setpoints s.trace ++ wave (frameBits (s.fb.bytes s.cfg.l.toNat)) s.env.now.toNat s.onUs.toNat ∧
      v.env.now.toNat = s.env.now.toNat + 976 * (8 * s.cfg.l.toNat) +
        (if (frameBits (s.fb.bytes s.cfg.l.toNat)).getLast? = some true then 488 else 0) ∧
      t.tx = .low ∧ t.fb = s.fb ∧ t.seq = if s.cfg.logPresent then 0x50 else 0x42

/-- R148: sampling the ideal waveform of any byte sequence in the first phase of each bit, and regrouping the bits, gives the bytes back. -/
def Obligations.ReceiverRecoversEveryByte : Prop :=
  ∀ (bs : List Byte) (t0 on : Nat), 1 ≤ on → on ≤ 975 →
    bytesOfBits (sampled (wave (frameBits bs) t0 on) t0 on (8 * bs.length)) = bs

/-! ### Scheduler -/

/-- R149: SCH_TICK consumes one outstanding tick, counts it and sets the pending flag; with none outstanding it waits and changes
nothing (that a wait is a step which changes nothing is the model's, log 12). -/
def Obligations.SchTickEffect : Prop :=
  ∀ s : State,
    (∀ n, s.env.tickReq = n + 1 → exec .schTick s = .next { s with
      env := { s.env with tickReq := n }, elapsed := BitVec.ofNat 32 ((s.elapsed.toNat + 1) % 2 ^ 32), sphase := .pending
      seq := 0x41 }) ∧
    (s.env.tickReq = 0 → exec .schTick s = .next s)

/-- R150: SCH_EVAL fires exactly when the interval divides the elapsed seconds; for the interval 0, which VALIDATE never passes, it does
one or the other (log 10). -/
def Obligations.SchEvalFiresOnMultiples : Prop :=
  ∀ s : State,
    let fired : State := { s with snapRd := s.env.reading, snapBatt := s.env.batt, sphase := .sent, seq := 0x10 }
    let idle : State := { s with sphase := .idle, seq := 0x40 }
    (s.cfg.interval ≠ 0 → s.elapsed.toNat % s.cfg.interval.toNat = 0 → exec .schEval s = .next fired) ∧
    (s.cfg.interval ≠ 0 → s.elapsed.toNat % s.cfg.interval.toNat ≠ 0 → exec .schEval s = .next idle) ∧
    (exec .schEval s = .next fired ∨ exec .schEval s = .next idle)

/-- R152: SCH_DONE leaves the busy state. -/
def Obligations.SchDoneEffect : Prop :=
  ∀ s : State, exec .schDone s = .next { s with sphase := .idle, seq := 0x40 }

/-- R155: the tick that wraps `ELAPSED` from its last value to 0 fires, for every interval but 0. -/
def Obligations.WrappingTickFires : Prop :=
  ∀ s : State, s.elapsed = 0xFFFFFFFF → s.cfg.interval ≠ 0 → 1 ≤ s.env.tickReq →
    ∃ t, exec .schTick s = .next t ∧ t.elapsed = 0 ∧
      exec .schEval t = .next { t with snapRd := t.env.reading, snapBatt := t.env.batt, sphase := .sent, seq := 0x10 }

/-- R149, R150, R154: a step changes `ELAPSED` only by accepting a tick, which adds one, and by RESET, and a SCH_EVAL step goes to SENT
exactly if the interval divides `ELAPSED`. Over any run of steps from `ELAPSED = 0` with no reset event, the ticks that fire are exactly the
multiples of the interval among those evaluated, so `floor(T / I)` of `T`: all that were accepted, or all but the last while its SCH_EVAL is
still to come. And `n` seconds of `exec` alone, the transmission left out, fire exactly at the multiples. When ticks arrive is the
environment's turn (log 6), and a wait is a step (log 12). -/
def Obligations.FiringsAreTheMultiples : Prop :=
  (∀ s t : State, step s = .next t →
    t.elapsed = (if s.nextAction = .run .reset then 0
      else if s.nextAction = .run .schTick ∧ s.env.tickReq ≠ 0 then s.elapsed + 1 else s.elapsed) ∧
    (s.nextAction = .run .schEval → s.cfg.interval ≠ 0 →
      (t.sphase = .sent ↔ s.elapsed.toNat % s.cfg.interval.toNat = 0))) ∧
  (∀ (s t : State) (n : Nat), s.cfg.interval ≠ 0 → s.elapsed = 0 → s.seq ≠ 0x41 → s.env.resetReq = false → s.env.noReset n →
    steps n s = .next t → accepted n s < 2 ^ 32 →
    t.elapsed.toNat = accepted n s ∧
    ∀ T, T = (if t.seq = 0x41 then accepted n s - 1 else accepted n s) →
      firings 0 n s = ((List.range T).map (· + 1)).filter (fun j => decide (j % s.cfg.interval.toNat = 0)) ∧
      (firings 0 n s).length = T / s.cfg.interval.toNat) ∧
  ∀ (s : State) (n : Nat), s.cfg.interval ≠ 0 → s.elapsed = 0 → n < 2 ^ 32 → n ≤ s.env.tickReq →
    ∃ fired, seconds n s = some fired ∧
      fired = (List.range n).map (fun j => decide ((j + 1) % s.cfg.interval.toNat = 0)) ∧
      fired.count true = n / s.cfg.interval.toNat

/-- R159: over a step no tick is lost or counted twice: the outstanding ticks are those before and those that arrived, less one exactly
if the step was a SCH_TICK that had one; RESET discards those outstanding before it. The model's choices in it: when ticks arrive (log 6),
that RESET discards those of the reset event's own turn too (log 19), and that a SCH_TICK without a tick is a step (log 12). -/
def Obligations.TicksAreConserved : Prop :=
  ∀ s t : State, step s = .next t →
    t.env.tickReq = (s.env.turnAt 0).ticks +
      (if s.nextAction = .run .reset then 0
       else if s.nextAction = .run .schTick then s.env.tickReq - 1 else s.env.tickReq)

/-- R153: the scheduler's transitions are exactly IDLE to PENDING by SCH_TICK, PENDING to SENT or IDLE by SCH_EVAL, SENT to IDLE by
SCH_DONE, and any to IDLE by RESET. -/
def Obligations.SchedulerTransitions : Prop :=
  ∀ s t : State, s.Inv → step s = .next t → t.sphase ≠ s.sphase →
    (s.sphase = .idle ∧ t.sphase = .pending ∧ s.nextAction = .run .schTick) ∨
    (s.sphase = .pending ∧ t.sphase = .sent ∧ s.nextAction = .run .schEval) ∨
    (s.sphase = .pending ∧ t.sphase = .idle ∧ s.nextAction = .run .schEval) ∨
    (s.sphase = .sent ∧ t.sphase = .idle ∧ s.nextAction = .run .schDone) ∨
    (t.sphase = .idle ∧ s.nextAction = .run .reset)

/-! ### Debug sink, faults, status view -/

/-- R163, R168: DBG_LOG hands over the time and the rendered bytes; R162: without a sink no record exists. -/
def Obligations.DbgLogEffect : Prop :=
  ∀ s : State,
    (s.cfg.logPresent = true → exec .dbgLog s = .next { s with
      log := s.log ++ [{ stamp := s.env.now, bytes := render (s.fb.bytes s.cfg.l.toNat) }], seq := 0x42 }) ∧
    (s.cfg.logPresent = false → exec .dbgLog s = .next { s with seq := 0x42 })

/-- R163: `l` bytes, at least one, render as `3 * l - 1` characters: two upper-case hexadecimal digits a byte, one space between. -/
def Obligations.RenderingShape : Prop :=
  ∀ bs : List Byte, bs ≠ [] → (render bs).length = 3 * bs.length - 1 ∧
    (∀ k b, bs[k]? = some b →
      (renderChars bs)[3 * k]? = "0123456789ABCDEF".toList[b.toNat / 16]? ∧
      (renderChars bs)[3 * k + 1]? = "0123456789ABCDEF".toList[b.toNat % 16]?) ∧
    ∀ k, k + 1 < bs.length → (renderChars bs)[3 * k + 2]? = some ' '

/-- R177: fault entry writes FAULT, forces the line LOW with a setpoint only if it was HIGH, halts the sequencer, and changes nothing
else; and an operation other than RESET that changes FAULT does nothing but fault entry: its own writes are discarded. -/
def Obligations.FaultEntryEffect : Prop :=
  (∀ (s : State) (code : BitVec 4) (detail : BitVec 8),
    raiseFault s code detail = { s with
      fault := { halted := true, ecode := code, edetail := detail }, tx := .low, seq := 0xFF
      trace := s.trace ++ (if s.tx = .high then [{ time := s.env.now, level := .low }] else []) }) ∧
  ∀ (i : Instr) (s t : State), i ≠ .reset → exec i s = .next t → t.fault ≠ s.fault →
    ∃ code detail, t = raiseFault s code detail

/-- R50: the status view number by number: what each register reads as, refused before its first write where the reset leaves it
unspecified; the frame bytes; every other number refused; and every write refused. -/
def Obligations.StatusViewIsTheTable : Prop :=
  ∀ s : State,
    (∃ v, viewRead s 0x00 = .ok v ∧ v.toNat = s.fault.halted.toNat + 2 * (decide (s.sphase = .sent)).toNat +
      4 * (decide (s.sphase = .pending)).toNat + 8 * (decide (s.tx = .high)).toNat + 16 * s.fault.ecode.toNat +
      256 * s.fault.edetail.toNat) ∧
    viewRead s 0x01 = .ok s.elapsed ∧ viewRead s 0x03 = .ok (s.seq.setWidth 32) ∧
    viewRead s 0x02 = (if s.written.roll then .ok (s.roll.setWidth 32) else .error (.viewUnwritten 0x02)) ∧
    viewRead s 0x04 = (if s.written.dl then .ok (BitVec.ofNat 32 (s.dl.toNat % 2 ^ 32)) else .error (.viewUnwritten 0x04)) ∧
    viewRead s 0x05 = (if s.written.dl then .ok (BitVec.ofNat 32 (s.dl.toNat / 2 ^ 32)) else .error (.viewUnwritten 0x05)) ∧
    viewRead s 0x06 = (if s.written.bitix then .ok (s.bitix.setWidth 32) else .error (.viewUnwritten 0x06)) ∧
    viewRead s 0x07 = (if s.written.onUs then .ok (s.onUs.setWidth 32) else .error (.viewUnwritten 0x07)) ∧
    (s.written.sum = true → s.written.crc = true → viewRead s 0x08 = .ok (BitVec.ofNat 32 (256 * s.sum.toNat + s.crc.toNat))) ∧
    (s.written.sum = false → s.written.crc = false → viewRead s 0x08 = .error (.viewUnwritten 0x08)) ∧
    viewRead s 0x10 = .ok (match s.cfg.kind with | .uv => 0 | .wind => 1 | .th => 2 | .rain => 3) ∧
    viewRead s 0x11 = .ok (s.cfg.sensorId.setWidth 32) ∧ viewRead s 0x12 = .ok (s.cfg.channel.setWidth 32) ∧
    viewRead s 0x13 = .ok (s.cfg.k.setWidth 32) ∧ viewRead s 0x14 = .ok (s.cfg.l.setWidth 32) ∧
    viewRead s 0x15 = .ok (s.cfg.interval.setWidth 32) ∧ viewRead s 0x16 = .ok (s.cfg.fnum.setWidth 32) ∧
    viewRead s 0x17 = .ok (s.cfg.fden.setWidth 32) ∧ viewRead s 0x18 = .ok (s.cfg.shorten.setWidth 32) ∧
    (∀ k < s.cfg.l.toNat, viewRead s (0x20 + k) =
      if k ∈ s.written.fb then .ok ((s.fb.read k).setWidth 32) else .error (.viewUnwritten (0x20 + k))) ∧
    (∀ k, s.cfg.l.toNat ≤ k → viewRead s (0x20 + k) = .error (.viewNumber (0x20 + k))) ∧
    (∀ no, (0x09 ≤ no ∧ no ≤ 0x0F) ∨ (0x19 ≤ no ∧ no ≤ 0x1F) → viewRead s no = .error (.viewNumber no)) ∧
    ∀ no v, viewWrite s no v = .error (.viewWrite no)

/-- R53, U18: an operation whose rule addresses a byte outside the frame, which a model "refuses", stops there with nothing done: FB_HDR,
FB_ID, FB_ROLL, CK_SUM, CK_CRC, CK_STORE, ENC_FIRST, and the kind's FB_SENS_UV, FB_SENS_WIND, FB_SENS_TH or FB_SENS_RAIN in a field once the
fields up to it are in their domains, or in a constant once all are (the stop is the model's, log 11, and its order, log 27; so are what CK_SUM
reads with `CFG_K = 0`, log 16, and that FB_SENS_ minds no bound by `CFG_K`, log 30). -/
def Obligations.AddressOutsideTheFrameStops : Prop :=
  ∀ s : State,
    (s.cfg.l.toNat < 4 → exec .fbHdr s = .fault (.noFrameByte s.cfg.l.toNat)) ∧
    (s.cfg.l.toNat < 6 → exec .fbId s = .fault (.noFrameByte (max 3 s.cfg.l.toNat))) ∧
    (s.cfg.l.toNat < 8 → exec .fbRoll s = .fault (.noFrameByte (max 6 s.cfg.l.toNat))) ∧
    (8 * s.cfg.l.toNat ≤ s.bitix.toNat → exec .encFirst s = .fault (.noFrameByte (s.bitix.toNat / 8))) ∧
    (s.cfg.l.toNat ≤ (6 + s.cfg.k.toNat) / 2 → exec .ckSum s = .fault (.noFrameByte (max 3 s.cfg.l.toNat))) ∧
    (s.cfg.k ≠ 0 → s.cfg.l.toNat ≤ (6 + s.cfg.k.toNat) / 2 → exec .ckCrc s = .fault (.noFrameByte (max 3 s.cfg.l.toNat))) ∧
    (s.cfg.l.toNat ≤ (s.cfg.k.toNat + 10) / 2 →
      exec .ckStore s = .fault (.noFrameByte (max ((7 + s.cfg.k.toNat) / 2) s.cfg.l.toNat))) ∧
    (∀ (upTo after : List FieldSpec) (a : Nat), fieldsOf s.cfg.kind s.cfg.enc = upTo ++ after →
      (∀ g ∈ upTo, fieldFits g (readField s.snapRd g.input) = true) →
      (upTo.flatMap fieldAddrs).find? (fun x => decide (s.cfg.l.toNat ≤ x)) = some a →
      exec (Instr.sensOf s.cfg.kind) s = .fault (.noFrameByte a)) ∧
    ∀ a : Nat, readingFits s.cfg.kind s.cfg.enc s.snapRd = true →
      ((fieldsOf s.cfg.kind s.cfg.enc).flatMap fieldAddrs ++ constAddrs s.cfg.enc).find? (fun x => decide (s.cfg.l.toNat ≤ x)) =
        some a →
      exec (Instr.sensOf s.cfg.kind) s = .fault (.noFrameByte a)

/-! ### The whole machine -/

/-- R30: no step writes a configuration register. -/
def Obligations.ConfigurationIsNeverWritten : Prop :=
  ∀ s t : State, step s = .next t → t.cfg = s.cfg

/-- R97: from the accepted draw on, until the next reset event, no step writes `ROLL`. -/
def Obligations.RollingCodeIsConstant : Prop :=
  ∀ (s t : State) (n : Nat), s.Inv → s.seq ≠ 0x02 → s.seq ≠ 0x03 → s.env.resetReq = false → s.env.noReset n →
    steps n s = .next t → t.roll = s.roll

/-- R38, R198: only the encoder's operations, RESET and fault entry write `TX` or make a setpoint. -/
def Obligations.OnlyTheEncoderDrivesTheLine : Prop :=
  ∀ (i : Instr) (s t : State), i ∉ [Instr.reset, .encStart, .encFirst, .encSecond, .encEnd] → exec i s = .next t →
    (t.tx = s.tx ∧ t.trace = s.trace) ∨ ∃ code detail, t = raiseFault s code detail

/-- R64, R67: only the frame builder's operations, CK_STORE and RESET write the frame buffer or its marks for the status view. -/
def Obligations.OnlyTheBuilderWritesTheFrame : Prop :=
  ∀ (i : Instr) (s t : State),
    i ∉ [Instr.reset, .fbClear, .fbHdr, .fbId, .fbRoll, .fbSensUv, .fbSensWind, .fbSensTh, .fbSensRain, .ckStore] →
    exec i s = .next t → t.fb = s.fb ∧ t.written.fb = s.written.fb

/-- R158: after an operation that is legal under the kind, `SEQ` holds a code that the sequencer's table lists for it; SCH_TICK, for which
the table lists SCH_EVAL alone, keeps its own code while it waits, since a wait is a step in the model (log 12). -/
def Obligations.SequencerFollowsItsTable : Prop :=
  ∀ (i : Instr) (s t : State), s.seq = encode i → i.wellFormed s.cfg.kind = true → exec i s = .next t →
    t.seq ∈ successors s.cfg.kind i

/-- R79, R158: from a firing, with a valid profile, an in-domain snapshot and no reset event, the operations performed are exactly the
listing TRANSMIT. -/
def Obligations.TransmissionIsTheListing : Prop :=
  ∀ s : State, s.seq = 0x10 → validProfile s.cfg = true → readingFits s.cfg.kind s.cfg.enc s.snapRd = true →
    s.env.resetReq = false → s.env.noReset (transmitOps s.cfg).length →
    performed (transmitOps s.cfg).length s = transmitOps s.cfg

/-- R80: the lengths of the pseudo-operations. -/
def Obligations.PseudoOperationLengths : Prop :=
  ∀ p : Profile, (buildOps p.kind).length = 5 ∧ checksumOps.length = 3 ∧ (encodeOps p.l.toNat).length = 2 + 16 * p.l.toNat ∧
    (transmitOps p).length = 11 + 16 * p.l.toNat + (if p.logPresent then 1 else 0)

/-- The invariant holds right after the first reset of a block of any profile. -/
def Obligations.InvariantHoldsAtReset : Prop := ∀ p : Profile, (State.powerOn p).Inv

/-- R31, R37 to R44, R76, R139, R144, R153, R178: every step keeps the invariant. -/
def Obligations.EveryStepKeepsTheInvariant : Prop := ∀ s t : State, s.Inv → step s = .next t → t.Inv

/-- R9, R53, R121: from a state of the invariant a step always answers a next state: no `noFrameByte` stop and no refusal is reached from
it. That a halted or waiting block, which has no enabled step in the spec (R156, R178), answers a next state is the model's (log 12). -/
def Obligations.NoStepStopsUnderTheInvariant : Prop := ∀ s : State, s.Inv → ∃ t, step s = .next t
end

