-- ==== Sys2Proof/Laws/State.lean ====
section
/-! SUPPORT. One lemma per field per update of `State` and `Env`, so that no later proof unfolds a record update. -/

namespace Sys2Proof.Machine

/-! ### `goto` -/

@[simp] theorem State.goto_cfg (s : State) (c : Byte) : (s.goto c).cfg = s.cfg := rfl
@[simp] theorem State.goto_roll (s : State) (c : Byte) : (s.goto c).roll = s.roll := rfl
@[simp] theorem State.goto_fb (s : State) (c : Byte) : (s.goto c).fb = s.fb := rfl
@[simp] theorem State.goto_sum (s : State) (c : Byte) : (s.goto c).sum = s.sum := rfl
@[simp] theorem State.goto_crc (s : State) (c : Byte) : (s.goto c).crc = s.crc := rfl
@[simp] theorem State.goto_snapRd (s : State) (c : Byte) : (s.goto c).snapRd = s.snapRd := rfl
@[simp] theorem State.goto_snapBatt (s : State) (c : Byte) : (s.goto c).snapBatt = s.snapBatt := rfl
@[simp] theorem State.goto_elapsed (s : State) (c : Byte) : (s.goto c).elapsed = s.elapsed := rfl
@[simp] theorem State.goto_sphase (s : State) (c : Byte) : (s.goto c).sphase = s.sphase := rfl
@[simp] theorem State.goto_tx (s : State) (c : Byte) : (s.goto c).tx = s.tx := rfl
@[simp] theorem State.goto_onUs (s : State) (c : Byte) : (s.goto c).onUs = s.onUs := rfl
@[simp] theorem State.goto_dl (s : State) (c : Byte) : (s.goto c).dl = s.dl := rfl
@[simp] theorem State.goto_bitix (s : State) (c : Byte) : (s.goto c).bitix = s.bitix := rfl
@[simp] theorem State.goto_lastBit (s : State) (c : Byte) : (s.goto c).lastBit = s.lastBit := rfl
@[simp] theorem State.goto_seq (s : State) (c : Byte) : (s.goto c).seq = c := rfl
@[simp] theorem State.goto_fault (s : State) (c : Byte) : (s.goto c).fault = s.fault := rfl
@[simp] theorem State.goto_written (s : State) (c : Byte) : (s.goto c).written = s.written := rfl
@[simp] theorem State.goto_trace (s : State) (c : Byte) : (s.goto c).trace = s.trace := rfl
@[simp] theorem State.goto_log (s : State) (c : Byte) : (s.goto c).log = s.log := rfl
@[simp] theorem State.goto_env (s : State) (c : Byte) : (s.goto c).env = s.env := rfl
@[simp] theorem State.goto_resets (s : State) (c : Byte) : (s.goto c).resets = s.resets := rfl

/-! ### `setLine` -/

@[simp] theorem State.setLine_cfg (s : State) (l : Level) : (s.setLine l).cfg = s.cfg := rfl
@[simp] theorem State.setLine_roll (s : State) (l : Level) : (s.setLine l).roll = s.roll := rfl
@[simp] theorem State.setLine_fb (s : State) (l : Level) : (s.setLine l).fb = s.fb := rfl
@[simp] theorem State.setLine_sum (s : State) (l : Level) : (s.setLine l).sum = s.sum := rfl
@[simp] theorem State.setLine_crc (s : State) (l : Level) : (s.setLine l).crc = s.crc := rfl
@[simp] theorem State.setLine_snapRd (s : State) (l : Level) : (s.setLine l).snapRd = s.snapRd := rfl
@[simp] theorem State.setLine_snapBatt (s : State) (l : Level) : (s.setLine l).snapBatt = s.snapBatt := rfl
@[simp] theorem State.setLine_elapsed (s : State) (l : Level) : (s.setLine l).elapsed = s.elapsed := rfl
@[simp] theorem State.setLine_sphase (s : State) (l : Level) : (s.setLine l).sphase = s.sphase := rfl
@[simp] theorem State.setLine_tx (s : State) (l : Level) : (s.setLine l).tx = l := rfl
@[simp] theorem State.setLine_onUs (s : State) (l : Level) : (s.setLine l).onUs = s.onUs := rfl
@[simp] theorem State.setLine_dl (s : State) (l : Level) : (s.setLine l).dl = s.dl := rfl
@[simp] theorem State.setLine_bitix (s : State) (l : Level) : (s.setLine l).bitix = s.bitix := rfl
@[simp] theorem State.setLine_lastBit (s : State) (l : Level) : (s.setLine l).lastBit = s.lastBit := rfl
@[simp] theorem State.setLine_seq (s : State) (l : Level) : (s.setLine l).seq = s.seq := rfl
@[simp] theorem State.setLine_fault (s : State) (l : Level) : (s.setLine l).fault = s.fault := rfl
@[simp] theorem State.setLine_written (s : State) (l : Level) : (s.setLine l).written = s.written := rfl
@[simp] theorem State.setLine_trace (s : State) (l : Level) : (s.setLine l).trace = s.trace ++ [{ time := s.env.now, level := l }] := rfl
@[simp] theorem State.setLine_log (s : State) (l : Level) : (s.setLine l).log = s.log := rfl
@[simp] theorem State.setLine_env (s : State) (l : Level) : (s.setLine l).env = s.env := rfl
@[simp] theorem State.setLine_resets (s : State) (l : Level) : (s.setLine l).resets = s.resets := rfl

/-! ### `sleepUntil` -/

@[simp] theorem State.sleepUntil_cfg (s : State) (t : Time) : (s.sleepUntil t).cfg = s.cfg := rfl
@[simp] theorem State.sleepUntil_roll (s : State) (t : Time) : (s.sleepUntil t).roll = s.roll := rfl
@[simp] theorem State.sleepUntil_fb (s : State) (t : Time) : (s.sleepUntil t).fb = s.fb := rfl
@[simp] theorem State.sleepUntil_sum (s : State) (t : Time) : (s.sleepUntil t).sum = s.sum := rfl
@[simp] theorem State.sleepUntil_crc (s : State) (t : Time) : (s.sleepUntil t).crc = s.crc := rfl
@[simp] theorem State.sleepUntil_snapRd (s : State) (t : Time) : (s.sleepUntil t).snapRd = s.snapRd := rfl
@[simp] theorem State.sleepUntil_snapBatt (s : State) (t : Time) : (s.sleepUntil t).snapBatt = s.snapBatt := rfl
@[simp] theorem State.sleepUntil_elapsed (s : State) (t : Time) : (s.sleepUntil t).elapsed = s.elapsed := rfl
@[simp] theorem State.sleepUntil_sphase (s : State) (t : Time) : (s.sleepUntil t).sphase = s.sphase := rfl
@[simp] theorem State.sleepUntil_tx (s : State) (t : Time) : (s.sleepUntil t).tx = s.tx := rfl
@[simp] theorem State.sleepUntil_onUs (s : State) (t : Time) : (s.sleepUntil t).onUs = s.onUs := rfl
@[simp] theorem State.sleepUntil_dl (s : State) (t : Time) : (s.sleepUntil t).dl = s.dl := rfl
@[simp] theorem State.sleepUntil_bitix (s : State) (t : Time) : (s.sleepUntil t).bitix = s.bitix := rfl
@[simp] theorem State.sleepUntil_lastBit (s : State) (t : Time) : (s.sleepUntil t).lastBit = s.lastBit := rfl
@[simp] theorem State.sleepUntil_seq (s : State) (t : Time) : (s.sleepUntil t).seq = s.seq := rfl
@[simp] theorem State.sleepUntil_fault (s : State) (t : Time) : (s.sleepUntil t).fault = s.fault := rfl
@[simp] theorem State.sleepUntil_written (s : State) (t : Time) : (s.sleepUntil t).written = s.written := rfl
@[simp] theorem State.sleepUntil_trace (s : State) (t : Time) : (s.sleepUntil t).trace = s.trace := rfl
@[simp] theorem State.sleepUntil_log (s : State) (t : Time) : (s.sleepUntil t).log = s.log := rfl
@[simp] theorem State.sleepUntil_env (s : State) (t : Time) : (s.sleepUntil t).env = s.env.slept t := rfl
@[simp] theorem State.sleepUntil_resets (s : State) (t : Time) : (s.sleepUntil t).resets = s.resets := rfl

/-! ### `environment` -/

@[simp] theorem State.environment_cfg (timed : Bool) (s : State) : (s.environment timed).cfg = s.cfg := rfl
@[simp] theorem State.environment_roll (timed : Bool) (s : State) : (s.environment timed).roll = s.roll := rfl
@[simp] theorem State.environment_fb (timed : Bool) (s : State) : (s.environment timed).fb = s.fb := rfl
@[simp] theorem State.environment_sum (timed : Bool) (s : State) : (s.environment timed).sum = s.sum := rfl
@[simp] theorem State.environment_crc (timed : Bool) (s : State) : (s.environment timed).crc = s.crc := rfl
@[simp] theorem State.environment_snapRd (timed : Bool) (s : State) : (s.environment timed).snapRd = s.snapRd := rfl
@[simp] theorem State.environment_snapBatt (timed : Bool) (s : State) : (s.environment timed).snapBatt = s.snapBatt := rfl
@[simp] theorem State.environment_elapsed (timed : Bool) (s : State) : (s.environment timed).elapsed = s.elapsed := rfl
@[simp] theorem State.environment_sphase (timed : Bool) (s : State) : (s.environment timed).sphase = s.sphase := rfl
@[simp] theorem State.environment_tx (timed : Bool) (s : State) : (s.environment timed).tx = s.tx := rfl
@[simp] theorem State.environment_onUs (timed : Bool) (s : State) : (s.environment timed).onUs = s.onUs := rfl
@[simp] theorem State.environment_dl (timed : Bool) (s : State) : (s.environment timed).dl = s.dl := rfl
@[simp] theorem State.environment_bitix (timed : Bool) (s : State) : (s.environment timed).bitix = s.bitix := rfl
@[simp] theorem State.environment_lastBit (timed : Bool) (s : State) : (s.environment timed).lastBit = s.lastBit := rfl
@[simp] theorem State.environment_seq (timed : Bool) (s : State) : (s.environment timed).seq = s.seq := rfl
@[simp] theorem State.environment_fault (timed : Bool) (s : State) : (s.environment timed).fault = s.fault := rfl
@[simp] theorem State.environment_written (timed : Bool) (s : State) : (s.environment timed).written = s.written := rfl
@[simp] theorem State.environment_trace (timed : Bool) (s : State) : (s.environment timed).trace = s.trace := rfl
@[simp] theorem State.environment_log (timed : Bool) (s : State) : (s.environment timed).log = s.log := rfl
@[simp] theorem State.environment_env (timed : Bool) (s : State) : (s.environment timed).env = s.env.turned timed := rfl
@[simp] theorem State.environment_resets (timed : Bool) (s : State) : (s.environment timed).resets = s.resets := rfl

/-! ### `stored` -/

@[simp] theorem State.stored_cfg (s : State) (ws : List FrameWrite) : (s.stored ws).cfg = s.cfg := rfl
@[simp] theorem State.stored_roll (s : State) (ws : List FrameWrite) : (s.stored ws).roll = s.roll := rfl
@[simp] theorem State.stored_fb (s : State) (ws : List FrameWrite) : (s.stored ws).fb = s.fb.storeAll ws := rfl
@[simp] theorem State.stored_sum (s : State) (ws : List FrameWrite) : (s.stored ws).sum = s.sum := rfl
@[simp] theorem State.stored_crc (s : State) (ws : List FrameWrite) : (s.stored ws).crc = s.crc := rfl
@[simp] theorem State.stored_snapRd (s : State) (ws : List FrameWrite) : (s.stored ws).snapRd = s.snapRd := rfl
@[simp] theorem State.stored_snapBatt (s : State) (ws : List FrameWrite) : (s.stored ws).snapBatt = s.snapBatt := rfl
@[simp] theorem State.stored_elapsed (s : State) (ws : List FrameWrite) : (s.stored ws).elapsed = s.elapsed := rfl
@[simp] theorem State.stored_sphase (s : State) (ws : List FrameWrite) : (s.stored ws).sphase = s.sphase := rfl
@[simp] theorem State.stored_tx (s : State) (ws : List FrameWrite) : (s.stored ws).tx = s.tx := rfl
@[simp] theorem State.stored_onUs (s : State) (ws : List FrameWrite) : (s.stored ws).onUs = s.onUs := rfl
@[simp] theorem State.stored_dl (s : State) (ws : List FrameWrite) : (s.stored ws).dl = s.dl := rfl
@[simp] theorem State.stored_bitix (s : State) (ws : List FrameWrite) : (s.stored ws).bitix = s.bitix := rfl
@[simp] theorem State.stored_lastBit (s : State) (ws : List FrameWrite) : (s.stored ws).lastBit = s.lastBit := rfl
@[simp] theorem State.stored_seq (s : State) (ws : List FrameWrite) : (s.stored ws).seq = s.seq := rfl
@[simp] theorem State.stored_fault (s : State) (ws : List FrameWrite) : (s.stored ws).fault = s.fault := rfl
@[simp] theorem State.stored_written (s : State) (ws : List FrameWrite) : (s.stored ws).written = { s.written with fb := (ws.map FrameWrite.addr).foldl (fun l k => markAddr k l) s.written.fb } := rfl
@[simp] theorem State.stored_trace (s : State) (ws : List FrameWrite) : (s.stored ws).trace = s.trace := rfl
@[simp] theorem State.stored_log (s : State) (ws : List FrameWrite) : (s.stored ws).log = s.log := rfl
@[simp] theorem State.stored_env (s : State) (ws : List FrameWrite) : (s.stored ws).env = s.env := rfl
@[simp] theorem State.stored_resets (s : State) (ws : List FrameWrite) : (s.stored ws).resets = s.resets := rfl

/-! ### `forceLow` and `raiseFault` -/

@[simp] theorem State.forceLow_cfg (s : State) : s.forceLow.cfg = s.cfg := by unfold State.forceLow; split <;> rfl
@[simp] theorem State.forceLow_roll (s : State) : s.forceLow.roll = s.roll := by unfold State.forceLow; split <;> rfl
@[simp] theorem State.forceLow_fb (s : State) : s.forceLow.fb = s.fb := by unfold State.forceLow; split <;> rfl
@[simp] theorem State.forceLow_sum (s : State) : s.forceLow.sum = s.sum := by unfold State.forceLow; split <;> rfl
@[simp] theorem State.forceLow_crc (s : State) : s.forceLow.crc = s.crc := by unfold State.forceLow; split <;> rfl
@[simp] theorem State.forceLow_snapRd (s : State) : s.forceLow.snapRd = s.snapRd := by unfold State.forceLow; split <;> rfl
@[simp] theorem State.forceLow_snapBatt (s : State) : s.forceLow.snapBatt = s.snapBatt := by unfold State.forceLow; split <;> rfl
@[simp] theorem State.forceLow_elapsed (s : State) : s.forceLow.elapsed = s.elapsed := by unfold State.forceLow; split <;> rfl
@[simp] theorem State.forceLow_sphase (s : State) : s.forceLow.sphase = s.sphase := by unfold State.forceLow; split <;> rfl
@[simp] theorem State.forceLow_tx (s : State) : s.forceLow.tx = .low := by
  unfold State.forceLow
  split
  · rfl
  · cases h : s.tx
    · rfl
    · exact absurd h ‹_›
@[simp] theorem State.forceLow_onUs (s : State) : s.forceLow.onUs = s.onUs := by unfold State.forceLow; split <;> rfl
@[simp] theorem State.forceLow_dl (s : State) : s.forceLow.dl = s.dl := by unfold State.forceLow; split <;> rfl
@[simp] theorem State.forceLow_bitix (s : State) : s.forceLow.bitix = s.bitix := by unfold State.forceLow; split <;> rfl
@[simp] theorem State.forceLow_lastBit (s : State) : s.forceLow.lastBit = s.lastBit := by unfold State.forceLow; split <;> rfl
@[simp] theorem State.forceLow_seq (s : State) : s.forceLow.seq = s.seq := by unfold State.forceLow; split <;> rfl
@[simp] theorem State.forceLow_fault (s : State) : s.forceLow.fault = s.fault := by unfold State.forceLow; split <;> rfl
@[simp] theorem State.forceLow_written (s : State) : s.forceLow.written = s.written := by unfold State.forceLow; split <;> rfl
@[simp] theorem State.forceLow_log (s : State) : s.forceLow.log = s.log := by unfold State.forceLow; split <;> rfl
@[simp] theorem State.forceLow_env (s : State) : s.forceLow.env = s.env := by unfold State.forceLow; split <;> rfl
@[simp] theorem State.forceLow_resets (s : State) : s.forceLow.resets = s.resets := by unfold State.forceLow; split <;> rfl

/-- Fault entry's setpoint: one at the current time if the line was HIGH, none else (R177). -/
theorem State.forceLow_trace (s : State) :
    s.forceLow.trace = s.trace ++ (if s.tx = .high then [{ time := s.env.now, level := .low }] else []) := by
  unfold State.forceLow
  split <;> simp

@[simp] theorem raiseFault_cfg (s : State) (c : BitVec 4) (d : BitVec 8) : (raiseFault s c d).cfg = s.cfg := State.forceLow_cfg s
@[simp] theorem raiseFault_roll (s : State) (c : BitVec 4) (d : BitVec 8) : (raiseFault s c d).roll = s.roll := State.forceLow_roll s
@[simp] theorem raiseFault_fb (s : State) (c : BitVec 4) (d : BitVec 8) : (raiseFault s c d).fb = s.fb := State.forceLow_fb s
@[simp] theorem raiseFault_sum (s : State) (c : BitVec 4) (d : BitVec 8) : (raiseFault s c d).sum = s.sum := State.forceLow_sum s
@[simp] theorem raiseFault_crc (s : State) (c : BitVec 4) (d : BitVec 8) : (raiseFault s c d).crc = s.crc := State.forceLow_crc s
@[simp] theorem raiseFault_snapRd (s : State) (c : BitVec 4) (d : BitVec 8) : (raiseFault s c d).snapRd = s.snapRd := State.forceLow_snapRd s
@[simp] theorem raiseFault_snapBatt (s : State) (c : BitVec 4) (d : BitVec 8) : (raiseFault s c d).snapBatt = s.snapBatt := State.forceLow_snapBatt s
@[simp] theorem raiseFault_elapsed (s : State) (c : BitVec 4) (d : BitVec 8) : (raiseFault s c d).elapsed = s.elapsed := State.forceLow_elapsed s
@[simp] theorem raiseFault_sphase (s : State) (c : BitVec 4) (d : BitVec 8) : (raiseFault s c d).sphase = s.sphase := State.forceLow_sphase s
@[simp] theorem raiseFault_tx (s : State) (c : BitVec 4) (d : BitVec 8) : (raiseFault s c d).tx = .low := State.forceLow_tx s
@[simp] theorem raiseFault_onUs (s : State) (c : BitVec 4) (d : BitVec 8) : (raiseFault s c d).onUs = s.onUs := State.forceLow_onUs s
@[simp] theorem raiseFault_dl (s : State) (c : BitVec 4) (d : BitVec 8) : (raiseFault s c d).dl = s.dl := State.forceLow_dl s
@[simp] theorem raiseFault_bitix (s : State) (c : BitVec 4) (d : BitVec 8) : (raiseFault s c d).bitix = s.bitix := State.forceLow_bitix s
@[simp] theorem raiseFault_lastBit (s : State) (c : BitVec 4) (d : BitVec 8) : (raiseFault s c d).lastBit = s.lastBit := State.forceLow_lastBit s
@[simp] theorem raiseFault_seq (s : State) (c : BitVec 4) (d : BitVec 8) : (raiseFault s c d).seq = 0xFF := rfl
@[simp] theorem raiseFault_fault (s : State) (c : BitVec 4) (d : BitVec 8) : (raiseFault s c d).fault = { halted := true, ecode := c, edetail := d } := rfl
@[simp] theorem raiseFault_written (s : State) (c : BitVec 4) (d : BitVec 8) : (raiseFault s c d).written = s.written := State.forceLow_written s
@[simp] theorem raiseFault_trace (s : State) (c : BitVec 4) (d : BitVec 8) : (raiseFault s c d).trace = s.forceLow.trace := rfl
@[simp] theorem raiseFault_log (s : State) (c : BitVec 4) (d : BitVec 8) : (raiseFault s c d).log = s.log := State.forceLow_log s
@[simp] theorem raiseFault_env (s : State) (c : BitVec 4) (d : BitVec 8) : (raiseFault s c d).env = s.env := State.forceLow_env s
@[simp] theorem raiseFault_resets (s : State) (c : BitVec 4) (d : BitVec 8) : (raiseFault s c d).resets = s.resets := State.forceLow_resets s

/-! ### The input ports -/

@[simp] theorem Env.rngTaken_now (e : Env) : (e.rngTaken).now = e.now := rfl
@[simp] theorem Env.rngTaken_tickReq (e : Env) : (e.rngTaken).tickReq = e.tickReq := rfl
@[simp] theorem Env.rngTaken_resetReq (e : Env) : (e.rngTaken).resetReq = e.resetReq := rfl
@[simp] theorem Env.rngTaken_reading (e : Env) : (e.rngTaken).reading = e.reading := rfl
@[simp] theorem Env.rngTaken_batt (e : Env) : (e.rngTaken).batt = e.batt := rfl
@[simp] theorem Env.rngTaken_rng (e : Env) : (e.rngTaken).rng = e.rng.tail := rfl
@[simp] theorem Env.rngTaken_rngIx (e : Env) : (e.rngTaken).rngIx = e.rngIx + 1 := rfl
@[simp] theorem Env.rngTaken_latency (e : Env) : (e.rngTaken).latency = e.latency := rfl
@[simp] theorem Env.rngTaken_latencyIx (e : Env) : (e.rngTaken).latencyIx = e.latencyIx := rfl
@[simp] theorem Env.rngTaken_turns (e : Env) : (e.rngTaken).turns = e.turns := rfl
@[simp] theorem Env.rngTaken_turnIx (e : Env) : (e.rngTaken).turnIx = e.turnIx := rfl

@[simp] theorem Env.slept_now (e : Env) (t : Time) : (e.slept t).now = later (if e.now ≤ t then t else e.now) (e.latencyAt 0) := rfl
@[simp] theorem Env.slept_tickReq (e : Env) (t : Time) : (e.slept t).tickReq = e.tickReq := rfl
@[simp] theorem Env.slept_resetReq (e : Env) (t : Time) : (e.slept t).resetReq = e.resetReq := rfl
@[simp] theorem Env.slept_reading (e : Env) (t : Time) : (e.slept t).reading = e.reading := rfl
@[simp] theorem Env.slept_batt (e : Env) (t : Time) : (e.slept t).batt = e.batt := rfl
@[simp] theorem Env.slept_rng (e : Env) (t : Time) : (e.slept t).rng = e.rng := rfl
@[simp] theorem Env.slept_rngIx (e : Env) (t : Time) : (e.slept t).rngIx = e.rngIx := rfl
@[simp] theorem Env.slept_latency (e : Env) (t : Time) : (e.slept t).latency = e.latency.tail := rfl
@[simp] theorem Env.slept_latencyIx (e : Env) (t : Time) : (e.slept t).latencyIx = e.latencyIx + 1 := rfl
@[simp] theorem Env.slept_turns (e : Env) (t : Time) : (e.slept t).turns = e.turns := rfl
@[simp] theorem Env.slept_turnIx (e : Env) (t : Time) : (e.slept t).turnIx = e.turnIx := rfl

@[simp] theorem Env.turned_now (timed : Bool) (e : Env) : (e.turned timed).now = later e.now (e.passing timed) := rfl
@[simp] theorem Env.turned_tickReq (timed : Bool) (e : Env) : (e.turned timed).tickReq = e.tickReq + (e.turnAt 0).ticks := rfl
@[simp] theorem Env.turned_resetReq (timed : Bool) (e : Env) : (e.turned timed).resetReq = (e.resetReq || (e.turnAt 0).reset) := rfl
@[simp] theorem Env.turned_reading (timed : Bool) (e : Env) : (e.turned timed).reading = (e.turnAt 0).reading := rfl
@[simp] theorem Env.turned_batt (timed : Bool) (e : Env) : (e.turned timed).batt = (e.turnAt 0).batt := rfl
@[simp] theorem Env.turned_rng (timed : Bool) (e : Env) : (e.turned timed).rng = e.rng := rfl
@[simp] theorem Env.turned_rngIx (timed : Bool) (e : Env) : (e.turned timed).rngIx = e.rngIx := rfl
@[simp] theorem Env.turned_latency (timed : Bool) (e : Env) : (e.turned timed).latency = e.latency := rfl
@[simp] theorem Env.turned_latencyIx (timed : Bool) (e : Env) : (e.turned timed).latencyIx = e.latencyIx := rfl
@[simp] theorem Env.turned_turns (timed : Bool) (e : Env) : (e.turned timed).turns = e.turns.tail := rfl
@[simp] theorem Env.turned_turnIx (timed : Bool) (e : Env) : (e.turned timed).turnIx = e.turnIx + 1 := rfl

end Sys2Proof.Machine
end

