-- ==== Sys2Proof/Laws/Memory.lean ====
section
/-! SUPPORT. The frame buffer: read after write, the canonical form, nibbles within bytes. -/

namespace Sys2Proof.Machine

/-! ### Bytes -/

@[simp] theorem Memory.read_nil (k : Nat) : Memory.read [] k = unlisted := rfl

theorem Memory.read_cons (c : Host.Cell) (m : Memory) (k : Nat) :
    Memory.read (c :: m) k = if k = c.1 then c.2 else Memory.read m k := rfl

theorem Memory.read_filter_same (m : Memory) (k : Nat) : Memory.read (m.filter fun c => c.1 ≠ k) k = unlisted := by
  induction m with
  | nil => rfl
  | cons c m ih =>
    rw [List.filter_cons]
    split
    · rename_i h
      have h' : c.1 ≠ k := by simpa using h
      rw [Memory.read_cons, if_neg (Ne.symm h')]
      exact ih
    · exact ih

theorem Memory.read_filter_other (m : Memory) {j k : Nat} (hjk : j ≠ k) :
    Memory.read (m.filter fun c => c.1 ≠ k) j = Memory.read m j := by
  induction m with
  | nil => rfl
  | cons c m ih =>
    rw [List.filter_cons, Memory.read_cons]
    split
    · rw [Memory.read_cons, ih]
    · rename_i h
      have h' : c.1 = k := by simpa using h
      rw [ih, if_neg (by omega)]

theorem Memory.read_insert_same (m : Memory) (k : Nat) (v : Byte) (hm : ∀ c ∈ m, c.1 ≠ k) :
    Memory.read (Memory.insert (k, v) m) k = v := by
  induction m with
  | nil => simp [Memory.insert, Memory.read]
  | cons c m ih =>
    unfold Memory.insert
    split
    · simp [Memory.read]
    · rw [Memory.read_cons, if_neg (Ne.symm (hm c (by simp)))]
      exact ih fun d hd => hm d (by simp [hd])

theorem Memory.read_insert_other (m : Memory) {j k : Nat} (v : Byte) (hjk : j ≠ k) :
    Memory.read (Memory.insert (k, v) m) j = Memory.read m j := by
  induction m with
  | nil => simp [Memory.insert, Memory.read, hjk]
  | cons c m ih =>
    unfold Memory.insert
    split
    · rw [Memory.read_cons, if_neg hjk]
    · rw [Memory.read_cons, Memory.read_cons, ih]

/-- A read after a write to the same byte gives the value written. -/
@[simp] theorem Memory.read_write_same (m : Memory) (k : Nat) (v : Byte) : (m.write k v).read k = v := by
  unfold Memory.write
  split
  · rename_i h
    rw [Memory.read_filter_same, h]
  · exact Memory.read_insert_same _ _ _ fun c hc => by simpa using (List.mem_filter.1 hc).2

/-- A write leaves every other byte alone. -/
theorem Memory.read_write_other (m : Memory) {j k : Nat} (v : Byte) (hjk : j ≠ k) : (m.write k v).read j = m.read j := by
  unfold Memory.write
  split
  · exact Memory.read_filter_other m hjk
  · dsimp only
    rw [Memory.read_insert_other _ _ hjk, Memory.read_filter_other m hjk]

theorem Memory.read_write (m : Memory) (j k : Nat) (v : Byte) : (m.write k v).read j = if j = k then v else m.read j := by
  split
  · rename_i h
    rw [h, Memory.read_write_same]
  · rename_i h
    exact Memory.read_write_other m v h

/-! ### The canonical form -/

theorem Memory.wfFrom_mono {lo hi : Nat} {m : Memory} (h : lo ≤ hi) (hm : Memory.wfFrom hi m = true) : Memory.wfFrom lo m = true := by
  cases m with
  | nil => rfl
  | cons c m =>
    obtain ⟨a, v⟩ := c
    simp only [Memory.wfFrom, Bool.and_eq_true, decide_eq_true_eq] at hm ⊢
    exact ⟨⟨by omega, hm.1.2⟩, hm.2⟩

theorem Memory.wfFrom_filter {lo : Nat} {m : Memory} (p : Host.Cell → Bool) (hm : Memory.wfFrom lo m = true) :
    Memory.wfFrom lo (m.filter p) = true := by
  induction m generalizing lo with
  | nil => rfl
  | cons c m ih =>
    obtain ⟨a, v⟩ := c
    simp only [Memory.wfFrom, Bool.and_eq_true, decide_eq_true_eq] at hm
    rw [List.filter_cons]
    split
    · simp only [Memory.wfFrom, Bool.and_eq_true, decide_eq_true_eq]
      exact ⟨hm.1, ih hm.2⟩
    · exact Memory.wfFrom_mono (by omega) (ih hm.2)

theorem Memory.wfFrom_insert {lo k : Nat} {v : Byte} {m : Memory} (hm : Memory.wfFrom lo m = true) (hk : lo ≤ k) (hv : v ≠ unlisted)
    (hfree : ∀ c ∈ m, c.1 ≠ k) : Memory.wfFrom lo (Memory.insert (k, v) m) = true := by
  induction m generalizing lo with
  | nil => simp [Memory.insert, Memory.wfFrom, hk, hv]
  | cons c m ih =>
    obtain ⟨a, w⟩ := c
    simp only [Memory.wfFrom, Bool.and_eq_true, decide_eq_true_eq] at hm
    have hak : a ≠ k := hfree (a, w) (by simp)
    unfold Memory.insert
    split
    · rename_i h
      simp only [Memory.wfFrom, Bool.and_eq_true, decide_eq_true_eq]
      exact ⟨⟨hk, hv⟩, ⟨h, hm.1.2⟩, hm.2⟩
    · rename_i h
      simp only [Memory.wfFrom, Bool.and_eq_true, decide_eq_true_eq]
      exact ⟨hm.1, ih hm.2 (by simp only at h; omega) fun d hd => hfree d (by simp [hd])⟩

/-- A byte write keeps the canonical form. -/
theorem Memory.wf_write {m : Memory} (k : Nat) (v : Byte) (hm : m.wf = true) : (m.write k v).wf = true := by
  unfold Memory.write
  split
  · exact Memory.wfFrom_filter _ hm
  · rename_i h
    exact Memory.wfFrom_insert (Memory.wfFrom_filter _ hm) (Nat.zero_le _) h
      fun c hc => by simpa using (List.mem_filter.1 hc).2

/-- Every memory operation of a micro-operation keeps the canonical form. -/
theorem Memory.wf_store {m : Memory} (w : FrameWrite) (hm : m.wf = true) : (m.store w).wf = true := by
  cases w with
  | byte k v => exact Memory.wf_write k v hm
  | nib i v => exact Memory.wf_write _ _ hm

theorem Memory.wf_storeAll {m : Memory} (ws : List FrameWrite) (hm : m.wf = true) : (m.storeAll ws).wf = true := by
  induction ws generalizing m with
  | nil => exact hm
  | cons w ws ih => exact ih (Memory.wf_store w hm)

theorem Memory.wf_ofBytes (l : Nat) (f : Nat → Byte) : (Memory.ofBytes l f).wf = true := by
  unfold Memory.ofBytes
  have h : ∀ (ks : List Nat) (m : Memory), m.wf = true → (ks.foldl (fun m k => Memory.write m k (f k)) m).wf = true := by
    intro ks
    induction ks with
    | nil => exact fun _ hm => hm
    | cons k ks ih => exact fun m hm => ih _ (Memory.wf_write k (f k) hm)
  exact h _ _ rfl

/-! ### Addresses within the frame -/

theorem Memory.mem_insert {m : Memory} {c d : Host.Cell} (h : d ∈ Memory.insert c m) : d = c ∨ d ∈ m := by
  induction m with
  | nil => simpa [Memory.insert] using h
  | cons e m ih =>
    unfold Memory.insert at h
    split at h
    · simpa using h
    · rcases List.mem_cons.1 h with h | h
      · exact .inr (by simp [h])
      · rcases ih h with h | h
        · exact .inl h
        · exact .inr (by simp [h])

theorem Memory.within_write {m : Memory} {l k : Nat} (v : Byte) (hk : k < l) (hm : m.within l = true) :
    (m.write k v).within l = true := by
  simp only [Memory.within, List.all_eq_true, decide_eq_true_eq] at hm ⊢
  intro c hc
  unfold Memory.write at hc
  split at hc
  · exact hm c (List.mem_filter.1 hc).1
  · rcases Memory.mem_insert hc with h | h
    · rw [h]
      exact hk
    · exact hm c (List.mem_filter.1 h).1

theorem Memory.within_store {m : Memory} {l : Nat} (w : FrameWrite) (hw : w.addr < l) (hm : m.within l = true) :
    (m.store w).within l = true := by
  cases w with
  | byte k v => exact Memory.within_write v hw hm
  | nib i v => exact Memory.within_write _ hw hm

theorem Memory.within_storeAll {m : Memory} {l : Nat} (ws : List FrameWrite) (hws : ∀ w ∈ ws, w.addr < l) (hm : m.within l = true) :
    (m.storeAll ws).within l = true := by
  induction ws generalizing m with
  | nil => exact hm
  | cons w ws ih => exact ih (fun x hx => hws x (by simp [hx])) (Memory.within_store w (hws w (by simp)) hm)

theorem Memory.within_ofBytes (l : Nat) (f : Nat → Byte) : (Memory.ofBytes l f).within l = true := by
  unfold Memory.ofBytes
  have h : ∀ (ks : List Nat) (m : Memory), (∀ k ∈ ks, k < l) → m.within l = true →
      (ks.foldl (fun m k => Memory.write m k (f k)) m).within l = true := by
    intro ks
    induction ks with
    | nil => exact fun _ _ hm => hm
    | cons k ks ih => exact fun m hks hm => ih _ (fun j hj => hks j (by simp [hj])) (Memory.within_write _ (hks k (by simp)) hm)
  exact h _ _ (fun k hk => List.mem_range.1 hk) rfl

/-! ### Nibbles -/

@[simp] theorem hiNib_joinNibs (h l : Nibble) : hiNib (joinNibs h l) = h := by
  revert h l; decide

@[simp] theorem loNib_joinNibs (h l : Nibble) : loNib (joinNibs h l) = l := by
  revert h l; decide

@[simp] theorem joinNibs_hi_lo (b : Byte) : joinNibs (hiNib b) (loNib b) = b := by
  revert b; decide

/-- A nibble of a frame after a byte write (R52). -/
theorem Memory.nib_write (m : Memory) (k i : Nat) (v : Byte) :
    (m.write k v).nib i = if i / 2 = k then (if i % 2 = 0 then hiNib v else loNib v) else m.nib i := by
  unfold Memory.nib
  rw [Memory.read_write]
  split <;> split <;> rfl

/-- A nibble write changes the addressed nibble and no other (R52). -/
theorem Memory.nib_nibWrite (m : Memory) (i j : Nat) (v : Nibble) : (m.nibWrite i v).nib j = if j = i then v else m.nib j := by
  unfold Memory.nibWrite
  rw [Memory.nib_write]
  by_cases hji : j = i
  · subst hji
    rw [if_pos rfl, if_pos rfl]
    split <;> simp
  · rw [if_neg hji]
    split
    · rename_i h
      rcases Nat.mod_two_eq_zero_or_one j with hj | hj
      · have hi : i % 2 = 1 := by omega
        simp [hj, hi, Memory.nib, h]
      · have hi : i % 2 = 0 := by omega
        simp [hj, hi, Memory.nib, h]
    · rfl

/-- A byte is its two nibbles (R51). -/
theorem Memory.read_eq_nibs (m : Memory) (k : Nat) : m.read k = joinNibs (m.nib (2 * k)) (m.nib (2 * k + 1)) := by
  have h1 : (2 * k + 1) / 2 = k := by omega
  have h2 : (2 * k + 1) % 2 = 1 := by omega
  simp [Memory.nib, h1, h2]

/-- What one write leaves at a nibble: its own value at the nibbles it stores to, the old value elsewhere (R52). -/
theorem Memory.nib_store (m : Memory) (w : FrameWrite) (j : Nat) :
    (m.store w).nib j =
      match w with
      | .byte k v => if j / 2 = k then (if j % 2 = 0 then hiNib v else loNib v) else m.nib j
      | .nib i v => if j = i then v else m.nib j := by
  cases w with
  | byte k v => exact Memory.nib_write m k j v
  | nib i v => exact Memory.nib_nibWrite m i j v

/-- A byte that no write addresses keeps its value. -/
theorem Memory.read_store_other {m : Memory} {w : FrameWrite} {k : Nat} (h : k ≠ w.addr) : (m.store w).read k = m.read k := by
  cases w with
  | byte a v => exact Memory.read_write_other m v h
  | nib i v => exact Memory.read_write_other m _ h

theorem Memory.read_storeAll_other {m : Memory} {ws : List FrameWrite} {k : Nat} (h : ∀ w ∈ ws, k ≠ w.addr) :
    (m.storeAll ws).read k = m.read k := by
  induction ws generalizing m with
  | nil => rfl
  | cons w ws ih =>
    exact (ih (m := m.store w) fun x hx => h x (by simp [hx])).trans (Memory.read_store_other (h w (by simp)))

@[simp] theorem Memory.storeAll_nil (m : Memory) : m.storeAll [] = m := rfl

@[simp] theorem Memory.storeAll_cons (m : Memory) (w : FrameWrite) (ws : List FrameWrite) :
    m.storeAll (w :: ws) = (m.store w).storeAll ws := rfl

theorem Memory.storeAll_append (m : Memory) (ws vs : List FrameWrite) : m.storeAll (ws ++ vs) = (m.storeAll ws).storeAll vs :=
  List.foldl_append

/-! ### Equal contents are equal lists -/

theorem Memory.read_below {m : Memory} : ∀ {lo k}, Memory.wfFrom lo m = true → k < lo → m.read k = unlisted := by
  induction m with
  | nil => intros; rfl
  | cons c m ih =>
    intro lo k h hk
    obtain ⟨a, v⟩ := c
    simp only [Memory.wfFrom, Bool.and_eq_true, decide_eq_true_eq] at h
    rw [Memory.read_cons, if_neg (by simp only; omega)]
    exact ih h.2 (by omega)
theorem Memory.ext_from : ∀ (m n : Memory) (lo), Memory.wfFrom lo m = true → Memory.wfFrom lo n = true → (∀ k, m.read k = n.read k) → m = n := by
  intro m
  induction m with
  | nil =>
    intro n lo _ hn h
    cases n with
    | nil => rfl
    | cons c n =>
      obtain ⟨a, v⟩ := c
      simp only [Memory.wfFrom, Bool.and_eq_true, decide_eq_true_eq] at hn
      have := h a; rw [Memory.read_cons, if_pos rfl] at this; exact absurd this.symm hn.1.2
  | cons c m ih =>
    intro n lo hm hn h
    obtain ⟨a, v⟩ := c
    have hm' := hm
    simp only [Memory.wfFrom, Bool.and_eq_true, decide_eq_true_eq] at hm
    cases n with
    | nil => have := h a; rw [Memory.read_cons, if_pos rfl] at this; exact absurd this hm.1.2
    | cons d n =>
      obtain ⟨b, w⟩ := d
      have hn' := hn
      simp only [Memory.wfFrom, Bool.and_eq_true, decide_eq_true_eq] at hn
      have hab : a = b := by
        rcases Nat.lt_trichotomy a b with hlt | he | hgt
        · have := h a; rw [Memory.read_cons, if_pos rfl, Memory.read_cons, if_neg (by simp only; omega), Memory.read_below hn.2 (by omega)] at this
          exact absurd this hm.1.2
        · exact he
        · have := h b; rw [Memory.read_cons, if_neg (by simp only; omega), Memory.read_cons, if_pos rfl, Memory.read_below hm.2 (by omega)] at this
          exact absurd this.symm hn.1.2
      subst hab
      have hv : v = w := by have := h a; rw [Memory.read_cons, if_pos rfl, Memory.read_cons, if_pos rfl] at this; exact this
      subst hv
      rw [ih n _ hm.2 hn.2]
      intro k
      by_cases hk : k = a
      · subst hk; rw [Memory.read_below hm.2 (by omega), Memory.read_below hn.2 (by omega)]
      · have := h k; rwa [Memory.read_cons, if_neg hk, Memory.read_cons, if_neg hk] at this

/-- Two canonical frame buffers that read the same at every address are the same list. -/
theorem Memory.ext_of_wf {m n : Memory} (hm : m.wf = true) (hn : n.wf = true) (h : ∀ k, m.read k = n.read k) : m = n :=
  Memory.ext_from m n 0 hm hn h

end Sys2Proof.Machine
end

