-- ==== Sys2Proof/Laws/Ops.lean ====
section
/-! SUPPORT. What each shared operation can do, said once: the frame guard, the stores, the sensor stores, the clock and the environment's
turn, the sequencer's choice and the step. -/

namespace Sys2Proof.Machine

/-! ### The frame guard -/

theorem outside_eq_none_iff {l : Nat} {addrs : List Nat} : outside l addrs = none ↔ ∀ a ∈ addrs, a < l := by
  simp [outside, List.find?_eq_none]

theorem outside_eq_some {l a : Nat} {addrs : List Nat} (h : outside l addrs = some a) : a ∈ addrs ∧ l ≤ a := by
  refine ⟨List.mem_of_find?_eq_some h, ?_⟩
  simpa using List.find?_some h

/-- The guard lets the next state through exactly when every accessed address exists (R53). -/
theorem guardFrame_of_lt {addrs : List Nat} {s t : State} (h : ∀ a ∈ addrs, a < s.cfg.l.toNat) : guardFrame addrs s t = .next t := by
  unfold guardFrame
  rw [outside_eq_none_iff.2 h]

/-- Everything the guard can answer. -/
theorem guardFrame_cases (addrs : List Nat) (s t : State) :
    ((∀ a ∈ addrs, a < s.cfg.l.toNat) ∧ guardFrame addrs s t = .next t) ∨
    ∃ a ∈ addrs, s.cfg.l.toNat ≤ a ∧ guardFrame addrs s t = .fault (.noFrameByte a) := by
  cases h : outside s.cfg.l.toNat addrs with
  | none => exact .inl ⟨outside_eq_none_iff.1 h, guardFrame_of_lt (outside_eq_none_iff.1 h)⟩
  | some a => exact .inr ⟨a, (outside_eq_some h).1, (outside_eq_some h).2, by simp [guardFrame, h]⟩

theorem guardFrame_eq_next {addrs : List Nat} {s t u : State} (h : guardFrame addrs s t = .next u) :
    (∀ a ∈ addrs, a < s.cfg.l.toNat) ∧ u = t := by
  rcases guardFrame_cases addrs s t with ⟨h1, h2⟩ | ⟨a, -, -, h2⟩
  · rw [h2] at h
    exact ⟨h1, (Host.Outcome.next.inj h).symm⟩
  · rw [h2] at h
    cases h

/-- A store that answers a next state wrote within the frame, and left the stored state with `SEQ` set. -/
theorem storeAndGo_eq_next {ws : List FrameWrite} {c : Byte} {s u : State} (h : storeAndGo ws c s = .next u) :
    (∀ w ∈ ws, w.addr < s.cfg.l.toNat) ∧ u = (s.stored ws).goto c := by
  obtain ⟨h1, h2⟩ := guardFrame_eq_next h
  exact ⟨fun w hw => h1 _ (List.mem_map_of_mem hw), h2⟩

theorem storeAndGo_of_lt {ws : List FrameWrite} {c : Byte} {s : State} (h : ∀ w ∈ ws, w.addr < s.cfg.l.toNat) :
    storeAndGo ws c s = .next ((s.stored ws).goto c) :=
  guardFrame_of_lt fun a ha => by
    obtain ⟨w, hw, rfl⟩ := List.mem_map.1 ha
    exact h w hw

/-! ### The sensor stores -/

/-- Everything a `FB_SENS_*` operation can do: ILLEGAL_OP, READING_RANGE, the stop of log 11, or its stores. -/
theorem sensStore_cases (kind : Kind) (fields : List FieldSpec) (s : State) :
    (s.cfg.kind ≠ kind ∧ sensStore kind fields s = .next (raiseFault s illegalOp (sensCode kind))) ∨
    (s.cfg.kind = kind ∧ ∃ d, putFields s.cfg.l.toNat s.snapRd fields = .error (.range d) ∧
      sensStore kind fields s = .next (raiseFault s readingRange d)) ∨
    (s.cfg.kind = kind ∧ ∃ a, putFields s.cfg.l.toNat s.snapRd fields = .error (.outside a) ∧
      sensStore kind fields s = .fault (.noFrameByte a)) ∨
    (s.cfg.kind = kind ∧ ∃ ws, putFields s.cfg.l.toNat s.snapRd fields = .ok ws ∧
      sensStore kind fields s = storeAndGo (ws ++ constWrites s.cfg.enc) 0x20 s) := by
  unfold sensStore
  split
  · exact .inl ⟨‹_›, rfl⟩
  · rename_i hk
    have hk : s.cfg.kind = kind := by simpa using hk
    refine .inr ?_
    split
    · exact .inl ⟨hk, _, ‹_›, rfl⟩
    · exact .inr (.inl ⟨hk, _, ‹_›, rfl⟩)
    · exact .inr (.inr ⟨hk, _, ‹_›, rfl⟩)

/-! ### The clock -/

/-- The clock never goes back (R45). -/
theorem le_later (t : Time) (d : Nat) : t ≤ later t d := by
  rw [BitVec.le_def, later, BitVec.toNat_ofNat]
  have := t.isLt
  rw [Nat.mod_eq_of_lt (by omega)]
  omega

@[simp] theorem later_zero (t : Time) : later t 0 = t := by
  apply BitVec.eq_of_toNat_eq
  rw [later, BitVec.toNat_ofNat]
  have := t.isLt
  rw [Nat.mod_eq_of_lt (by omega)]
  omega

/-- A sleep never takes the clock back. -/
theorem Env.now_le_slept (e : Env) (t : Time) : e.now ≤ (e.slept t).now := by
  rw [Env.slept_now]
  refine BitVec.le_trans ?_ (le_later _ _)
  split
  · assumption
  · exact BitVec.le_refl _

/-- A sleep ends at its deadline or later (R16, R144). -/
theorem Env.le_slept (e : Env) (t : Time) : t ≤ (e.slept t).now := by
  rw [Env.slept_now]
  refine BitVec.le_trans ?_ (le_later _ _)
  split
  · exact BitVec.le_refl _
  · rename_i h
    rw [BitVec.le_def] at *
    omega

/-- A sleep without an environment delay ends at `max(now, t)` (R144). -/
theorem Env.slept_now_of_zero {e : Env} (t : Time) (h : e.latencyAt 0 = 0) : (e.slept t).now = if e.now ≤ t then t else e.now := by
  rw [Env.slept_now, h, later_zero]

theorem Env.now_le_turned (timed : Bool) (e : Env) : e.now ≤ (e.turned timed).now := le_later _ _

/-- Before an encoder wait a turn without the reset event takes no time (R205). -/
theorem Env.turned_now_of_noReset {e : Env} (h : (e.turnAt 0).reset = false) : (e.turned false).now = e.now := by
  rw [Env.turned_now, Env.passing, h]
  exact later_zero _

/-- A sum that fits its register is exact. -/
theorem fit_of_lt {w v : Nat} (h : v < 2 ^ w) : (fit w v).toNat = v := by
  unfold fit
  rw [if_pos h, BitVec.toNat_ofNat, Nat.mod_eq_of_lt h]

/-! ### The scripts of the environment -/

theorem getD_tail {α : Type} (l : List α) (j : Nat) (d : α) : l.tail[j]?.getD d = l[j + 1]?.getD d := by
  cases l <;> simp

theorem Env.turnAt_turned (timed : Bool) (e : Env) (j : Nat) : (e.turned timed).turnAt j = e.turnAt (j + 1) := by
  unfold Env.turnAt
  rw [Env.turned_turns, Env.turned_turnIx, getD_tail, Nat.add_right_comm, Nat.add_assoc]

@[simp] theorem Env.latencyAt_turned (timed : Bool) (e : Env) (j : Nat) : (e.turned timed).latencyAt j = e.latencyAt j := rfl

@[simp] theorem Env.turnAt_slept (e : Env) (t : Time) (j : Nat) : (e.slept t).turnAt j = e.turnAt j := rfl

theorem Env.rngAt_rngTaken (e : Env) (j : Nat) : e.rngTaken.rngAt j = e.rngAt (j + 1) := by
  unfold Env.rngAt Env.rngTaken
  rw [getD_tail, Nat.add_right_comm, Nat.add_assoc]

theorem Env.latencyAt_slept (e : Env) (t : Time) (j : Nat) : (e.slept t).latencyAt j = e.latencyAt (j + 1) := by
  unfold Env.latencyAt
  rw [Env.slept_latency, Env.slept_latencyIx, getD_tail, Nat.add_right_comm, Nat.add_assoc]

@[simp] theorem Env.turnAt_rngTaken (e : Env) (j : Nat) : e.rngTaken.turnAt j = e.turnAt j := rfl

/-! ### The step -/

/-- Everything a step can do: its action's next state after the environment's turn, or its action's stop. -/
theorem step_eq_next {s t : State} (h : step s = .next t) : ∃ u, act s = .next u ∧ t = u.environment s.nextAction.takesTime := by
  unfold step at h
  cases hu : act s with
  | next u =>
    rw [hu] at h
    exact ⟨u, rfl, (Host.Outcome.next.inj h).symm⟩
  | fault r =>
    rw [hu] at h
    cases h
  | refused r =>
    rw [hu] at h
    cases h

theorem step_of_act {s u : State} (h : act s = .next u) : step s = .next (u.environment s.nextAction.takesTime) := by
  unfold step
  rw [h]
  rfl

/-- The reset event comes first (R180). -/
theorem State.nextAction_reset {s : State} (hr : s.env.resetReq = true) : s.nextAction = .run .reset := by
  rw [State.nextAction, if_pos hr]

theorem State.nextAction_run {s : State} {i : Instr} (hr : s.env.resetReq = false) (hd : decode s.seq = .ok i) :
    s.nextAction = .run i := by
  simp [State.nextAction, hr, hd]

theorem State.nextAction_illegal {s : State} {c : Byte} (hr : s.env.resetReq = false) (hd : decode s.seq = .error (.reserved c)) :
    s.nextAction = .illegal c := by
  simp [State.nextAction, hr, hd]

theorem State.nextAction_halted {s : State} (hr : s.env.resetReq = false) (hd : decode s.seq = .error .halted) :
    s.nextAction = .halted := by
  simp [State.nextAction, hr, hd]

/-- A step that performs an operation, or fails to. -/
theorem step_run {s : State} {i : Instr} (h : s.nextAction = .run i) : step s = withTurn (Action.run i).takesTime (exec i s) := by
  unfold step act
  rw [h]

theorem step_illegal {s : State} {c : Byte} (h : s.nextAction = .illegal c) :
    step s = .next ((raiseFault s illegalOp c).environment true) := by
  unfold step act
  rw [h]
  rfl

theorem step_halted {s : State} (h : s.nextAction = .halted) : step s = .next (s.environment true) := by
  unfold step act
  rw [h]
  rfl

/-- Everything an action can be: RESET on the event; without the event the operation of `SEQ`, ILLEGAL_OP for a reserved code, or nothing
while halted. -/
theorem act_cases (s : State) :
    (s.env.resetReq = true ∧ act s = exec .reset s) ∨
    (s.env.resetReq = false ∧ ∃ i, decode s.seq = .ok i ∧ act s = exec i s) ∨
    (s.env.resetReq = false ∧ ∃ c, decode s.seq = .error (.reserved c) ∧ act s = .next (raiseFault s illegalOp c)) ∨
    (s.env.resetReq = false ∧ decode s.seq = .error .halted ∧ act s = .next s) := by
  unfold act State.nextAction
  cases hr : s.env.resetReq with
  | true => exact .inl ⟨rfl, rfl⟩
  | false =>
    refine .inr ?_
    cases hd : decode s.seq with
    | ok i => exact .inl ⟨rfl, i, rfl, rfl⟩
    | error e =>
      cases e with
      | reserved c => exact .inr (.inl ⟨rfl, c, rfl, rfl⟩)
      | halted => exact .inr (.inr ⟨rfl, rfl, rfl⟩)

end Sys2Proof.Machine
end

