-- ==== Sys2Proof/Laws/Exec.lean ====
section
/-! SUPPORT. Everything a micro-operation can do, said once: the next states `exec` can answer, constructor by constructor; what a
list of stores leaves; and the run lemmas. -/

namespace Sys2Proof.Machine

/-! ### Stores -/

theorem mem_markAddr {k a : Nat} {l : List Nat} : a ∈ markAddr k l ↔ a = k ∨ a ∈ l := by
  induction l with
  | nil => simp [markAddr]
  | cons b l ih =>
    unfold markAddr
    split
    · simp
    · split
      · simp_all
      · simp only [List.mem_cons, ih]
        tauto

theorem mem_markAddrs {ks l : List Nat} {a : Nat} : a ∈ ks.foldl (fun l k => markAddr k l) l ↔ a ∈ ks ∨ a ∈ l := by
  induction ks generalizing l with
  | nil => simp
  | cons k ks ih =>
    simp only [List.foldl_cons, ih, mem_markAddr, List.mem_cons]
    tauto

/-- A list of stores changes the bytes it addresses, their marks and `SEQ`, nothing else. -/
theorem frameStored_stored (s : State) (ws : List FrameWrite) (c : Byte) (addrs : List Nat)
    (h : ∀ a, a ∈ ws.map FrameWrite.addr ↔ a ∈ addrs) : frameStored s ((s.stored ws).goto c) c addrs := by
  refine ⟨rfl, fun a ha => Memory.read_storeAll_other ?_, fun a => mem_markAddrs.trans (or_congr_left (h a))⟩
  rintro w hw rfl
  exact ha ((h _).1 (List.mem_map_of_mem hw))

/-! ### What `exec` can answer -/

/-- The operations that store to the frame buffer and then go on. -/
def storing : List Instr :=
  [.fbClear, .fbHdr, .fbId, .fbRoll, .fbSensUv, .fbSensWind, .fbSensTh, .fbSensRain, .ckStore]

/-- The next states of each operation from a state. -/
inductive Performs (s : State) : Instr → State → Prop
  | reset (u : State) (h : exec .reset s = .next u) : Performs s .reset u
  | validateBad (d : Byte) : Performs s .validate (raiseFault s configError d)
  | validateOk (h : configCheck s.cfg = none) :
    Performs s .validate { s with
      onUs := BitVec.ofInt 16 (onPhase s.cfg), written := { s.written with onUs := true }, seq := 0x03 }
  | drawBad : Performs s .drawRoll { s with env := s.env.rngTaken, seq := 0x03 }
  | drawOk (h : rollBad (s.env.rngAt 0) = false) :
    Performs s .drawRoll { s with
      env := s.env.rngTaken, roll := s.env.rngAt 0, written := { s.written with roll := true }, seq := 0x40 }
  | store (i : Instr) (ws : List FrameWrite) (c : Byte) (hi : i ∈ storing) (hc : c ∈ successors s.cfg.kind i) (hne : c ≠ 0xFF)
    (h : ∀ w ∈ ws, w.addr < s.cfg.l.toNat) : Performs s i ((s.stored ws).goto c)
  | sensIllegal (k : Kind) (h : s.cfg.kind ≠ k) : Performs s (Instr.sensOf k) (raiseFault s illegalOp (sensCode k))
  | sensRange (k : Kind) (d : Byte) (h : s.cfg.kind = k) : Performs s (Instr.sensOf k) (raiseFault s readingRange d)
  | ckSum (v : Byte) : Performs s .ckSum { s with sum := v, written := { s.written with sum := true }, seq := 0x21 }
  | ckCrc (v : Byte) : Performs s .ckCrc { s with crc := v, written := { s.written with crc := true }, seq := 0x22 }
  | encStart :
    Performs s .encStart { s.setLine .low with
      dl := s.env.now, bitix := 0, written := { s.written with dl := true, bitix := true }, seq := 0x31 }
  | encFirst (b : Bool) (h : s.bitix.toNat < 8 * s.cfg.l.toNat) :
    Performs s .encFirst { (s.sleepUntil s.dl).setLine (firstLevel b) with lastBit := b, seq := 0x32 }
  | encSecond (t d : Time) (b : BitVec 16) (h : s.bitix.toNat + 1 < 2 ^ 16 → b.toNat = s.bitix.toNat + 1) :
    Performs s .encSecond { (s.sleepUntil t).setLine (secondLevel s.lastBit) with
      dl := d, bitix := b, written := { s.written with dl := true, bitix := true }
      seq := if b.toNat = 8 * s.cfg.l.toNat then 0x33 else 0x31 }
  | encEnd (u : State) (h : u = s.sleepUntil s.dl ∨ ∃ t, u = (s.sleepUntil s.dl).sleepUntil t) :
    Performs s .encEnd ((u.setLine .low).goto (if s.cfg.logPresent then 0x50 else 0x42))
  | tickWait (h : s.env.tickReq = 0) : Performs s .schTick s
  | tick (h : s.env.tickReq ≠ 0) :
    Performs s .schTick { s with
      env := { s.env with tickReq := s.env.tickReq - 1 }, elapsed := s.elapsed + 1, sphase := .pending, seq := 0x41 }
  | fire : Performs s .schEval { s with snapRd := s.env.reading, snapBatt := s.env.batt, sphase := .sent, seq := 0x10 }
  | idle : Performs s .schEval { s with sphase := .idle, seq := 0x40 }
  | done : Performs s .schDone { s with sphase := .idle, seq := 0x40 }
  | log (l : List DebugRecord) : Performs s .dbgLog { s with log := l, seq := 0x42 }

theorem performs_store {s t : State} {i : Instr} {ws : List FrameWrite} {c : Byte} (hi : i ∈ storing)
    (hc : c ∈ successors s.cfg.kind i) (hne : c ≠ 0xFF) (h : storeAndGo ws c s = .next t) : Performs s i t := by
  obtain ⟨ha, rfl⟩ := storeAndGo_eq_next h
  exact .store _ _ _ hi hc hne ha

theorem performs_sens {s t : State} {k : Kind} {fs : List FieldSpec} (h : sensStore k fs s = .next t) :
    Performs s (Instr.sensOf k) t := by
  rcases sensStore_cases k fs s with ⟨h1, h2⟩ | ⟨h1, d, -, h2⟩ | ⟨-, a, -, h2⟩ | ⟨-, ws, -, h2⟩ <;> rw [h2] at h
  · cases h
    exact .sensIllegal _ h1
  · cases h
    exact .sensRange _ _ h1
  · cases h
  · exact performs_store (by cases k <;> decide) (by cases k <;> simp [successors, Instr.sensOf]) (by decide) h

/-- Every next state of `exec` is one of `Performs`. -/
theorem performs_of_exec {s t : State} (i : Instr) (h : exec i s = .next t) : Performs s i t := by
  cases i
  case reset => exact .reset _ h
  case validate =>
    change execValidate s = _ at h
    unfold execValidate at h
    split at h
    · cases h
      exact .validateBad _
    · cases h
      exact .validateOk ‹_›
  case drawRoll =>
    change execDrawRoll s = _ at h
    unfold execDrawRoll at h
    by_cases hb : rollBad (s.env.rngAt 0) = true
    · simp only [hb, if_true] at h
      cases h
      exact .drawBad
    · simp only [hb] at h
      cases h
      exact .drawOk (by simpa using hb)
  case fbClear => exact performs_store (by decide) (by simp [successors]) (by decide) h
  case fbHdr => exact performs_store (by decide) (by simp [successors]) (by decide) h
  case fbId => exact performs_store (by decide) (by simp [successors]) (by decide) h
  case fbRoll =>
    exact performs_store (by decide) (by cases hk : s.cfg.kind <;> decide) (by cases s.cfg.kind <;> decide) h
  case fbSensUv => exact performs_sens (k := .uv) h
  case fbSensWind => exact performs_sens (k := .wind) h
  case fbSensTh => exact performs_sens (k := .th) h
  case fbSensRain => exact performs_sens (k := .rain) h
  case ckSum =>
    have := (guardFrame_eq_next h).2
    subst this
    exact .ckSum _
  case ckCrc =>
    have := (guardFrame_eq_next h).2
    subst this
    exact .ckCrc _
  case ckStore => exact performs_store (by decide) (by simp [successors]) (by decide) h
  case encStart =>
    cases h
    exact .encStart
  case encFirst =>
    obtain ⟨ha, rfl⟩ := guardFrame_eq_next h
    exact .encFirst _ (by have := ha _ (List.mem_singleton.2 rfl); omega)
  case encSecond =>
    cases h
    exact .encSecond _ _ _ fit_of_lt
  case encEnd =>
    change execEncEnd s = _ at h
    unfold execEncEnd at h
    cases h
    refine .encEnd _ ?_
    split
    · exact .inr ⟨_, rfl⟩
    · exact .inl rfl
  case schTick =>
    change execSchTick s = _ at h
    unfold execSchTick at h
    split at h
    · cases h
      exact .tickWait ‹_›
    · cases h
      exact .tick ‹_›
  case schEval =>
    change execSchEval s = _ at h
    unfold execSchEval at h
    split at h
    · cases h
      exact .fire
    · cases h
      exact .idle
  case schDone =>
    cases h
    exact .done
  case dbgLog =>
    cases h
    exact .log _

/-- What an operation does to `ELAPSED`: only RESET and an accepted tick write it (R83, R149). -/
theorem Performs.elapsed {s t : State} {i : Instr} (h : Performs s i t) :
    t.elapsed = if i = .reset then 0 else if i = .schTick ∧ s.env.tickReq ≠ 0 then s.elapsed + 1 else s.elapsed := by
  cases h
  case reset h =>
    cases h
    rfl
  case store ws c _ _ hi _ =>
    simp only [storing, List.mem_cons, List.not_mem_nil, or_false] at hi
    rcases hi with rfl | rfl | rfl | rfl | rfl | rfl | rfl | rfl | rfl <;> rfl
  case sensIllegal k _ => cases k <;> simp [Instr.sensOf]
  case sensRange k _ _ => cases k <;> simp [Instr.sensOf]
  case encEnd u hu => rcases hu with rfl | ⟨_, rfl⟩ <;> rfl
  case tickWait h => simp [h]
  case tick h => simp [h]
  all_goals simp

theorem encode_sensOf_ne (k : Kind) : encode (Instr.sensOf k) ≠ 0x41 := by
  cases k <;> decide

/-- Only an accepted tick leads to `SCH_EVAL` (R158). -/
theorem Performs.seq_eq_eval {s t : State} {i : Instr} (h : Performs s i t) (hs : i = .schTick → s.seq ≠ 0x41) :
    t.seq = 0x41 ↔ i = .schTick ∧ s.env.tickReq ≠ 0 := by
  cases h
  case reset h =>
    cases h
    simp
  case store ws c _ _ hi hc =>
    simp only [storing, List.mem_cons, List.not_mem_nil, or_false] at hi
    rcases hi with rfl | rfl | rfl | rfl | rfl | rfl | rfl | rfl | rfl <;>
      simp only [successors, List.mem_cons, List.not_mem_nil, or_false] at hc <;>
      rcases hc with rfl | rfl <;> simp <;> exact encode_sensOf_ne _
  case sensIllegal k _ => cases k <;> simp [Instr.sensOf]
  case sensRange k _ _ => cases k <;> simp [Instr.sensOf]
  case encSecond => simp; split <;> decide
  case encEnd u hu => simp; split <;> decide
  case tickWait h => exact ⟨fun e => absurd e (hs rfl), fun e => absurd h e.2⟩
  case tick h => simp [h]
  all_goals simp

theorem encode_sensOf_ne_reset (k : Kind) : encode (Instr.sensOf k) ≠ 0x01 := by
  cases k <;> decide

/-- No operation leads to RESET (R158). -/
theorem Performs.seq_ne_reset {s t : State} {i : Instr} (h : Performs s i t) (hs : i = .schTick → s.seq ≠ 0x01) :
    t.seq ≠ 0x01 := by
  cases h
  case reset h =>
    cases h
    simp
  case store ws c _ _ hi hc =>
    simp only [storing, List.mem_cons, List.not_mem_nil, or_false] at hi
    rcases hi with rfl | rfl | rfl | rfl | rfl | rfl | rfl | rfl | rfl <;>
      simp only [successors, List.mem_cons, List.not_mem_nil, or_false] at hc <;>
      rcases hc with rfl | rfl <;> simp <;> exact encode_sensOf_ne_reset _
  case sensIllegal k _ => cases k <;> simp [Instr.sensOf]
  case sensRange k _ _ => cases k <;> simp [Instr.sensOf]
  case encSecond => simp; split <;> decide
  case encEnd u hu => simp; split <;> decide
  case tickWait => exact hs rfl
  all_goals simp

/-! ### Runs -/

theorem steps_succ {s t : State} (h : step s = .next t) (n : Nat) : steps (n + 1) s = steps n t := by
  simp [steps, h]

/-- A run of `m` steps and then `n` more. -/
theorem steps_add {m : Nat} {s t : State} (h : steps m s = .next t) (n : Nat) : steps (m + n) s = steps n t := by
  induction m generalizing s with
  | zero =>
    cases h
    rw [Nat.zero_add]
  | succ m ih =>
    cases hs : step s with
    | next u =>
      rw [steps_succ hs] at h
      rw [Nat.add_right_comm, steps_succ hs]
      exact ih h
    | fault r => simp [steps, hs] at h
    | refused r => simp [steps, hs] at h

end Sys2Proof.Machine
end

