-- ==== Sys2Proof/Laws/PerInstr.lean ====
section
/-! SUPPORT. What holds of every micro-operation as syntax, one lemma per constructor. -/

/-- The decoder reads an operation's code as that operation (spec/30_encoding.md R73). -/
def Sys2Proof.Laws.RoundTrip.Statement (i : Sys2Proof.Instr) : Prop := Sys2Proof.decode (Sys2Proof.encode i) = .ok i

theorem Sys2Proof.Laws.RoundTrip.reset : Sys2Proof.Laws.RoundTrip.Statement .reset := rfl
theorem Sys2Proof.Laws.RoundTrip.validate : Sys2Proof.Laws.RoundTrip.Statement .validate := rfl
theorem Sys2Proof.Laws.RoundTrip.drawRoll : Sys2Proof.Laws.RoundTrip.Statement .drawRoll := rfl
theorem Sys2Proof.Laws.RoundTrip.fbClear : Sys2Proof.Laws.RoundTrip.Statement .fbClear := rfl
theorem Sys2Proof.Laws.RoundTrip.fbHdr : Sys2Proof.Laws.RoundTrip.Statement .fbHdr := rfl
theorem Sys2Proof.Laws.RoundTrip.fbId : Sys2Proof.Laws.RoundTrip.Statement .fbId := rfl
theorem Sys2Proof.Laws.RoundTrip.fbRoll : Sys2Proof.Laws.RoundTrip.Statement .fbRoll := rfl
theorem Sys2Proof.Laws.RoundTrip.fbSensUv : Sys2Proof.Laws.RoundTrip.Statement .fbSensUv := rfl
theorem Sys2Proof.Laws.RoundTrip.fbSensWind : Sys2Proof.Laws.RoundTrip.Statement .fbSensWind := rfl
theorem Sys2Proof.Laws.RoundTrip.fbSensTh : Sys2Proof.Laws.RoundTrip.Statement .fbSensTh := rfl
theorem Sys2Proof.Laws.RoundTrip.fbSensRain : Sys2Proof.Laws.RoundTrip.Statement .fbSensRain := rfl
theorem Sys2Proof.Laws.RoundTrip.ckSum : Sys2Proof.Laws.RoundTrip.Statement .ckSum := rfl
theorem Sys2Proof.Laws.RoundTrip.ckCrc : Sys2Proof.Laws.RoundTrip.Statement .ckCrc := rfl
theorem Sys2Proof.Laws.RoundTrip.ckStore : Sys2Proof.Laws.RoundTrip.Statement .ckStore := rfl
theorem Sys2Proof.Laws.RoundTrip.encStart : Sys2Proof.Laws.RoundTrip.Statement .encStart := rfl
theorem Sys2Proof.Laws.RoundTrip.encFirst : Sys2Proof.Laws.RoundTrip.Statement .encFirst := rfl
theorem Sys2Proof.Laws.RoundTrip.encSecond : Sys2Proof.Laws.RoundTrip.Statement .encSecond := rfl
theorem Sys2Proof.Laws.RoundTrip.encEnd : Sys2Proof.Laws.RoundTrip.Statement .encEnd := rfl
theorem Sys2Proof.Laws.RoundTrip.schTick : Sys2Proof.Laws.RoundTrip.Statement .schTick := rfl
theorem Sys2Proof.Laws.RoundTrip.schEval : Sys2Proof.Laws.RoundTrip.Statement .schEval := rfl
theorem Sys2Proof.Laws.RoundTrip.schDone : Sys2Proof.Laws.RoundTrip.Statement .schDone := rfl
theorem Sys2Proof.Laws.RoundTrip.dbgLog : Sys2Proof.Laws.RoundTrip.Statement .dbgLog := rfl
end

