-- ==== Sys2Proof/Laws/Sensors.lean ====
section
/-! SUPPORT. What the sensor stores write: a field's writes as pairs of a frame nibble and a value, and what `put` and the field loop answer
for values in and out of their domain. -/

namespace Sys2Proof.Machine

/-- A nibble after stores to distinct nibbles: the value stored to it, or its old value. -/
theorem Memory.nib_storeAll_nibs (ps : List (Nat × Nibble)) (m : Memory) (i : Nat) (hnd : (ps.map Prod.fst).Nodup) :
    (m.storeAll (ps.map fun p => FrameWrite.nib p.1 p.2)).nib i = ((ps.find? fun p => p.1 = i).map Prod.snd).getD (m.nib i) := by
  induction ps generalizing m with
  | nil => rfl
  | cons p ps ih =>
    simp only [List.map_cons, List.nodup_cons] at hnd
    simp only [List.map_cons, Memory.storeAll_cons, ih _ hnd.2]
    by_cases h : p.1 = i
    · have : ps.find? (fun p => p.1 = i) = none := by
        rw [List.find?_eq_none]; intro x hx he
        apply hnd.1; rw [h]; simp at he; rw [← he]; exact List.mem_map_of_mem hx
      rw [this]
      simp [h, Memory.store, Memory.nib_nibWrite]
    · simp only [List.find?_cons_of_neg (p := fun q : Nat × Nibble => decide (q.1 = i)) (a := p) (by simpa using h), Memory.store, Memory.nib_nibWrite]
      congr 1
      rw [if_neg (by omega)]

/-- The writes of a field as pairs of a frame nibble and a value (R110). -/
def fieldPairs (f : FieldSpec) (v : Int) : List (Nat × Nibble) :=
  (match f.form with
  | .bin => [(sensorStart + f.offset, BitVec.ofNat 4 v.natAbs)]
  | .bcd d o => (List.range d).map fun k => (sensorStart + digitPos o f.offset d k, BitVec.ofNat 4 (digit k v.natAbs))) ++
  f.signAt.toList.map fun i => (sensorStart + i, signNib v)

/-- `put` on a value in its domain (R110). -/
theorem putField_of_fits (f : FieldSpec) (v : Int) (h : fieldFits f v = true) : putField f v = .ok ((fieldPairs f v).map fun p => .nib p.1 p.2) := by
  unfold fieldFits at h; unfold putField fieldPairs signWrites
  simp only [Bool.and_eq_true, Bool.or_eq_true, decide_eq_true_eq] at h
  rw [if_neg]
  · cases hf : f.form with
    | bin => simp only [hf, decide_eq_true_eq] at h; simp only; rw [if_neg (by omega)]; simp [Function.comp_def]
    | bcd d o => simp only [hf, decide_eq_true_eq] at h; simp only; rw [if_neg (by omega)]; simp [Function.comp_def]
  · rintro ⟨h1, h2⟩; simp [h1] at h; omega

/-- `put` on a value out of its domain raises READING_RANGE with the field's detail (R173). -/
theorem putField_of_not_fits (f : FieldSpec) (v : Int) (h : fieldFits f v = false) : putField f v = .error (rangeDetail f v) := by
  unfold fieldFits at h; unfold putField rangeDetail
  by_cases hc : f.signAt = none ∧ v < 0
  · simp [hc]
  · rw [if_neg hc, if_neg hc]
    have hs : (f.signAt.isSome || decide (0 ≤ v)) = true := by
      cases hq : f.signAt with
      | none => simp [hq] at hc; simp; omega
      | some => simp
    rw [hs, Bool.true_and] at h
    cases hf : f.form with
    | bin => simp only [hf, decide_eq_false_iff_not] at h; simp only; rw [if_pos (by omega)]
    | bcd d o => simp only [hf, decide_eq_false_iff_not] at h; simp only; rw [if_pos (by omega)]

theorem digitPos_lt (o off d k) (h : k < d) : off ≤ digitPos o off d k ∧ digitPos o off d k < off + d := by
  cases o <;> simp [digitPos] <;> omega
/-- The frame nibbles a field writes are those it takes (R109). -/
theorem mem_fieldPairs (f : FieldSpec) (v) (i) : i ∈ (fieldPairs f v).map Prod.fst ↔ ∃ m ∈ (fieldTakes f), i = sensorStart + m := by
  unfold fieldPairs fieldTakes
  cases hf : f.form with
  | bin => simp [or_and_right, exists_or]; cases f.signAt <;> simp [eq_comm]
  | bcd d o =>
    simp only [List.map_append, List.map_map, List.mem_append, List.mem_map, List.mem_range, Function.comp, or_and_right, exists_or]
    refine or_congr ?_ ?_
    · constructor
      · rintro ⟨k, hk, rfl⟩
        have := digitPos_lt o f.offset d k hk
        exact ⟨_, ⟨digitPos o f.offset d k - f.offset, by omega, rfl⟩, by omega⟩
      · rintro ⟨m, ⟨k, hk, rfl⟩, rfl⟩
        cases o
        · exact ⟨k, hk, rfl⟩
        · exact ⟨d - 1 - k, by omega, by simp [digitPos]; omega⟩
    · constructor
      · rintro ⟨k, hk, rfl⟩; exact ⟨k, hk, rfl⟩
      · rintro ⟨k, hk, rfl⟩; exact ⟨k, hk, rfl⟩

/-- A field that lies in its encoder's range writes inside the frame. -/
theorem fieldPairs_addr_lt (f : FieldSpec) (v) (l n) (hb : 15 + n ≤ 2 * l) (ht : ∀ m ∈ (fieldTakes f), m < n) :
    ∀ w ∈ (fieldPairs f v).map (fun p => FrameWrite.nib p.1 p.2), w.addr < l := by
  intro w hw
  obtain ⟨p, hp, rfl⟩ := List.mem_map.1 hw
  obtain ⟨m, hm, e⟩ := (mem_fieldPairs f v p.1).1 (List.mem_map_of_mem hp)
  have := ht m hm
  simp only [FrameWrite.addr, e, sensorStart]; omega

/-- The field loop with every value in its domain. -/
theorem putFields_of_fits (l n) (rd : Reading) (fs : List FieldSpec) (hb : 15 + n ≤ 2 * l) (ht : ∀ f ∈ fs, ∀ m ∈ (fieldTakes f), m < n)
    (hfit : ∀ f ∈ fs, fieldFits f (readField rd f.input) = true) :
    putFields l rd fs = .ok ((fs.flatMap fun f => fieldPairs f (readField rd f.input)).map fun p => .nib p.1 p.2) := by
  induction fs with
  | nil => rfl
  | cons f fs ih =>
    unfold putFields
    rw [putField_of_fits _ _ (hfit f (by simp))]
    have : outside l (((fieldPairs f (readField rd f.input)).map fun p => FrameWrite.nib p.1 p.2).map FrameWrite.addr) = none := by
      rw [outside_eq_none_iff]; intro a ha
      obtain ⟨w, hw, rfl⟩ := List.mem_map.1 ha
      exact fieldPairs_addr_lt f _ l n hb (ht f (by simp)) w hw
    simp only [this]
    rw [ih (fun g hg => ht g (by simp [hg])) (fun g hg => hfit g (by simp [hg]))]
    simp
/-- The field loop stops at the first value out of its domain (R180). -/
theorem putFields_of_not_fits (l n) (rd : Reading) (b a : List FieldSpec) (f) (hb : 15 + n ≤ 2 * l) (ht : ∀ g ∈ b, ∀ m ∈ (fieldTakes g), m < n)
    (hfit : ∀ g ∈ b, fieldFits g (readField rd g.input) = true) (hf : fieldFits f (readField rd f.input) = false) :
    putFields l rd (b ++ f :: a) = .error (.range (rangeDetail f (readField rd f.input))) := by
  induction b with
  | nil => simp [putFields, putField_of_not_fits _ _ hf]
  | cons g b ih =>
    rw [List.cons_append]; unfold putFields
    rw [putField_of_fits _ _ (hfit g (by simp))]
    have : outside l (((fieldPairs g (readField rd g.input)).map fun p => FrameWrite.nib p.1 p.2).map FrameWrite.addr) = none := by
      rw [outside_eq_none_iff]; intro x ha
      obtain ⟨w, hw, rfl⟩ := List.mem_map.1 ha
      exact fieldPairs_addr_lt g _ l n hb (ht g (by simp)) w hw
    simp only [this]
    rw [ih (fun h hg => ht h (by simp [hg])) (fun h hg => hfit h (by simp [hg]))]

/-! ### Addresses outside the frame (R53, log 11) -/

/-- The byte addresses of a field's writes. -/
theorem map_addr_fieldPairs (f : FieldSpec) (v : Int) :
    ((fieldPairs f v).map fun p => FrameWrite.nib p.1 p.2).map FrameWrite.addr = fieldAddrs f := by
  unfold fieldPairs fieldAddrs
  cases f.form <;> simp [Function.comp_def, FrameWrite.addr]

/-- The byte addresses of the constants' writes. -/
theorem map_addr_constWrites (enc : Encoder) : (constWrites enc).map FrameWrite.addr = constAddrs enc := by
  simp [constWrites, constAddrs, Function.comp_def, FrameWrite.addr]

/-- The field loop on fields in their domains: it stops at their first address outside the frame, and with none it goes on. -/
theorem putFields_append (l : Nat) (rd : Reading) (fs after : List FieldSpec)
    (hfit : ∀ f ∈ fs, fieldFits f (readField rd f.input) = true) :
    putFields l rd (fs ++ after) =
      match outside l (fs.flatMap fieldAddrs), putFields l rd after with
      | some a, _ => .error (.outside a)
      | none, .error e => .error e
      | none, .ok ws => .ok ((fs.flatMap fun f => (fieldPairs f (readField rd f.input)).map fun p => FrameWrite.nib p.1 p.2) ++ ws) := by
  induction fs with
  | nil =>
    simp only [List.nil_append, List.flatMap_nil, outside, List.find?_nil]
    cases putFields l rd after <;> rfl
  | cons f fs ih =>
    rw [List.cons_append, putFields, putField_of_fits _ _ (hfit f (by simp))]
    simp only [map_addr_fieldPairs, List.flatMap_cons]
    rw [ih fun g hg => hfit g (by simp [hg])]
    unfold outside
    rw [List.find?_append]
    cases (fieldAddrs f).find? fun a => decide (l ≤ a) with
    | some a => rfl
    | none =>
      cases (fs.flatMap fieldAddrs).find? fun a => decide (l ≤ a) with
      | some a => rfl
      | none => cases putFields l rd after <;> simp

end Sys2Proof.Machine
end

