-- ==== Sys2Proof/Tests/Slice0.lean ====
section
/-! SUPPORT. Tests: expected results are from spec/95_test_vectors.md (the vector's name stands in each comment) or from the rule named; and
for every statement with hypotheses a state and operands that meet them. -/

namespace Sys2Proof.Tests

open Sys2Proof.Machine

/-! ### Small states -/

/-- The next state of an outcome, if it is one. -/
def nextOf : Result → Option State
  | .next t => some t
  | .fault _ => none
  | .refused _ => none

/-- The byte a stop names, if it is one. -/
def stopOf : Result → Option Nat
  | .fault (.noFrameByte a) => some a
  | .next _ => none
  | .refused _ => none

/-- Profile `EX_B` (spec/95_test_vectors.md section 2). -/
def exB : Profile := { Profile.exA with k := 12, l := 12, enc := { nibbles := 4, fields := [], consts := [] } }

/-- The temperature field of `EX_T`. -/
def tempField : FieldSpec := { input := .temp, form := .bcd 3 .lsdFirst, offset := 0, signAt := some 3 }

/-- The humidity field of `EX_T`. -/
def humField : FieldSpec := { input := .hum, form := .bcd 2 .lsdFirst, offset := 4, signAt := none }

/-- Profile `EX_T`. -/
def exT : Profile :=
  { kind := .th, sensorId := 0x1234, channel := 3, k := 14, l := 13, interval := 47, fnum := 3, fden := 2, shorten := 0
    enc := { nibbles := 6, fields := [tempField, humField], consts := [] }, logPresent := true }

/-- A rain profile with the field of FBO-17 and a constant nibble. -/
def exRain : Profile :=
  { exT with
    kind := .rain
    enc := { nibbles := 6, fields := [{ input := .total, form := .bcd 4 .lsdFirst, offset := 0, signAt := none }]
             consts := [{ offset := 5, value := 0xC }] } }

/-- A wind profile with the field of FBO-19. -/
def exWind : Profile :=
  { exT with
    kind := .wind
    enc := { nibbles := 6, fields := [{ input := .avg, form := .bcd 3 .lsdFirst, offset := 0, signAt := none }], consts := [] } }

/-- A UV reading. -/
def uv (n : Int) : Reading := { Reading.zero with uv := n }

/-- A temperature and humidity reading. -/
def th (t h : Int) : Reading := { Reading.zero with temp := t, hum := h }

/-- A turn in which nothing happens. -/
def quiet : Turn := { delay := 0, ticks := 0, reset := false, reading := Reading.zero, batt := false }

/-- A state of a profile at a code, with the next `n` turns and sleeps quiet. -/
def at' (p : Profile) (code : Byte) (n : Nat) : State :=
  { State.powerOn p with
    seq := code
    env := { Env.reset with turns := List.replicate n quiet, latency := List.replicate n 0 } }

/-- `EX_A` at a code, during a transmission. -/
def sentA (code : Byte) : State :=
  { at' Profile.exA code 0 with sphase := .sent, onUs := 458, roll := 0x12, snapRd := uv 1 }

/-- `EX_T` at `FB_SENS_TH` with a reading. -/
def sentT (r : Reading) : State := { at' exT 0x16 0 with sphase := .sent, onUs := 732, snapRd := r }

/-- The bytes of vector FB-1. -/
def fb1 : List Byte := [0xFF, 0xFF, 0xFF, 0xAD, 0x87, 0x41, 0x12, 0x01, 0x52, 0x03]

/-- A frame buffer of given bytes. -/
def frame (bs : List Byte) : Memory := Memory.ofBytes bs.length fun k => bs.getD k 0

/-- `EX_A` with FB-1 in the frame buffer, at a code of the encoder, with a quiet environment. -/
def encA (code : Byte) (now dl : Time) (bitix : BitVec 16) : State :=
  { sentA code with
    fb := frame fb1, dl := dl, bitix := bitix
    env := { Env.reset with now := now, latency := [0, 0] } }

/-! ### Well-formedness: ill-formed terms are refused -/

theorem test_wf_uv_under_wind : Instr.wellFormed .wind .fbSensUv = false := by decide
theorem test_wf_wind_under_uv : Instr.wellFormed .uv .fbSensWind = false := by decide
theorem test_wf_th_under_rain : Instr.wellFormed .rain .fbSensTh = false := by decide
theorem test_wf_rain_under_th : Instr.wellFormed .th .fbSensRain = false := by decide
theorem test_wf_others : ∀ k ∈ [Kind.uv, .wind, .th, .rain], (Instr.all.filter (Instr.wellFormed k ·)).length = 19 := by decide
theorem test_conforms_examples : ∀ p ∈ [Profile.exA, exB, exT, exRain, exWind], p.conforms = true := by decide
theorem test_conforms_no_nibbles :
    Profile.conforms { Profile.exA with enc := { nibbles := 0, fields := [], consts := [] } } = false := by decide
theorem test_conforms_many_nibbles :
    Profile.conforms { Profile.exA with enc := { nibbles := 248, fields := [], consts := [] } } = false := by decide
theorem test_conforms_other_kind :
    Profile.conforms { exT with enc := { nibbles := 6, fields := [{ humField with input := .rate }], consts := [] } } = false := by
  decide
theorem test_conforms_no_digits :
    Profile.conforms { exT with enc := { nibbles := 6, fields := [{ humField with form := .bcd 0 .lsdFirst }], consts := [] } } =
      false := by decide
theorem test_conforms_temp_without_sign :
    Profile.conforms { exT with enc := { nibbles := 6, fields := [{ tempField with signAt := none }], consts := [] } } = false := by
  decide
theorem test_conforms_rain_with_sign :
    Profile.conforms { exRain with
      enc := { nibbles := 6, fields := [{ input := .rate, form := .bin, offset := 0, signAt := some 1 }], consts := [] } } = false := by
  decide
theorem test_conforms_const_outside :
    Profile.conforms { Profile.exA with enc := { nibbles := 1, fields := [], consts := [{ offset := 1, value := 5 }] } } = false := by
  decide
theorem test_conforms_uv_with_field :
    Profile.conforms { Profile.exA with enc := { nibbles := 1, fields := [uvField], consts := [] } } = false := by decide

/-! ### Decoding: words written out from the opcode map (R73) -/

theorem test_decode_sys :
    [0b00000001, 0b00000010, 0b00000011].map (decodeTableWord 8) = [some .reset, some .validate, some .drawRoll] := by decide
theorem test_decode_fb :
    [0b00010000, 0b00010001, 0b00010010, 0b00010011].map (decodeTableWord 8) =
      [some .fbClear, some .fbHdr, some .fbId, some .fbRoll] := by decide
theorem test_decode_fb_sens :
    [0b00010100, 0b00010101, 0b00010110, 0b00010111].map (decodeTableWord 8) =
      [some .fbSensUv, some .fbSensWind, some .fbSensTh, some .fbSensRain] := by decide
theorem test_decode_ck :
    [0b00100000, 0b00100001, 0b00100010].map (decodeTableWord 8) = [some .ckSum, some .ckCrc, some .ckStore] := by decide
theorem test_decode_enc :
    [0b00110000, 0b00110001, 0b00110010, 0b00110011].map (decodeTableWord 8) =
      [some .encStart, some .encFirst, some .encSecond, some .encEnd] := by decide
theorem test_decode_sch :
    [0b01000000, 0b01000001, 0b01000010].map (decodeTableWord 8) = [some .schTick, some .schEval, some .schDone] := by decide
theorem test_decode_dbg : decodeTableWord 8 0b01010000 = some .dbgLog := by decide

/-- The ends of the reserved ranges of R76. -/
theorem test_decode_reserved :
    [0x00, 0x04, 0x0F, 0x18, 0x1F, 0x23, 0x2F, 0x34, 0x3F, 0x43, 0x4F, 0x51, 0x5F, 0x60, 0xFE].map (decodeTableWord 8) =
      List.replicate 15 none := by decide
theorem test_decode_halted : decode 0xFF = .error .halted := by decide
theorem test_mnemonics : Instr.all.map (fun i => ofMnemonic (mnemonic i).toList) = Instr.all.map some := by decide

/-- P1 of spec/95_test_vectors.md section 4: the listing's encoding. -/
theorem test_assemble_poweron :
    assemble "POWERON:\n  RESET        ; 0x01\n  VALIDATE     ; 0x02\n  (DRAW_ROLL) x3 ; 0x03" =
      some [0x01, 0x02, 0x03, 0x03, 0x03] := by decide

/-- The host's interface: the next step after placing a code runs it. -/
theorem test_fetch :
    [0x01, 0x10, 0x17, 0x22, 0x31, 0x40, 0x50].map
      (fun w => (nextOf (step (State.reset.withFetchWord 8 w))).map State.seq) =
      [some 0x02, some 0x11, some 0x20, some 0x30, some 0x32, some 0x41, some 0x42] := by decide

/-! ### Lifecycle -/

/-- LC-1. -/
theorem test_reset :
    (nextOf (exec .reset (raiseFault (at' Profile.exA 0x02 0) 0x1 0x04))).map
      (fun t => (t.elapsed, t.sphase, t.tx, t.seq, t.status)) = some (0, .idle, .low, 0x02, 0x0000) := by decide

/-- LC-2, LC-4, LC-15, LC-17: `ON_US`. -/
theorem test_validate_passes :
    [Profile.exA, exT, { Profile.exA with shorten := 487 }, { Profile.exA with fden := 3, shorten := 0 }].map
      (fun p => (nextOf (exec .validate (at' p 0x02 0))).map fun t => (t.onUs, t.seq)) =
      [some (458, 0x03), some (732, 0x03), some (1, 0x03), some (162, 0x03)] := by decide

/-- LC-5, LC-7, LC-8, LC-9, LC-11, LC-12, LC-13, LC-16, LC-19, LC-20, F-1. -/
theorem test_validate_fails :
    [{ Profile.exA with k := 7 }, { Profile.exA with k := 10 }, { Profile.exA with l := 9 }, { Profile.exA with l := 12 },
      { Profile.exA with interval := 0 }, { Profile.exA with fden := 0 }, { Profile.exA with fnum := 2, shorten := 0 },
      { Profile.exA with fnum := 0 }, { Profile.exA with enc := { nibbles := 1, fields := [], consts := [{ offset := 0, value := 5 }] } },
      { Profile.exA with k := 7, interval := 0 }].map
      (fun p => (nextOf (exec .validate (at' p 0x02 0))).map State.status) =
      [some 0x0111, some 0x0211, some 0x0311, some 0x0411, some 0x0511, some 0x0611, some 0x0711, some 0x0711, some 0x0811,
        some 0x0111] := by decide

/-- LC-22 to LC-25, from draws the environment has ready. -/
theorem test_draw_roll :
    [0x12, 0x00, 0xFF, 0x01, 0xFE].map
      (fun d => (nextOf (exec .drawRoll
        { at' Profile.exA 0x03 0 with env := { Env.reset with rng := [d, 0x55] } })).map fun t => (t.roll, t.seq, t.env.rng)) =
      [some (0x12, 0x40, [0x55]), some (0x00, 0x03, [0x55]), some (0x00, 0x03, [0x55]), some (0x01, 0x40, [0x55]),
        some (0xFE, 0x40, [0x55])] := by decide

/-! ### FrameBuilder -/

/-- FBO-1. -/
theorem test_fb_clear :
    (nextOf (exec .fbClear { sentA 0x10 with fb := frame fb1 })).map (fun t => (t.fb, t.seq)) = some ([], 0x11) := by decide

/-- FBO-2. -/
theorem test_fb_hdr :
    (nextOf (exec .fbHdr (sentA 0x11))).map (fun t => (t.fb.bytes 10, t.seq)) =
      some ([0xFF, 0xFF, 0xFF, 0xA0, 0, 0, 0, 0, 0, 0], 0x12) := by decide

/-- FBO-3. -/
theorem test_fb_id :
    (nextOf (exec .fbId { sentA 0x12 with fb := frame [0xFF, 0xFF, 0xFF, 0xA0] })).map (fun t => (t.fb.bytes 6, t.seq)) =
      some ([0xFF, 0xFF, 0xFF, 0xAD, 0x87, 0x41], 0x13) := by decide

/-- FBO-10 and FB-6: the channel is clamped. -/
theorem test_fb_id_clamps :
    [15, 16, 20, 255].map (fun c => (nextOf (exec .fbId
      { sentA 0x12 with cfg := { Profile.exA with channel := c } })).map fun t => t.fb.nib 11) = List.replicate 4 (some 0xF) := by
  decide

/-- FBO-4, FBO-5. -/
theorem test_fb_roll :
    [false, true].map (fun b => (nextOf (exec .fbRoll { sentA 0x13 with snapBatt := b })).map fun t =>
      (t.fb.read 6, t.fb.read 7, t.seq)) = [some (0x12, 0x00, 0x14), some (0x12, 0x80, 0x14)] := by decide

/-- FBO-6, R111: indices of 10 to 15 are written in binary. -/
theorem test_fb_sens_uv :
    [0, 1, 10, 15].map (fun u => (nextOf (exec .fbSensUv { sentA 0x14 with snapRd := uv u })).map fun t => (t.fb.read 7, t.seq)) =
      [some (0x00, 0x20), some (0x01, 0x20), some (0x0A, 0x20), some (0x0F, 0x20)] := by decide

/-- FBO-7, FBO-8, FBO-20, F-3. -/
theorem test_fb_sens_uv_faults :
    [uv 16, uv (-1)].map (fun r => (nextOf (exec .fbSensUv { sentA 0x14 with snapRd := r })).map fun t =>
      (t.status, t.fb, t.trace.length)) = [some (0x0123, [], 1), some (0x0323, [], 1)] ∧
    (nextOf (exec .fbSensWind (sentA 0x15))).map State.status = some 0x1533 := by decide

/-- FBO-19. -/
theorem test_fb_sens_wind :
    (nextOf (exec .fbSensWind { at' exWind 0x15 0 with snapRd := { Reading.zero with avg := 125 } })).map
      (fun t => [15, 16, 17].map t.fb.nib) = some [5, 2, 1] := by decide

/-- FBO-12, FBO-16. -/
theorem test_fb_sens_th :
    (nextOf (exec .fbSensTh (sentT (th (-999) 99)))).map (fun t => [15, 16, 17, 18, 19, 20].map t.fb.nib) =
      some [9, 9, 9, 8, 9, 9] ∧
    (nextOf (exec .fbSensTh { sentT (th (-123) 0) with
      cfg := { exT with enc := { exT.enc with fields := [{ tempField with form := .bcd 3 .msdFirst }] } } })).map
      (fun t => [15, 16, 17, 18].map t.fb.nib) = some [1, 2, 3, 8] := by decide

/-- FBO-11, FBO-14, FBO-15. -/
theorem test_fb_sens_th_faults :
    [th (-1000) 0, th (-1) 100, th 5 (-3)].map (fun r => (nextOf (exec .fbSensTh (sentT r))).map fun t => (t.fault.edetail, t.fb)) =
      [some (0x02, []), some (0x02, []), some (0x03, [])] := by decide

/-- FBO-17, with a constant nibble (R115), and FBO-18. -/
theorem test_fb_sens_rain :
    (nextOf (exec .fbSensRain { at' exRain 0x17 0 with snapRd := { Reading.zero with total := 5 } })).map
      (fun t => [15, 16, 17, 18, 19, 20].map t.fb.nib) = some [5, 0, 0, 0, 0, 0xC] ∧
    (nextOf (exec .fbSensRain { at' exRain 0x17 0 with snapRd := { Reading.zero with total := -1 } })).map
      (fun t => t.fault.edetail) = some 0x03 := by decide

/-! ### Whole frames, the pure function of R119 -/

set_option maxRecDepth 8192 in
/-- FB-1. -/
theorem test_frame_fb1 : frameOf Profile.exA 0x12 false (uv 1) = fb1 := by decide

set_option maxRecDepth 8192 in
/-- FB-5. -/
theorem test_frame_fb5 :
    frameOf Profile.exA 0x12 true (uv 1) = [0xFF, 0xFF, 0xFF, 0xAD, 0x87, 0x41, 0x12, 0x81, 0xD2, 0x9B] := by decide

set_option maxRecDepth 8192 in
/-- FB-8, the split case. -/
theorem test_frame_fb8 :
    frameOf exB 0x12 false (uv 1) = [0xFF, 0xFF, 0xFF, 0xAD, 0x87, 0x41, 0x12, 0x01, 0x00, 0x05, 0x2F, 0x30] := by decide

set_option maxRecDepth 8192 in
/-- FB-10. -/
theorem test_frame_fb10 :
    frameOf exT 0x5A true (th (-123) 45) =
      [0xFF, 0xFF, 0xFF, 0xA1, 0x23, 0x43, 0x5A, 0x83, 0x21, 0x85, 0x4B, 0x3C, 0xF0] := by decide

/-! ### Checksums -/

set_option maxRecDepth 8192 in
/-- CK-11 by CK_SUM and CK_CRC on FB-1. -/
theorem test_ck_sum_fb1 :
    (nextOf (exec .ckSum { sentA 0x20 with fb := frame fb1 })).map (fun t => (t.sum, t.seq)) = some (0x25, 0x21) := by decide
set_option maxRecDepth 8192 in
theorem test_ck_crc_fb1 :
    (nextOf (exec .ckCrc { sentA 0x21 with fb := frame fb1 })).map (fun t => (t.crc, t.seq)) = some (0x30, 0x22) := by decide

/-- FB-8: the half-covered final byte. -/
theorem test_ck_sum_even :
    (nextOf (exec .ckSum { at' exB 0x20 0 with
      fb := frame [0xFF, 0xFF, 0xFF, 0xAD, 0x87, 0x41, 0x12, 0x01, 0x00, 0xF5] })).map State.sum = some 0x34 := by decide

set_option maxRecDepth 8192 in
/-- CK-2, CK-4, CK-5, CK-7, CK-9, CK-10. -/
theorem test_crc_vectors :
    [[0, 1], [1, 0], [0xF], [8], List.replicate 8 0xF, List.replicate 30 0xF].map (fun ns => (sumOf ns, crcOf ns)) =
      [(0x01, 0x07), (0x01, 0x70), (0x0F, 0x2D), (0x08, 0x38), (0x78, 0xDE), (0xC2, 0x03)] := by decide

set_option maxRecDepth 8192 in
/-- CK-11 through the table form and the low-nibble form. -/
theorem test_crc_forms :
    crcByTable 0 [0xD, 8, 7, 4, 1, 1, 2, 0, 1] = 0x30 ∧ crcLowForm [0xD, 8, 7, 4, 1, 1, 2, 0, 1] = 0x30 := by decide

/-- CKS-1. -/
theorem test_ck_store_odd :
    (nextOf (exec .ckStore { sentA 0x22 with sum := 0x25, crc := 0x30 })).map (fun t => (t.fb.read 8, t.fb.read 9, t.seq)) =
      some (0x52, 0x03, 0x30) := by decide

/-- CKS-2. -/
theorem test_ck_store_even :
    (nextOf (exec .ckStore { at' exB 0x22 0 with sum := 0x25, crc := 0x3F, fb := frame [0, 0, 0, 0, 0, 0, 0, 0, 0, 0xA0] })).map
      (fun t => (t.fb.read 9, t.fb.read 10, t.fb.read 11)) = some (0xA5, 0x2F, 0x30) := by decide

/-! ### Line encoder -/

/-- ENC-1. -/
theorem test_enc_start :
    (nextOf (exec .encStart (encA 0x30 1000 7 9))).map (fun t => (setpoints t.trace, t.dl, t.bitix, t.seq)) =
      some ([(0, .low), (1000, .low)], 1000, 0, 0x31) := by decide

/-- ENC-2. -/
theorem test_enc_first_one :
    (nextOf (exec .encFirst (encA 0x31 1000 1000 0))).map (fun t => (setpoints t.trace, t.lastBit, t.tx, t.seq)) =
      some ([(0, .low), (1000, .high)], true, .high, 0x32) := by decide

/-- ENC-5, and ENC-10 for a delay of 100. -/
theorem test_enc_first_zero :
    (nextOf (exec .encFirst (encA 0x31 23500 24424 24))).map (fun t => (setpoints t.trace, t.lastBit)) =
      some ([(0, .low), (24424, .low)], false) ∧
    (nextOf (exec .encFirst { encA 0x31 1458 1976 1 with
      env := { Env.reset with now := 1458, latency := [100] } })).map (fun t => (setpoints t.trace, t.dl)) =
      some ([(0, .low), (2076, .high)], 1976) := by decide

/-- ENC-3. -/
theorem test_enc_second :
    (nextOf (exec .encSecond { encA 0x32 1000 1000 0 with lastBit := true, tx := .high })).map
      (fun t => (setpoints t.trace, t.dl, t.bitix, t.seq)) = some ([(0, .low), (1458, .low)], 1976, 1, 0x31) := by decide

/-- ENC-7 (the last bit), and ENC-11 (a target that has passed). -/
theorem test_enc_second_last :
    (nextOf (exec .encSecond { encA 0x32 78104 78104 79 with lastBit := false })).map
      (fun t => (setpoints t.trace, t.dl, t.bitix, t.seq)) = some ([(0, .low), (78562, .high)], 79080, 80, 0x33) ∧
    (nextOf (exec .encSecond { encA 0x32 1600 1000 0 with lastBit := true })).map (fun t => (setpoints t.trace, t.dl)) =
      some ([(0, .low), (1600, .low)], 1976) := by decide

/-- ENC-8, ENC-9. -/
theorem test_enc_end :
    [false, true].map (fun b => (nextOf (exec .encEnd { encA 0x33 78562 79080 80 with lastBit := b })).map fun t =>
      (setpoints t.trace, t.tx, t.seq)) =
      [some ([(0, .low), (79080, .low)], .low, 0x42), some ([(0, .low), (79568, .low)], .low, 0x42)] := by decide

/-- P6 (bit 29, then the reset event at 30000): the event comes after the turn's time, the encoder's operation itself takes none (R205). -/
theorem test_encoder_turn :
    [true, false].map (fun r => (nextOf (step { encA 0x32 29304 29304 29 with
      tx := .low, env := { Env.reset with now := 29304, latency := [0], turns := [{ quiet with delay := 238, reset := r }] } })).map
        fun t => (setpoints t.trace, t.env.now, t.nextAction)) =
      [some ([(0, .low), (29762, .high)], 30000, .run .reset), some ([(0, .low), (29762, .high)], 29762, .run .encFirst)] := by decide

/-- P3's record with a sink that is late by 5: the stamp is the final LOW's time only without delay (R164, R205). -/
theorem test_dbg_log_late :
    [0, 5].map (fun d => (nextOf (steps 2 { encA 0x33 78562 79080 80 with
      cfg := { Profile.exA with logPresent := true }
      env := { Env.reset with now := 78562, latency := [0], turns := [{ quiet with delay := d }, quiet] } })).map
        fun t => (setpoints t.trace, t.log.map DebugRecord.stamp)) =
      [some ([(0, .low), (79080, .low)], [79080]), some ([(0, .low), (79080, .low)], [79085])] := by decide

/-- R205: an operation of another unit takes the turn's time. -/
theorem test_processing_time :
    (nextOf (step { encA 0x22 500 0 0 with env := { Env.reset with now := 500, turns := [{ quiet with delay := 238 }] } })).map
      (fun t => (t.env.now, t.nextAction)) = some (738, .run .encStart) := by decide

/-- R158: with LOG_PRESENT the debug record is next. -/
theorem test_enc_end_log :
    (nextOf (exec .encEnd { at' exT 0x33 2 with lastBit := false })).map State.seq = some 0x50 := by decide

/-- Bits of FB-1 in line order (rows 3 and 8 of the table in section 3.5). -/
theorem test_line_bits :
    byteBits 0xAD = [false, true, false, true, true, false, true, true] ∧
    byteBits 0x52 = [true, false, true, false, false, true, false, false] ∧
    (List.range 8).map (fun j => (frame fb1).lineBit (24 + j)) = byteBits 0xAD := by decide

/-- The level samples of FB-1's first two bit periods in section 3.5. -/
theorem test_levels :
    [999, 1000, 1457, 1458, 1975, 1976].map (levelAt (wave (frameBits [0xFF]) 1000 458)) =
      [.low, .high, .high, .low, .low, .high] := by decide

/-- The decoding of section 3.5, for one byte. -/
theorem test_receiver : bytesOfBits (sampled (wave (frameBits [0xAD]) 1000 458) 1000 458 8) = [0xAD] := by decide

/-! ### Scheduler -/

/-- SCH-1, SCH-2. -/
theorem test_sch_tick :
    (nextOf (exec .schTick { at' Profile.exA 0x40 0 with elapsed := 13, env := { Env.reset with tickReq := 1 } })).map
      (fun t => (t.elapsed, t.sphase, t.env.tickReq, t.seq)) = some (14, .pending, 0, 0x41) ∧
    (nextOf (exec .schTick { at' Profile.exA 0x40 0 with elapsed := 13 })).map
      (fun t => (t.elapsed, t.sphase, t.env.tickReq, t.seq)) = some (13, .idle, 0, 0x40) := by decide

/-- SCH-6. -/
theorem test_sch_tick_wraps :
    (nextOf (exec .schTick { at' Profile.exA 0x40 0 with elapsed := 0xFFFFFFFF, env := { Env.reset with tickReq := 1 } })).map
      (fun t => (t.elapsed, (nextOf (exec .schEval t)).map State.seq)) = some (0, some 0x10) := by decide

/-- SCH-3. -/
theorem test_sch_eval_fires :
    (nextOf (exec .schEval { at' Profile.exA 0x41 0 with
      elapsed := 14, sphase := .pending, env := { Env.reset with reading := uv 1, batt := true } })).map
      (fun t => (t.snapRd.uv, t.snapBatt, t.sphase, t.seq)) = some (1, true, .sent, 0x10) := by decide

/-- SCH-4. -/
theorem test_sch_eval_idle :
    (nextOf (exec .schEval { at' Profile.exA 0x41 0 with
      elapsed := 15, sphase := .pending, env := { Env.reset with reading := uv 1, batt := true } })).map
      (fun t => (t.snapRd.uv, t.snapBatt, t.sphase, t.seq)) = some (0, false, .idle, 0x40) := by decide

/-- SCH-8. -/
theorem test_sch_done : (nextOf (exec .schDone (sentA 0x42))).map (fun t => (t.sphase, t.seq)) = some (.idle, 0x40) := by decide

/-! ### Debug sink -/

/-- DBG-1. -/
theorem test_dbg_log :
    (nextOf (exec .dbgLog { encA 0x50 79080 0 80 with cfg := { Profile.exA with logPresent := true } })).map
      (fun t => (t.log.map fun r => (r.stamp, r.bytes), t.seq)) =
      some ([(79080, "FF FF FF AD 87 41 12 01 52 03")], 0x42) := by decide

/-! ### Faults, status view, reset event -/

/-- F-5, F-6. -/
theorem test_illegal_op :
    (nextOf (act (at' Profile.exA 0x60 0))).map (fun t => (t.status, t.trace.length)) = some (0x6031, 1) ∧
    (nextOf (act { encA 0x60 1100 1000 0 with tx := .high })).map (fun t => (t.status, setpoints t.trace)) =
      some (0x6033, [(0, .low), (1100, .low)]) := by decide

/-- F-7, F-8: halted, a tick changes nothing; the reset event runs RESET and discards the tick. -/
theorem test_halted :
    (nextOf (step { raiseFault (at' Profile.exA 0x02 1) 0x1 0x04 with
      env := { Env.reset with tickReq := 1, turns := [quiet] } })).map (fun t => (t.status, t.seq, t.env.tickReq)) =
      some (0x0411, 0xFF, 1) ∧
    (nextOf (step { raiseFault (at' Profile.exA 0x02 1) 0x1 0x04 with
      env := { Env.reset with tickReq := 1, resetReq := true, turns := [quiet] } })).map (fun t => (t.status, t.seq, t.env.tickReq)) =
      some (0x0000, 0x02, 0) := by decide

/-- R50: a read before the first write is refused, a listed number answers, an unlisted one and a write are refused. -/
theorem test_status_view :
    viewRead State.reset 0x02 = .error (.viewUnwritten 0x02) ∧ viewRead State.reset 0x11 = .ok 0xD874 ∧
    viewRead State.reset 0x2A = .error (.viewNumber 0x2A) ∧ viewRead State.reset 0x09 = .error (.viewNumber 0x09) := by decide

/-! ### Witnesses: states and operands that meet the hypotheses of each statement -/

/-- The invariant as a check on a state. -/
def invCheck (s : State) : Bool :=
  s.fb.wf && s.fb.within s.cfg.l.toNat &&
  (match decode s.seq with
    | .ok i => i.wellFormed s.cfg.kind && decide (i ≠ .reset)
    | .error .halted => true
    | .error (.reserved _) => false) &&
  (s.fault.halted == decide (s.seq = 0xFF)) &&
  (s.fault.halted || decide (s.fault = FaultReg.clear)) &&
  (!s.fault.halted || decide ((s.fault.ecode = configError ∧ s.sphase = .idle) ∨ (s.fault.ecode = readingRange ∧ s.sphase = .sent))) &&
  (match phaseOf s.seq with | some p => decide (s.sphase = p) | none => true) &&
  (decide (s.seq = 0x02 ∨ s.seq = 0xFF) || (validProfile s.cfg && decide ((s.onUs.toNat : Int) = onPhase s.cfg))) &&
  (decide (s.seq = 0x02 ∨ s.seq = 0x03 ∨ s.seq = 0xFF) || !rollBad s.roll) &&
  (!decide (s.seq = 0x31 ∨ s.seq = 0x32) || decide (s.bitix.toNat < 8 * s.cfg.l.toNat)) &&
  (!decide (s.seq = 0x33) || decide (s.bitix.toNat = 8 * s.cfg.l.toNat)) &&
  (if s.seq = 0x31 ∨ s.seq = 0x32 ∨ s.seq = 0x33 then decide (s.tx = encodeLevel s) else decide (s.tx = .low)) &&
  decide (s.trace.Pairwise fun p q => p.time ≤ q.time) && s.trace.all (fun p => decide (p.time ≤ s.env.now)) &&
  decide (s.trace.getLast?.map Setpoint.level = some s.tx)

theorem inv_of_check {s : State} (h : invCheck s = true) : s.Inv := by
  unfold invCheck at h
  simp only [Bool.and_eq_true] at h
  obtain ⟨⟨⟨⟨⟨⟨⟨⟨⟨⟨⟨⟨⟨⟨h1, h2⟩, h3⟩, h4⟩, h5⟩, h6⟩, h7⟩, h8⟩, h9⟩, h10⟩, h11⟩, h12⟩, h13⟩, h14⟩, h15⟩ := h
  have hh : s.fault.halted = true ↔ s.seq = 0xFF := by
    rw [beq_iff_eq.1 h4, decide_eq_true_eq]
  refine ⟨h1, h2, ?_, hh, ?_, ?_, ?_, ?_, ?_, ⟨?_, ?_⟩, ?_, ?_, ⟨by simpa using h13, by simpa using h14⟩, by simpa using h15⟩
  · cases hd : decode s.seq with
    | ok i =>
      simp only [hd, Bool.and_eq_true, decide_eq_true_eq] at h3
      exact .inr ⟨i, rfl, h3⟩
    | error e =>
      left
      by_contra hc
      unfold decode at hd
      rw [if_neg hc] at hd
      split at hd
      · cases hd
      · cases hd
        unfold decode at h3
        rw [if_neg hc] at h3
        simp_all
  · intro hf
    simpa [hf] using h5
  · intro hf
    simpa [hf] using h6
  · intro p hp
    simpa [hp] using h7
  · intro a b
    simp only [Bool.or_eq_true, Bool.and_eq_true, decide_eq_true_eq] at h8
    exact h8.resolve_left (not_or.2 ⟨a, b⟩)
  · intro a b c
    simp only [Bool.or_eq_true, Bool.not_eq_true', decide_eq_true_eq] at h9
    exact h9.resolve_left (not_or.2 ⟨a, not_or.2 ⟨b, c⟩⟩)
  · intro a
    simp only [Bool.or_eq_true, Bool.not_eq_true', decide_eq_true_eq, decide_eq_false_iff_not] at h10
    exact h10.resolve_left (fun n => n a)
  · intro a
    simp only [Bool.or_eq_true, Bool.not_eq_true', decide_eq_true_eq, decide_eq_false_iff_not] at h11
    exact h11.resolve_left (fun n => n a)
  · intro a
    unfold encoding at a
    rw [if_neg a] at h12
    simpa using h12
  · intro a
    unfold encoding at a
    rw [if_pos a] at h12
    simpa using h12

/-- A quiet environment brings no reset event. -/
theorem noReset_quiet {e : Env} {n : Nat} (h : e.turns = List.replicate n quiet) : e.noReset n := by
  intro j hj
  unfold Env.turnAt
  rw [h, List.getElem?_replicate, if_pos hj]
  rfl

/-- A quiet environment is the ideal model. -/
theorem ideal_quiet {e : Env} {n : Nat} (h : e.turns = List.replicate n quiet) (hl : e.latency = List.replicate n 0) :
    e.ideal n n := by
  refine ⟨noReset_quiet h, fun j hj => ?_⟩
  unfold Env.latencyAt
  rw [hl, List.getElem?_replicate, if_pos hj]
  rfl

/-- `EX_A` waiting for a tick, with one outstanding. -/
def waiting : State :=
  { at' Profile.exA 0x40 8 with
    onUs := 458, roll := 0x12, env := { Env.reset with tickReq := 1, turns := List.replicate 8 quiet } }

/-- `EX_A` with a tick to evaluate that fires. -/
def firing : State := { waiting with seq := 0x41, sphase := .pending, elapsed := 14 }

/-- `EX_A` with a tick to evaluate that does not fire. -/
def notFiring : State := { waiting with seq := 0x41, sphase := .pending, elapsed := 15 }

/-- `EX_A` at the end of a transmission. -/
def ending : State := { waiting with seq := 0x42, sphase := .sent }

/-- `EX_A` in the first phase of bit 0. -/
def sending : State :=
  { waiting with
    seq := 0x32, sphase := .sent, tx := .high, lastBit := true, fb := frame fb1, trace := [⟨0, .low⟩, ⟨0, .high⟩] }

/-- `EX_A` halted by a reading out of range. -/
def halted : State := { waiting with seq := 0xFF, sphase := .sent, fault := { halted := true, ecode := 0x2, edetail := 0x01 } }

theorem witness_inv : ∀ s ∈ [State.reset, waiting, firing, notFiring, ending, sending, halted], s.Inv := by
  intro s hs
  refine inv_of_check ?_
  revert s
  decide

theorem witness_StepRunsTheDecodedOperation :
    sending.env.resetReq = false ∧ decode sending.seq = .ok .encSecond ∧
    -- a state whose operation stops
    decode (sentA 0x11).seq = .ok .fbHdr ∧
    stopOf (exec .fbHdr { sentA 0x11 with cfg := { Profile.exA with l := 3 } }) = some 3 := by decide
theorem witness_ResetEventTakesPriority :
    { halted with env := { Env.reset with resetReq := true } }.env.resetReq = true := by decide
theorem witness_ReservedCodeRaisesIllegalOp :
    ∀ c ∈ [0x00, 0x04, 0x18, 0x60, 0xFE], (at' Profile.exA c 0).env.resetReq = false ∧ (at' Profile.exA c 0).seq ≠ 0xFF ∧
      ∀ i ∈ Instr.all, (at' Profile.exA c 0).seq ≠ encode i := by decide
theorem test_all_instructions (i : Instr) : i ∈ Instr.all := by cases i <;> decide
theorem witness_HaltedStepChangesNothing : halted.env.resetReq = false ∧ halted.seq = 0xFF := by decide
theorem witness_SensorCodeOfAnotherKindIsIllegal : ∀ k ∈ [Kind.wind, .th, .rain], k ≠ (sentA 0x14).cfg.kind := by decide

/-- What each check of VALIDATE says of a profile, in order. -/
def checks (p : Profile) : List Bool :=
  let k := p.k.toNat
  let l := p.l.toNat
  let t : Int := (488 * p.fnum.toNat / p.fden.toNat : Nat) - (p.shorten.toNat : Int)
  [decide (8 ≤ k), decide (k = 8 + p.enc.nibbles), decide (7 + k + 4 ≤ 2 * l), decide (2 * l ≤ 7 + k + 5), decide (p.interval ≠ 0),
    decide (p.fden ≠ 0), decide (1 ≤ t ∧ t ≤ 975), layoutOk p.kind p.enc]

/-- For each clause of the statement, a profile that passes the checks before it and fails its own, and two that pass all, with on-phases
at the two ends of the range. -/
theorem witness_ValidateEffect :
    [{ Profile.exA with k := 7 }, { Profile.exA with k := 10 }, { Profile.exA with l := 9 }, { Profile.exA with l := 11 },
      { Profile.exA with interval := 0 }, { Profile.exA with fden := 0 }, { Profile.exA with shorten := 488 },
      { Profile.exA with enc := { nibbles := 1, fields := [], consts := [{ offset := 1, value := 5 }] } }].map
      (fun p => (checks p).findIdx (· == false)) = [0, 1, 2, 3, 4, 5, 6, 7] ∧
    [{ Profile.exA with shorten := 487 }, { Profile.exA with fnum := 2, shorten := 1 }].map (fun p => (checks p).all id) =
      [true, true] ∧
    (checks { Profile.exA with fnum := 2, shorten := 0 }).findIdx (· == false) = 6 := by decide
theorem witness_ValidProfileFixesTheLength :
    (∀ p ∈ [Profile.exA, exB, exT, exRain, exWind], validProfile p = true) ∧
    ∀ kl ∈ [(12, 12), (13, 12), (14, 13), (15, 13), (16, 14), (17, 14), (18, 15), (19, 15)],
      validProfile { Profile.exA with
        k := BitVec.ofNat 8 kl.1, l := BitVec.ofNat 8 kl.2, enc := { nibbles := kl.1 - 8, fields := [], consts := [] } } = true := by
  decide
theorem witness_DrawRollAcceptsOrRepeats :
    [0x00, 0xFF, 0x01, 0xFE].map (fun d => Env.rngAt { Env.reset with rng := [d] } 0) = [0x00, 0xFF, 0x01, 0xFE] := by decide
theorem witness_FbHdrEffect : 4 ≤ ({ Profile.exA with l := 4 } : Profile).l.toNat := by decide
theorem witness_FbIdEffect : 6 ≤ ({ Profile.exA with l := 6 } : Profile).l.toNat := by decide
theorem witness_FbRollEffect : 8 ≤ ({ Profile.exA with l := 8 } : Profile).l.toNat := by decide
theorem witness_FbSensUvEffect :
    validProfile (sentA 0x14).cfg = true ∧ (sentA 0x14).cfg.kind = .uv ∧
    (∀ u ∈ [0, 15], 0 ≤ (uv u).uv ∧ (uv u).uv ≤ 15) ∧ 15 < (uv 16).uv ∧ (uv (-1)).uv < 0 := by decide
theorem witness_FbSensEffect :
    ∀ pr ∈ [(Profile.exA, uv 15), (exWind, { Reading.zero with avg := 999 }), (exT, th (-999) 99),
        (exRain, { Reading.zero with total := 9999 })],
      validProfile pr.1 = true ∧ readingFits pr.1.kind pr.1.enc pr.2 = true := by decide

/-- The first field out of its domain is the humidity, by its size and by its sign; and a UV index of 16. -/
theorem witness_FbSensRaisesReadingRange :
    validProfile exT = true ∧ fieldsOf exT.kind exT.enc = [tempField] ++ humField :: [] ∧
    (∀ r ∈ [th 999 100, th (-999) (-1)], (∀ g ∈ [tempField], fieldFits g (readField r g.input) = true) ∧
      fieldFits humField (readField r humField.input) = false) ∧
    fieldsOf Profile.exA.kind Profile.exA.enc = [] ++ uvField :: [] ∧
    fieldFits uvField (readField (uv 16) uvField.input) = false := by decide
theorem witness_BuildReadsNoInput :
    (∀ i ∈ buildOps (sentA 0x10).cfg.kind ++ checksumOps, (nextOf (exec i (sentA 0x10))).isSome = true) ∧
    (sentA 0x10).tx = .low := by decide
theorem witness_CkSumIsTheRangeSum :
    ∀ p ∈ [{ Profile.exA with k := 1, l := 4 }, Profile.exA, exB], 1 ≤ p.k.toNat ∧ (6 + p.k.toNat) / 2 < p.l.toNat := by decide
theorem witness_CkCrcIsTheRangeCrc : ∀ j < Profile.exA.k.toNat, (7 + j) / 2 < Profile.exA.l.toNat := by decide
theorem witness_CkStoreEffect : ∀ p ∈ [Profile.exA, exB], (p.k.toNat + 10) / 2 < p.l.toNat := by decide
theorem witness_ChecksumLaws :
    ([1, 2] : List Nibble).Perm [2, 1] ∧ ([1, 2] : List Nibble).length = ([3, 4] : List Nibble).length := by decide
theorem witness_CrcSeesEverySingleNibble : (0 : Nibble) ≠ 0xF := by decide
theorem witness_ReadingChangesOnlyItsNibbles :
    (∀ i ∈ [14, 20], (∀ f ∈ fieldsOf Profile.exA.kind Profile.exA.enc, ∀ m ∈ fieldTakes f, i ≠ 15 + m) ∧
      (i < 7 + Profile.exA.k.toNat ∨ 7 + Profile.exA.k.toNat + 4 ≤ i)) ∧
    validProfile Profile.exA = true ∧ Profile.exA.kind = .uv ∧ 0 ≤ (uv 0).uv ∧ (uv 0).uv ≤ 15 ∧ 0 ≤ (uv 15).uv ∧
    (uv 15).uv ≤ 15 ∧ (uv 0).uv ≠ (uv 15).uv := by decide
theorem witness_BuildAndChecksumGiveFrameOf :
    let s : State := { at' exT 0x10 8 with snapRd := th (-123) 45 }
    s.seq = 0x10 ∧ validProfile s.cfg = true ∧ readingFits s.cfg.kind s.cfg.enc s.snapRd = true ∧ s.env.resetReq = false ∧
      s.env.noReset 8 :=
  ⟨by decide, by decide, by decide, by decide, noReset_quiet rfl⟩
theorem witness_EncFirstEffect :
    ∀ j ∈ [0, 24, 79], (encA 0x31 0 0 (BitVec.ofNat 16 j)).bitix.toNat < 8 * (encA 0x31 0 0 0).cfg.l.toNat ∧
      ((frameBits fb1)[j]?).isSome = true := by decide

/-- The sums of ENC_SECOND and ENC_END fit their registers on FB-1's last bit. -/
theorem witness_EncSecondEffect :
    let s := encA 0x32 78104 78104 79
    s.dl.toNat + s.onUs.toNat < 2 ^ 64 ∧ s.dl.toNat + 976 < 2 ^ 64 ∧ s.bitix.toNat + 1 < 2 ^ 16 := by decide
theorem witness_EncEndEffect : (encA 0x33 78562 79080 80).dl.toNat + 488 < 2 ^ 64 := by decide
theorem witness_CursorReadsTheBitStream : 0 < 8 * 1 ∧ 7 < 8 * 1 := by decide

/-- A frame of one byte: no bit sent, and all of them. -/
theorem witness_DeadlinesStayOnTheGrid :
    ∀ j ∈ [0, 8], let s := at' { Profile.exA with l := 1 } 0x30 17
      s.seq = 0x30 ∧ 1 ≤ s.cfg.l.toNat ∧ j ≤ 8 * s.cfg.l.toNat ∧ s.env.resetReq = false ∧ s.env.noReset (1 + 2 * j) ∧
        s.env.now.toNat + 976 * j < 2 ^ 64 := by
  intro j hj
  have hn : (at' { Profile.exA with l := 1 } 0x30 17).env.noReset 17 := noReset_quiet rfl
  have hj8 : j ≤ 8 := by
    revert j
    decide
  exact ⟨by decide, by decide, hj8, by decide, fun i hi => hn i (by omega), by
    show 0 + 976 * j < 2 ^ 64
    omega⟩
theorem witness_EncodePutsTheWaveformOnTheLine :
    ∀ on ∈ [1, 975], let s : State := { at' { Profile.exA with l := 1 } 0x30 18 with onUs := BitVec.ofNat 16 on }
      s.seq = 0x30 ∧ 1 ≤ s.cfg.l.toNat ∧ 1 ≤ s.onUs.toNat ∧ s.onUs.toNat ≤ 975 ∧ s.env.resetReq = false ∧
        s.env.ideal (2 + 16 * s.cfg.l.toNat) (2 + 16 * s.cfg.l.toNat) ∧
        s.env.now.toNat + 976 * (8 * s.cfg.l.toNat) + 488 < 2 ^ 64 := by
  intro on hon
  have hb : 1 ≤ (BitVec.ofNat 16 on).toNat ∧ (BitVec.ofNat 16 on).toNat ≤ 975 := by
    revert on
    decide
  exact ⟨rfl, Nat.le_refl 1, hb.1, hb.2, rfl, ideal_quiet rfl rfl, by
    show 0 + 976 * (8 * 1) + 488 < 2 ^ 64
    omega⟩
theorem witness_ReceiverRecoversEveryByte : 1 ≤ 1 ∧ 975 ≤ 975 := by decide
theorem witness_SchTickEffect : waiting.env.tickReq = 0 + 1 ∧ (at' Profile.exA 0x40 0).env.tickReq = 0 := by decide
theorem witness_SchEvalFiresOnMultiples :
    firing.cfg.interval ≠ 0 ∧ firing.elapsed.toNat % firing.cfg.interval.toNat = 0 ∧
    notFiring.elapsed.toNat % notFiring.cfg.interval.toNat ≠ 0 := by decide
theorem witness_WrappingTickFires :
    let s : State := { waiting with elapsed := 0xFFFFFFFF }
    s.elapsed = 0xFFFFFFFF ∧ s.cfg.interval ≠ 0 ∧ 1 ≤ s.env.tickReq := by decide
theorem witness_FiringsAreTheMultiples :
    ∀ n ∈ [0, 30, 2 ^ 32 - 1], let s : State := { waiting with env := { Env.reset with tickReq := 2 ^ 32 - 1 } }
      s.cfg.interval ≠ 0 ∧ s.elapsed = 0 ∧ n < 2 ^ 32 ∧ n ≤ s.env.tickReq := by decide

/-- The run clause: a run of no step, one that ends between a tick and its evaluation, and one past a firing (interval 1); the ticks
accepted and those that fired. -/
theorem witness_FiringsAreTheMultiples_run :
    let s : State := { waiting with cfg := { Profile.exA with interval := 1 } }
    s.cfg.interval ≠ 0 ∧ s.elapsed = 0 ∧ s.seq ≠ 0x41 ∧ s.env.resetReq = false ∧ s.env.noReset 8 ∧
      [0, 1, 3].map (fun n => ((nextOf (steps n s)).map State.seq, accepted n s, firings 0 n s)) =
        [(some 0x40, 0, []), (some 0x41, 1, []), (some 0x11, 1, [1])] :=
  ⟨by decide, by decide, by decide, by decide, noReset_quiet rfl, by decide⟩

/-- A step that takes a tick, one that finds none, a RESET and a step that does none of these. -/
theorem witness_TicksAreConserved :
    [waiting, { waiting with env := { waiting.env with tickReq := 0 } }, { waiting with env := { waiting.env with resetReq := true } },
      sending].map (fun s => (s.nextAction, s.env.tickReq, (nextOf (step s)).map fun t => t.env.tickReq)) =
      [(.run .schTick, 1, some 0), (.run .schTick, 0, some 0), (.run .reset, 1, some 0), (.run .encSecond, 1, some 1)] := by decide

/-- Each of the five transitions, from a state of `witness_inv`. -/
theorem witness_SchedulerTransitions :
    [waiting, firing, notFiring, ending, { sending with env := { sending.env with resetReq := true } }].map
      (fun s => (s.sphase, (nextOf (step s)).map State.sphase)) =
      [(.idle, some .pending), (.pending, some .sent), (.pending, some .idle), (.sent, some .idle), (.sent, some .idle)] ∧
    invCheck { sending with env := { sending.env with resetReq := true } } = true := by decide
theorem witness_DbgLogEffect : exT.logPresent = true ∧ Profile.exA.logPresent = false := by decide
theorem witness_RenderingShape : fb1 ≠ [] ∧ fb1[0]? = some 0xFF ∧ fb1[9]? = some 0x03 ∧ 8 + 1 < fb1.length := by decide
theorem witness_FaultEntryEffect :
    Instr.fbSensUv ≠ .reset ∧
    (nextOf (exec .fbSensUv { sentA 0x14 with snapRd := uv 16 })).map (fun t => decide (t.fault ≠ (sentA 0x14).fault)) = some true := by
  decide
theorem witness_StatusViewIsTheTable :
    let s : State := { sending with written := { Written.none with sum := true, crc := true, fb := [0] } }
    (s.written.sum = true ∧ s.written.crc = true) ∧ (waiting.written.sum = false ∧ waiting.written.crc = false) ∧
    (∀ k ∈ [0, 9], k < s.cfg.l.toNat) ∧ s.cfg.l.toNat ≤ 10 ∧
    ∀ no ∈ [0x09, 0x0F, 0x19, 0x1F], (0x09 ≤ no ∧ no ≤ 0x0F) ∨ (0x19 ≤ no ∧ no ≤ 0x1F) := by decide
theorem witness_AddressOutsideTheFrameStops :
    [3, 0].map (fun l => stopOf (exec .fbHdr { sentA 0x11 with cfg := { Profile.exA with l := l } })) = [some 3, some 0] ∧
    [5, 0].map (fun l => stopOf (exec .fbId { sentA 0x12 with cfg := { Profile.exA with l := l } })) = [some 5, some 3] ∧
    [7, 0].map (fun l => stopOf (exec .fbRoll { sentA 0x13 with cfg := { Profile.exA with l := l } })) = [some 7, some 6] ∧
    stopOf (exec .encFirst (encA 0x31 0 0 80)) = some 10 ∧
    [7, 3].map (fun l => stopOf (exec .ckSum { sentA 0x20 with cfg := { Profile.exA with l := l } })) = [some 7, some 3] ∧
    stopOf (exec .ckSum { sentA 0x20 with cfg := { Profile.exA with k := 0, l := 3 } }) = some 3 ∧
    [7, 3].map (fun l => stopOf (exec .ckCrc { sentA 0x21 with cfg := { Profile.exA with l := l } })) = [some 7, some 3] ∧
    [9, 0].map (fun l => stopOf (exec .ckStore { sentA 0x22 with cfg := { Profile.exA with l := l } })) = [some 9, some 8] := by decide

/-- The sensor clauses: a UV field, the sign nibble of a temperature, a wind digit, and a constant, outside the frame. -/
theorem witness_AddressOutsideTheFrameStops_sensor :
    stopOf (exec .fbSensUv { sentA 0x14 with cfg := { Profile.exA with l := 7 } }) = some 7 ∧
    stopOf (exec .fbSensTh { sentT (th (-123) 200) with cfg := { exT with l := 9 } }) = some 9 ∧
    ([tempField].flatMap fieldAddrs).find? (fun x => decide (9 ≤ x)) = some 9 ∧
    stopOf (exec .fbSensWind { at' exWind 0x15 0 with cfg := { exWind with l := 8 } }) = some 8 ∧
    stopOf (exec .fbSensRain { at' exRain 0x17 0 with cfg := { exRain with l := 10 } }) = some 10 ∧
    (([{ input := .total, form := .bcd 4 .lsdFirst, offset := 0, signAt := none }] : List FieldSpec).flatMap fieldAddrs ++
      constAddrs exRain.enc).find? (fun x => decide (10 ≤ x)) = some 10 ∧
    readingFits exRain.kind exRain.enc Reading.zero = true := by decide
theorem witness_ConfigurationIsNeverWritten :
    ∀ s ∈ [waiting, sending, halted], (nextOf (step s)).isSome = true := by decide
theorem witness_RollingCodeIsConstant :
    waiting.Inv ∧ waiting.seq ≠ 0x02 ∧ waiting.seq ≠ 0x03 ∧ waiting.env.resetReq = false ∧ waiting.env.noReset 2 ∧
      ∃ t, steps 2 waiting = .next t :=
  ⟨witness_inv _ (by decide), by decide, by decide, by decide, fun j hj => noReset_quiet (n := 8) rfl j (by omega), _, rfl⟩

/-- An operation that leaves the line, and one that raises a fault. -/
theorem witness_OnlyTheEncoderDrivesTheLine :
    Instr.schDone ∉ [Instr.reset, .encStart, .encFirst, .encSecond, .encEnd] ∧ (nextOf (exec .schDone ending)).isSome = true ∧
    (nextOf (exec .fbSensUv { sentA 0x14 with snapRd := uv 16 })).map State.seq = some 0xFF := by decide
theorem witness_OnlyTheBuilderWritesTheFrame :
    Instr.encSecond ∉ [Instr.reset, .fbClear, .fbHdr, .fbId, .fbRoll, .fbSensUv, .fbSensWind, .fbSensTh, .fbSensRain, .ckStore] ∧
    (nextOf (exec .encSecond sending)).isSome = true := by decide
theorem witness_SequencerFollowsItsTable :
    sending.seq = encode .encSecond ∧ Instr.wellFormed sending.cfg.kind .encSecond = true ∧
    (nextOf (exec .encSecond sending)).isSome = true := by decide
set_option maxRecDepth 8192 in
theorem witness_TransmissionIsTheListing :
    let s : State := { at' Profile.exA 0x10 171 with snapRd := uv 1 }
    s.seq = 0x10 ∧ validProfile s.cfg = true ∧ readingFits s.cfg.kind s.cfg.enc s.snapRd = true ∧ s.env.resetReq = false ∧
      s.env.noReset (transmitOps s.cfg).length := by
  refine ⟨rfl, by decide, by decide, rfl, ?_⟩
  have h : (transmitOps Profile.exA).length = 171 := by decide
  show Env.noReset (transmitOps Profile.exA).length _
  rw [h]
  exact noReset_quiet rfl
theorem witness_EveryStepKeepsTheInvariant : sending.Inv ∧ (nextOf (step sending)).isSome = true :=
  ⟨witness_inv _ (by decide), by decide⟩
theorem witness_NoStepStopsUnderTheInvariant : ∃ s, State.Inv s := ⟨firing, witness_inv _ (by decide)⟩

end Sys2Proof.Tests
end

section
/-! SUPPORT. The proofs about the configuration registers and the status view (spec/10_state.md R30, R50). -/

namespace Sys2Proof.Machine

/-! ### The configuration registers (R30) -/

/-- Among the operations only RESET builds a state afresh, and it takes the configuration over (R81). -/
theorem Performs.cfg {s t : State} {i : Instr} (h : Performs s i t) : t.cfg = s.cfg := by
  cases h
  case reset h =>
    cases h
    rfl
  case encEnd u hu => rcases hu with rfl | ⟨_, rfl⟩ <;> rfl
  all_goals simp

theorem act_cfg {s t : State} (h : act s = .next t) : t.cfg = s.cfg := by
  rcases act_cases s with ⟨-, ha⟩ | ⟨-, i, -, ha⟩ | ⟨-, c, -, ha⟩ | ⟨-, -, ha⟩ <;> rw [ha] at h
  · exact (performs_of_exec _ h).cfg
  · exact (performs_of_exec _ h).cfg
  · cases h
    exact raiseFault_cfg s _ _
  · cases h
    rfl

/-- Settles O51: the action keeps the configuration (`act_cfg`), and the environment's turn changes the input ports only. -/
theorem configurationIsNeverWritten : Obligations.ConfigurationIsNeverWritten := by
  intro s t h
  obtain ⟨u, hu, rfl⟩ := step_eq_next h
  rw [State.environment_cfg, act_cfg hu]

/-! ### The words of the status view (R50) -/

/-- A concatenation as a number: the upper part counts in units of the lower part's range. -/
theorem toNat_append_eq_add {n m : Nat} (x : BitVec n) (y : BitVec m) : (x ++ y).toNat = x.toNat * 2 ^ m + y.toNat := by
  rw [BitVec.toNat_append, ← Nat.shiftLeft_add_eq_or_of_lt y.isLt, Nat.shiftLeft_eq]

theorem levelBit_toNat (l : Level) : (levelBit l).toNat = (decide (l = .high)).toNat := by
  cases l <;> rfl

/-- The `STATUS` word: the four flags from bit 0 up, `ECODE` from bit 4 and `EDETAIL` from bit 8. -/
theorem State.status_toNat (s : State) :
    s.status.toNat = s.fault.halted.toNat + 2 * (decide (s.sphase = .sent)).toNat + 4 * (decide (s.sphase = .pending)).toNat +
      8 * (decide (s.tx = .high)).toNat + 16 * s.fault.ecode.toNat + 256 * s.fault.edetail.toNat := by
  simp only [State.status, State.pending, State.busy, toNat_append_eq_add, BitVec.toNat_ofBool, levelBit_toNat]
  omega

theorem status_setWidth_toNat (s : State) : (s.status.setWidth 32).toNat = s.status.toNat :=
  BitVec.toNat_setWidth_of_le (by decide)

theorem extractLsb'_low (t : Time) : t.extractLsb' 0 32 = BitVec.ofNat 32 (t.toNat % 2 ^ 32) := by
  apply BitVec.eq_of_toNat_eq
  simp

theorem extractLsb'_high (t : Time) : t.extractLsb' 32 32 = BitVec.ofNat 32 (t.toNat / 2 ^ 32) := by
  apply BitVec.eq_of_toNat_eq
  simp [Nat.shiftRight_eq_div_pow]

/-- The `SUM_CRC` word: the sum in bits 15:8, the CRC in bits 7:0. -/
theorem setWidth_append_bytes (a b : Byte) : (a ++ b).setWidth 32 = BitVec.ofNat 32 (256 * a.toNat + b.toNat) := by
  apply BitVec.eq_of_toNat_eq
  rw [BitVec.toNat_setWidth, toNat_append_eq_add, BitVec.toNat_ofNat]
  omega

theorem kindBits_setWidth (k : Kind) :
    (kindBits k).setWidth 32 = (match k with | .uv => 0 | .wind => 1 | .th => 2 | .rain => 3 : BitVec 32) := by
  cases k <;> rfl

/-! ### Reads of the status view by number (R50) -/

theorem viewRead_register (s : State) {no : Nat} (h : no < 0x20) : viewRead s no = viewReg s no :=
  if_neg (Nat.not_le.2 h)

theorem viewRead_frameByte (s : State) {k : Nat} (h : k < s.cfg.l.toNat) :
    viewRead s (0x20 + k) = if k ∈ s.written.fb then .ok ((s.fb.read k).setWidth 32) else .error (.viewUnwritten (0x20 + k)) := by
  rw [viewRead, if_pos (Nat.le_add_right _ _), Nat.add_sub_cancel_left, if_pos h]
  simp [viewIf]

theorem viewRead_pastFrame (s : State) {k : Nat} (h : s.cfg.l.toNat ≤ k) :
    viewRead s (0x20 + k) = .error (.viewNumber (0x20 + k)) := by
  rw [viewRead, if_pos (Nat.le_add_right _ _), Nat.add_sub_cancel_left, if_neg (Nat.not_lt.2 h)]

theorem viewRead_gap (s : State) {no : Nat} (h : (0x09 ≤ no ∧ no ≤ 0x0F) ∨ (0x19 ≤ no ∧ no ≤ 0x1F)) :
    viewRead s no = .error (.viewNumber no) := by
  rw [viewRead_register s (by omega)]
  rcases h with ⟨h₁, h₂⟩ | ⟨h₁, h₂⟩ <;> interval_cases no <;> rfl

/-- `DL`, low half (number 4). -/
theorem viewRead_dlLow (s : State) :
    viewRead s 0x04 = if s.written.dl then .ok (BitVec.ofNat 32 (s.dl.toNat % 2 ^ 32)) else .error (.viewUnwritten 0x04) := by
  rw [← extractLsb'_low]
  rfl

/-- `DL`, high half (number 5). -/
theorem viewRead_dlHigh (s : State) :
    viewRead s 0x05 = if s.written.dl then .ok (BitVec.ofNat 32 (s.dl.toNat / 2 ^ 32)) else .error (.viewUnwritten 0x05) := by
  rw [← extractLsb'_high]
  rfl

/-- `SUM_CRC` (number 8), readable once both parts are written (log 17). -/
theorem viewRead_sumCrc (s : State) :
    viewRead s 0x08 = if s.written.sum && s.written.crc then .ok (BitVec.ofNat 32 (256 * s.sum.toNat + s.crc.toNat))
      else .error (.viewUnwritten 0x08) := by
  rw [← setWidth_append_bytes]
  rfl

/-- Settles O49: row by row; a row closed by `rfl` is the table's own arm of `viewReg`. -/
theorem statusViewIsTheTable : Obligations.StatusViewIsTheTable := by
  intro s
  have hstatus := (status_setWidth_toNat s).trans s.status_toNat
  have hboth (hs : s.written.sum = true) (hc : s.written.crc = true) :
      viewRead s 0x08 = .ok (BitVec.ofNat 32 (256 * s.sum.toNat + s.crc.toNat)) := by
    rw [viewRead_sumCrc, hs, hc]
    rfl
  have hneither (hs : s.written.sum = false) (_ : s.written.crc = false) : viewRead s 0x08 = .error (.viewUnwritten 0x08) := by
    rw [viewRead_sumCrc, hs]
    rfl
  have hkind : viewRead s 0x10 = .ok (match s.cfg.kind with | .uv => 0 | .wind => 1 | .th => 2 | .rain => 3) :=
    congrArg Except.ok (kindBits_setWidth s.cfg.kind)
  exact ⟨⟨_, rfl, hstatus⟩, rfl, rfl, rfl, viewRead_dlLow s, viewRead_dlHigh s, rfl, rfl, hboth, hneither,
    hkind, rfl, rfl, rfl, rfl, rfl, rfl, rfl, rfl, fun _ => viewRead_frameByte s, fun _ => viewRead_pastFrame s,
    fun _ => viewRead_gap s, fun _ _ => rfl⟩

end Sys2Proof.Machine
end

section
/-! SUPPORT. The proofs about the frame buffer (spec/20_memory.md R60): the bit stream and the encoder's cursor. -/

namespace Sys2Proof.Machine

/-! ### The frame's bit stream (R60) -/

@[simp] theorem byteBits_length (b : Byte) : (byteBits b).length = 8 := rfl

theorem bitOrder_getD {r : Nat} (h : r < 8) : bitOrder.getD r 0 = (r + 4) % 8 := by
  revert r
  decide

/-- A byte's bits in line order are its bits at the positions `bitOrder` lists. -/
theorem byteBits_eq_map_bitOrder (b : Byte) : byteBits b = bitOrder.map b.getLsbD := rfl

theorem byteBits_getElem? (b : Byte) {r : Nat} (h : r < 8) : (byteBits b)[r]? = some (b.getLsbD (bitOrder.getD r 0)) := by
  have hr : r < bitOrder.length := h
  rw [byteBits_eq_map_bitOrder, List.getElem?_map, List.getD_eq_getElem _ _ hr, List.getElem?_eq_getElem hr, Option.map_some]

theorem frameBits_cons (b : Byte) (bs : List Byte) : frameBits (b :: bs) = byteBits b ++ frameBits bs :=
  List.flatMap_cons

@[simp] theorem frameBits_length (bs : List Byte) : (frameBits bs).length = 8 * bs.length := by
  induction bs with
  | nil => rfl
  | cons b bs ih =>
    simp only [frameBits_cons, List.length_append, byteBits_length, ih, List.length_cons]
    omega

/-- Bit `8 * k + r` of the stream is bit `r`, in line order, of byte `k`. -/
theorem frameBits_getElem? (bs : List Byte) (k : Nat) {r : Nat} (h : r < 8) :
    (frameBits bs)[8 * k + r]? = bs[k]?.map fun b => b.getLsbD (bitOrder.getD r 0) := by
  induction bs generalizing k with
  | nil => rfl
  | cons b bs ih =>
    rw [frameBits_cons]
    cases k with
    | zero =>
      have hin : 8 * 0 + r < (byteBits b).length := by simpa using h
      rw [List.getElem?_append_left hin, Nat.mul_zero, Nat.zero_add, byteBits_getElem? b h, List.getElem?_cons_zero, Option.map_some]
    | succ k =>
      have hpast : 8 * (k + 1) + r = (byteBits b).length + (8 * k + r) := by
        rw [byteBits_length]
        omega
      rw [hpast, List.getElem?_append_right (Nat.le_add_right _ _), Nat.add_sub_cancel_left, ih, List.getElem?_cons_succ]

@[simp] theorem Memory.bytes_length (m : Memory) (l : Nat) : (m.bytes l).length = l := by
  rw [Memory.bytes, List.length_map, List.length_range]

theorem Memory.bytes_getElem? (m : Memory) {l k : Nat} (h : k < l) : (m.bytes l)[k]? = some (m.read k) := by
  rw [Memory.bytes, List.getElem?_map, List.getElem?_range h, Option.map_some]

/-- The bit of the stream at a position inside the frame is what the encoder's cursor reads there. -/
theorem frameBits_bytes_getElem? (m : Memory) {l j : Nat} (h : j < 8 * l) : (frameBits (m.bytes l))[j]? = some (m.lineBit j) := by
  have hbit := frameBits_getElem? (m.bytes l) (j / 8) (Nat.mod_lt j (by decide : 0 < 8))
  rw [Nat.div_add_mod, m.bytes_getElem? (by omega)] at hbit
  exact hbit

theorem Memory.lineBit_eq (m : Memory) (j : Nat) : m.lineBit j = (m.read (j / 8)).getLsbD ((j % 8 + 4) % 8) :=
  congrArg (m.read (j / 8)).getLsbD (bitOrder_getD (Nat.mod_lt j (by decide)))

/-- Settles O35: the stream is the frame's bytes, eight bits each, so position `j` splits into byte `j / 8` and place `j % 8`. -/
theorem cursorReadsTheBitStream : Obligations.CursorReadsTheBitStream := fun m l =>
  ⟨by rw [frameBits_length, m.bytes_length], fun j hj => ⟨frameBits_bytes_getElem? m hj, m.lineBit_eq j⟩⟩

end Sys2Proof.Machine
end

section
/-! SUPPORT. The proofs about the operation codes and the pseudo-operations (spec/30_encoding.md R71 to R80). -/

namespace Sys2Proof

/-! ### The opcode map (R71, R73) -/

/-- A code is its `UNIT` field over its `FUNC` field. -/
theorem unitField_append_funcField (c : Byte) : unitField c ++ funcField c = c := by
  have hall : unitField c ++ funcField c = c.extractLsb' 0 8 :=
    BitVec.extractLsb'_append_extractLsb'_eq_extractLsb' rfl
  rw [hall, BitVec.extractLsb'_eq_self]

/-- Fields that name an operation are the two halves of its code: each branch of the decoder fixes both. -/
theorem append_eq_encode_of_decodeFields {u f : Nibble} {i : Instr} (h : decodeFields u f = some i) : u ++ f = encode i := by
  simp only [decodeFields, decodeSys, decodeFb, decodeCk, decodeEnc, decodeSch, decodeDbg] at h
  split_ifs at h
  all_goals
    cases h
    subst_vars
    rfl

/-- A byte that is no operation's code and not `0xFF` is reserved (R76). -/
theorem decode_eq_reserved {c : Byte} (hff : c ≠ 0xFF) (hcode : ∀ i, c ≠ encode i) : decode c = .error (.reserved c) := by
  have hnone : decodeFields (unitField c) (funcField c) = none := by
    refine Option.eq_none_iff_forall_ne_some.2 fun i hi => hcode i ?_
    rw [← append_eq_encode_of_decodeFields hi, unitField_append_funcField]
  rw [decode, if_neg hff, hnone]

theorem Instr.mem_all (i : Instr) : i ∈ Instr.all := by
  cases i <;> decide

open Laws.RoundTrip in
/-- Settles O1: the map's rows are the round trips of the operations, and its codes are those of `Instr.all`, so that a byte outside it is
no operation's code. -/
theorem decodeReadsTheOpcodeMap : Obligations.DecodeReadsTheOpcodeMap :=
  ⟨⟨reset, validate, drawRoll⟩, ⟨fbClear, fbHdr, fbId, fbRoll, fbSensUv, fbSensWind, fbSensTh, fbSensRain⟩,
    ⟨ckSum, ckCrc, ckStore⟩, ⟨encStart, encFirst, encSecond, encEnd⟩, ⟨schTick, schEval, schDone⟩, dbgLog,
    fun _ hff hmap => decode_eq_reserved hff fun i hi => hmap (hi ▸ List.mem_map_of_mem i.mem_all)⟩

namespace Machine

/-! ### The pseudo-operations (R79, R80) -/

@[simp] theorem buildOps_length (k : Kind) : (buildOps k).length = 5 := rfl

@[simp] theorem checksumOps_length : checksumOps.length = 3 := rfl

/-- Two operations for each of the frame's bits, between ENC_START and ENC_END. -/
@[simp] theorem encodeOps_length (l : Nat) : (encodeOps l).length = 2 + 16 * l := by
  simp only [encodeOps, List.length_append, List.length_flatten, List.map_replicate, List.sum_replicate, List.length_cons,
    List.length_nil, smul_eq_mul]
  omega

@[simp] theorem transmitOps_length (p : Profile) :
    (transmitOps p).length = 11 + 16 * p.l.toNat + (if p.logPresent then 1 else 0) := by
  have hlog : (if p.logPresent then [Instr.dbgLog] else []).length = if p.logPresent then 1 else 0 :=
    apply_ite List.length _ _ _
  simp only [transmitOps, List.length_append, buildOps_length, checksumOps_length, encodeOps_length, hlog, List.length_singleton]
  omega

/-- Settles O57: the length of each listing. -/
theorem pseudoOperationLengths : Obligations.PseudoOperationLengths := fun p =>
  ⟨buildOps_length p.kind, checksumOps_length, encodeOps_length p.l.toNat, transmitOps_length p⟩

end Machine

end Sys2Proof
end

section
/-! SUPPORT. The proofs about the lifecycle (spec/40_lifecycle.md R83 to R97): RESET, VALIDATE, DRAW_ROLL, and the rolling code after the
draw. -/

namespace Sys2Proof.Machine

/-! ### The rolling code after the draw (R97) -/

/-- The operations of power-on (R79), the only ones that may write `ROLL` or lead to one that does. -/
def powerOnInstrs : List Instr := [.reset, .validate, .drawRoll]

theorem encode_of_decode {c : Byte} {i : Instr} (h : decode c = .ok i) : c = encode i := by
  unfold decode at h
  split at h
  · cases h
  · cases hf : decodeFields (unitField c) (funcField c) with
    | some j =>
      rw [hf] at h
      cases h
      rw [← append_eq_encode_of_decodeFields hf, unitField_append_funcField]
    | none =>
      rw [hf] at h
      cases h

/-- Only RESET and an accepted draw write `ROLL` (R83, R94). -/
theorem Performs.roll {s t : State} {i : Instr} (h : Performs s i t) (hi : i ∉ powerOnInstrs) : t.roll = s.roll := by
  cases h
  case reset | drawOk => simp [powerOnInstrs] at hi
  case encEnd u hu => rcases hu with rfl | ⟨_, rfl⟩ <;> rfl
  all_goals simp

/-- Only RESET takes the reset event (R82). -/
theorem Performs.resetReq {s t : State} {i : Instr} (h : Performs s i t) (hi : i ≠ .reset) : t.env.resetReq = s.env.resetReq := by
  cases h
  case reset => exact absurd rfl hi
  case encEnd u hu => rcases hu with rfl | ⟨_, rfl⟩ <;> rfl
  all_goals simp

/-- No operation moves the script of the environment's turns. -/
theorem Performs.turnAt {s t : State} {i : Instr} (h : Performs s i t) (j : Nat) : t.env.turnAt j = s.env.turnAt j := by
  cases h
  case reset h =>
    cases h
    rfl
  case tick => rfl
  case encEnd u hu => rcases hu with rfl | ⟨_, rfl⟩ <;> rfl
  all_goals simp

/-- Every operation leaves in `SEQ` a code that its row of the table lists (R158). -/
theorem Performs.seq_mem_successors {s t : State} {i : Instr} (h : Performs s i t) (hs : i = .schTick → s.seq = 0x40) :
    t.seq ∈ successors s.cfg.kind i := by
  cases h
  case reset h =>
    cases h
    simp [successors]
  case store ws c _ _ _ hc => exact hc
  case sensIllegal k _ => cases k <;> simp [successors, Instr.sensOf]
  case sensRange k _ _ => cases k <;> simp [successors, Instr.sensOf]
  case encSecond =>
    dsimp only
    split <;> simp [successors]
  case encEnd =>
    rw [State.goto_seq]
    split <;> simp [successors]
  case tickWait => simp [successors, hs rfl]
  all_goals simp [successors]

/-- No operation but those of power-on leads back to one of them (R158). -/
theorem successors_not_powerOn {kind : Kind} {i : Instr} (hi : i ∉ powerOnInstrs) :
    ∀ c ∈ successors kind i, c ∉ powerOnInstrs.map encode := by
  revert hi
  cases i <;> cases kind <;> decide

/-- Where the rolling code stands fixed: no reset event is pending and `SEQ` names none of the operations of power-on. -/
def State.rollFixed (s : State) : Prop := s.env.resetReq = false ∧ s.seq ∉ powerOnInstrs.map encode

/-- Past VALIDATE and the draw the invariant leaves RESET's code out of `SEQ` (R76). -/
theorem State.Inv.rollFixed {s : State} (h : s.Inv) (hv : s.seq ≠ 0x02) (hd : s.seq ≠ 0x03) (hr : s.env.resetReq = false) :
    s.rollFixed := by
  have hreset : s.seq ≠ 0x01 := by
    intro hs
    rcases h.legal with hff | ⟨i, hi, -, hne⟩
    · exact absurd (hs.symm.trans hff) (by decide)
    · rw [hs] at hi
      cases hi
      exact hne rfl
  refine ⟨hr, ?_⟩
  simpa [powerOnInstrs, encode] using ⟨hreset, hv, hd⟩

/-- While the rolling code stands fixed, an action leaves it, stays there, and does not move the environment's turns. -/
theorem act_rollFixed {s t : State} (hs : s.rollFixed) (h : act s = .next t) :
    t.roll = s.roll ∧ t.rollFixed ∧ ∀ j, t.env.turnAt j = s.env.turnAt j := by
  obtain ⟨hr, hc⟩ := hs
  rcases act_cases s with ⟨hr', -⟩ | ⟨-, i, hi, ha⟩ | ⟨-, c, -, ha⟩ | ⟨-, -, ha⟩
  · exact absurd hr' (by simp [hr])
  · have hp := performs_of_exec i (ha ▸ h)
    have hseq := encode_of_decode hi
    have hi : i ∉ powerOnInstrs := fun hm => hc (hseq ▸ List.mem_map_of_mem hm)
    have hreset : i ≠ .reset := fun e => hi (by simp [e, powerOnInstrs])
    have hnext := hp.seq_mem_successors fun e => by rw [hseq, e]; rfl
    exact ⟨hp.roll hi, ⟨hp.resetReq hreset ▸ hr, successors_not_powerOn hi _ hnext⟩, hp.turnAt⟩
  · cases ha.symm.trans h
    refine ⟨raiseFault_roll s _ _, ⟨by rw [raiseFault_env, hr], ?_⟩, fun j => by rw [raiseFault_env]⟩
    rw [raiseFault_seq]
    decide
  · cases ha.symm.trans h
    exact ⟨rfl, ⟨hr, hc⟩, fun _ => rfl⟩

/-- A step whose turn brings no reset event leaves the rolling code fixed. -/
theorem step_rollFixed {s t : State} {n : Nat} (hs : s.rollFixed) (hn : s.env.noReset (n + 1)) (h : step s = .next t) :
    t.roll = s.roll ∧ t.rollFixed ∧ t.env.noReset n := by
  obtain ⟨u, hu, rfl⟩ := step_eq_next h
  obtain ⟨hroll, ⟨hr, hc⟩, hturn⟩ := act_rollFixed hs hu
  refine ⟨hroll, ⟨?_, hc⟩, fun j hj => ?_⟩
  · simp [hr, hturn, hn 0 (Nat.succ_pos n)]
  · rw [State.environment_env, Env.turnAt_turned, hturn]
    exact hn (j + 1) (Nat.succ_lt_succ hj)

theorem steps_roll {n : Nat} {s t : State} (hs : s.rollFixed) (hn : s.env.noReset n) (h : steps n s = .next t) :
    t.roll = s.roll := by
  induction n generalizing s with
  | zero =>
    cases h
    rfl
  | succ n ih =>
    cases hu : step s with
    | next u =>
      obtain ⟨hroll, hu', hn'⟩ := step_rollFixed hs hn hu
      rw [steps_succ hu] at h
      rw [ih hu' hn' h, hroll]
    | fault r => simp [steps, hu] at h
    | refused r => simp [steps, hu] at h

/-- Settles O52: the invariant past the draw gives `State.rollFixed`, which every step keeps. -/
theorem rollingCodeIsConstant : Obligations.RollingCodeIsConstant := fun _ _ _ hinv hv hd hr hn h =>
  steps_roll (hinv.rollFixed hv hd hr) hn h

/-! ### RESET (R83) -/

/-- Settles O8: the fields of the state that RESET builds. -/
theorem resetEffect : Obligations.ResetEffect := fun _ =>
  ⟨_, rfl, rfl, rfl, rfl, rfl, rfl, rfl, rfl, rfl, rfl, rfl⟩

/-! ### VALIDATE (R85 to R93) -/

/-- The checks of VALIDATE as R92 lists them, each as what passes it. -/
theorem configCheck_eq (p : Profile) :
    configCheck p =
      if 8 ≤ p.k.toNat then
        if p.k.toNat = 8 + p.enc.nibbles then
          if 7 + p.k.toNat + 4 ≤ 2 * p.l.toNat then
            if 2 * p.l.toNat ≤ 7 + p.k.toNat + 5 then
              if p.interval ≠ 0 then
                if p.fden ≠ 0 then
                  if 1 ≤ onPhase p ∧ onPhase p ≤ 975 then
                    if layoutOk p.kind p.enc = true then none else some 0x08
                  else some 0x07
                else some 0x06
              else some 0x05
            else some 0x04
          else some 0x03
        else some 0x02
      else some 0x01 := by
  unfold configCheck
  dsimp only [ckStart]
  by_cases h1 : 8 ≤ p.k.toNat
  · have h2 : p.k.toNat - 8 ≠ p.enc.nibbles ↔ ¬ p.k.toNat = 8 + p.enc.nibbles := by omega
    simp only [h1, h2, if_true, not_true, if_false, ite_not, gt_iff_lt, ← not_le, ← not_and_or, ← Bool.not_eq_true, ne_eq]
  · rw [if_pos (Nat.lt_of_not_le h1), if_neg h1]

/-- A profile is valid if it passes all eight checks (R92). -/
theorem validProfile_iff (p : Profile) :
    validProfile p = true ↔
      8 ≤ p.k.toNat ∧ p.k.toNat = 8 + p.enc.nibbles ∧ 7 + p.k.toNat + 4 ≤ 2 * p.l.toNat ∧ 2 * p.l.toNat ≤ 7 + p.k.toNat + 5 ∧
      p.interval ≠ 0 ∧ p.fden ≠ 0 ∧ (1 ≤ onPhase p ∧ onPhase p ≤ 975) ∧ layoutOk p.kind p.enc = true := by
  rw [validProfile, Option.isNone_iff_eq_none, configCheck_eq]
  simp only [ite_eq_iff, and_true, reduceCtorEq, and_false, or_false]

/-- A failing check raises CONFIG_ERROR with the check's number (R92, R171). -/
theorem exec_validate_of_fails {s : State} {d : Byte} (h : configCheck s.cfg = some d) :
    exec .validate s = .next (raiseFault s 0x1 d) := by
  change execValidate s = _
  rw [execValidate, h]
  rfl

theorem exec_validate_of_passes {s : State} (h : configCheck s.cfg = none) :
    exec .validate s = .next { s with
      onUs := BitVec.ofInt 16 (onPhase s.cfg), written := { s.written with onUs := true }, seq := 0x03 } := by
  change execValidate s = _
  rw [execValidate, h]

/-- Settles O10: each clause follows `configCheck` through the checks that pass to its own. -/
theorem validateEffect : Obligations.ValidateEffect := by
  intro s
  refine ⟨fun h1 => exec_validate_of_fails (by rw [configCheck_eq, if_neg h1]),
    fun h1 h2 => exec_validate_of_fails (by rw [configCheck_eq, if_pos h1, if_neg h2]),
    fun h1 h2 h3 => exec_validate_of_fails (by rw [configCheck_eq, if_pos h1, if_pos h2, if_neg h3]),
    fun h1 h2 h3 h4 => exec_validate_of_fails (by rw [configCheck_eq, if_pos h1, if_pos h2, if_pos h3, if_neg h4]),
    fun h1 h2 h3 h4 h5 => exec_validate_of_fails (by rw [configCheck_eq, if_pos h1, if_pos h2, if_pos h3, if_pos h4, if_neg h5]),
    fun h1 h2 h3 h4 h5 h6 =>
      exec_validate_of_fails (by rw [configCheck_eq, if_pos h1, if_pos h2, if_pos h3, if_pos h4, if_pos h5, if_neg h6]),
    fun h1 h2 h3 h4 h5 h6 (h7 : ¬ (1 ≤ onPhase s.cfg ∧ onPhase s.cfg ≤ 975)) =>
      exec_validate_of_fails (by rw [configCheck_eq, if_pos h1, if_pos h2, if_pos h3, if_pos h4, if_pos h5, if_pos h6, if_neg h7]),
    fun h1 h2 h3 h4 h5 h6 (h7 : 1 ≤ onPhase s.cfg ∧ onPhase s.cfg ≤ 975) h8 =>
      exec_validate_of_fails (by
        rw [configCheck_eq, if_pos h1, if_pos h2, if_pos h3, if_pos h4, if_pos h5, if_pos h6, if_pos h7, if_neg h8]),
    fun on hon h1 h2 h3 h4 h5 h6 h7 h8 => ?_⟩
  have hnone : configCheck s.cfg = none :=
    Option.isNone_iff_eq_none.1 ((validProfile_iff _).2 ⟨h1, h2, h3, h4, h5, h6, h7, h8⟩)
  have hphase : onPhase s.cfg = on := hon.symm
  rw [exec_validate_of_passes hnone, hphase, BitVec.ofInt_natCast]

/-- Settles O11: the two length checks leave one length for each `CFG_K`. -/
theorem validProfileFixesTheLength : Obligations.ValidProfileFixesTheLength := by
  intro p k l
  refine ⟨fun h => ?_, fun h => ?_⟩
  · obtain ⟨-, -, hlow, hhigh, -⟩ := (validProfile_iff p).1 h
    omega
  · have hlow : 7 + p.k.toNat + 4 ≤ 2 * p.l.toNat := by omega
    have hhigh : 2 * p.l.toNat ≤ 7 + p.k.toNat + 5 := by omega
    rw [configCheck_eq, if_pos hlow, if_pos hhigh]
    split_ifs <;> decide

/-! ### DRAW_ROLL (R94) -/

theorem rollBad_iff (r : Byte) : rollBad r = true ↔ r = 0x00 ∨ r = 0xFF := decide_eq_true_iff

theorem exec_drawRoll (s : State) :
    exec .drawRoll s = .next (
      if rollBad (s.env.rngAt 0) then { s with env := s.env.rngTaken, seq := 0x03 }
      else { s with
        env := s.env.rngTaken, roll := s.env.rngAt 0, written := { s.written with roll := true }, seq := 0x40 }) := rfl

/-- Settles O12: `rollBad` decides between the two outcomes. -/
theorem drawRollAcceptsOrRepeats : Obligations.DrawRollAcceptsOrRepeats := by
  rintro s r rfl
  refine ⟨fun hbad => ?_, fun h0 hff => ?_, s.env.rngAt_rngTaken, rfl⟩
  · rw [exec_drawRoll, if_pos ((rollBad_iff _).2 hbad)]
  · rw [exec_drawRoll, if_neg fun hbad => ((rollBad_iff _).1 hbad).elim h0 hff]

end Sys2Proof.Machine
end

section
/-! SUPPORT. The proofs about the frame builder's fixed nibbles (spec/41_frame_builder.md R101 to R107): FB_CLEAR, FB_HDR, FB_ID and
FB_ROLL. Each operation's lemma gives its next state, its frame, and every nibble it leaves. -/

namespace Sys2Proof.Machine

/-! ### Stores within the frame -/

/-- A store within the frame answers, changes only what it addresses, and leaves its writes carried out in order. -/
theorem storeAndGo_effect {ws : List FrameWrite} {s : State} (c : Byte) (addrs : List Nat)
    (haddr : ∀ a, a ∈ ws.map FrameWrite.addr ↔ a ∈ addrs) (hlt : ∀ a ∈ addrs, a < s.cfg.l.toNat) :
    ∃ t, storeAndGo ws c s = .next t ∧ frameStored s t c addrs ∧ t.fb = s.fb.storeAll ws :=
  ⟨_, storeAndGo_of_lt fun _ hw => hlt _ ((haddr _).1 (List.mem_map_of_mem hw)), frameStored_stored s ws c addrs haddr, rfl⟩

/-- What `frameStored` says of the configuration. -/
theorem frameStored.cfg {s t : State} {c : Byte} {addrs : List Nat} (h : frameStored s t c addrs) : t.cfg = s.cfg :=
  (congrArg State.cfg h.1 :)

/-- The same byte stored to every address of a list. -/
theorem Memory.read_storeAll_bytes (m : Memory) (ks : List Nat) (v : Byte) (j : Nat) :
    (m.storeAll (ks.map (FrameWrite.byte · v))).read j = if j ∈ ks then v else m.read j := by
  induction ks generalizing m with
  | nil => simp
  | cons k ks ih =>
    simp only [List.map_cons, Memory.storeAll_cons, ih, Memory.store, Memory.read_write, List.mem_cons]
    split_ifs <;> simp_all

/-! ### FB_CLEAR (R101) -/

theorem exec_fbClear (s : State) :
    ∃ t, exec .fbClear s = .next t ∧ frameStored s t 0x11 (List.range s.cfg.l.toNat) ∧
      ∀ k < s.cfg.l.toNat, t.fb.read k = 0x00 := by
  obtain ⟨t, ht, hframe, hfb⟩ := storeAndGo_effect (s := s) (ws := (List.range s.cfg.l.toNat).map (FrameWrite.byte · 0x00)) 0x11
    (List.range s.cfg.l.toNat) (by simp [FrameWrite.addr]) fun a ha => List.mem_range.1 ha
  refine ⟨t, ht, hframe, fun k hk => ?_⟩
  rw [hfb, Memory.read_storeAll_bytes, if_pos (List.mem_range.2 hk)]

/-- Settles O13: the stored zeros carry their marks, so the status view shows them. -/
theorem fbClearEffect : Obligations.FbClearEffect := by
  intro s
  obtain ⟨t, ht, hframe, hzero⟩ := exec_fbClear s
  refine ⟨t, ht, hframe, fun k hk => ⟨hzero k hk, ?_⟩⟩
  have hmarked : k ∈ t.written.fb := (hframe.2.2 k).2 (.inl (List.mem_range.2 hk))
  rw [viewRead_frameByte t (by rwa [hframe.cfg]), if_pos hmarked, hzero k hk]
  rfl

/-! ### FB_HDR (R102) -/

theorem exec_fbHdr {s : State} (hl : 4 ≤ s.cfg.l.toNat) :
    ∃ t, exec .fbHdr s = .next t ∧ frameStored s t 0x12 [0, 1, 2, 3] ∧
      ∀ i, t.fb.nib i = if i < 6 then 0xF else if i = 6 then 0xA else s.fb.nib i := by
  obtain ⟨t, ht, hframe, hfb⟩ := storeAndGo_effect (s := s)
    (ws := [.byte 0 0xFF, .byte 1 0xFF, .byte 2 0xFF, .nib 6 0xA]) 0x12 [0, 1, 2, 3]
    (by simp [FrameWrite.addr]) (by simp; omega)
  refine ⟨t, ht, hframe, fun i => ?_⟩
  have hF : (if i % 2 = 0 then hiNib 0xFF else loNib 0xFF) = 0xF := ite_self _
  have hsix : i < 6 ↔ i / 2 = 0 ∨ i / 2 = 1 ∨ i / 2 = 2 := by omega
  simp only [hfb, Memory.storeAll_cons, Memory.storeAll_nil, Memory.nib_store, hF, hsix]
  grind

/-- Settles O14: the preamble's bytes are pairs of the nibbles `exec_fbHdr` gives. -/
theorem fbHdrEffect : Obligations.FbHdrEffect := by
  intro s hl
  obtain ⟨t, ht, hframe, hnib⟩ := exec_fbHdr hl
  have hbyte (k : Nat) (hk : k < 3) : t.fb.read k = 0xFF := by
    rw [Memory.read_eq_nibs, hnib, hnib, if_pos (by omega), if_pos (by omega)]
    rfl
  exact ⟨t, ht, hframe, hbyte 0 (by decide), hbyte 1 (by decide), hbyte 2 (by decide), hnib 6, hnib 7⟩

/-! ### FB_ID (R103 to R105) -/

theorem exec_fbId {s : State} (hl : 6 ≤ s.cfg.l.toNat) :
    ∃ t, exec .fbId s = .next t ∧ frameStored s t 0x13 [3, 4, 5] ∧
      ∀ i, t.fb.nib i =
        if 7 ≤ i ∧ i < 11 then sidNib s.cfg.sensorId (i - 7) else if i = 11 then channelNib s.cfg.channel else s.fb.nib i := by
  obtain ⟨t, ht, hframe, hfb⟩ := storeAndGo_effect (s := s)
    (ws := (List.range 4).map (fun j => FrameWrite.nib (7 + j) (sidNib s.cfg.sensorId j)) ++ [.nib 11 (channelNib s.cfg.channel)])
    0x13 [3, 4, 5] (by simp [List.range_succ, FrameWrite.addr]) (by simp; omega)
  refine ⟨t, ht, hframe, fun i => ?_⟩
  simp only [hfb, List.range_succ, List.range_zero, List.nil_append, List.cons_append, List.map_cons, List.map_nil,
    Memory.storeAll_cons, Memory.storeAll_nil, Memory.nib_store]
  grind

/-- Nibble `j` of the sensor id as a number (R103). -/
theorem sidNib_toNat (id : BitVec 16) {j : Nat} (hj : j < 4) : (sidNib id j).toNat = id.toNat / 16 ^ (3 - j) % 16 := by
  have hpow : 2 ^ (12 - 4 * j) = 16 ^ (3 - j) := by
    rw [show 12 - 4 * j = 4 * (3 - j) by omega, pow_mul]
    norm_num
  rw [sidNib, BitVec.extractLsb'_toNat, Nat.shiftRight_eq_div_pow, hpow]

theorem channelNib_toNat (c : BitVec 8) : (channelNib c).toNat = min c.toNat 15 := by
  rw [channelNib, BitVec.toNat_ofNat, Nat.mod_eq_of_lt (by omega)]

/-- Settles O15: the nibbles of `exec_fbId` as numbers. -/
theorem fbIdEffect : Obligations.FbIdEffect := by
  intro s hl
  obtain ⟨t, ht, hframe, hnib⟩ := exec_fbId hl
  refine ⟨t, ht, hframe, hnib 6, fun j hj => ?_, ?_⟩
  · rw [hnib, if_pos (by omega), Nat.add_sub_cancel_left, sidNib_toNat _ hj]
  · exact (congrArg BitVec.toNat (hnib 11)).trans (channelNib_toNat _)

/-! ### FB_ROLL (R106, R107) -/

/-- The code FB_ROLL computes from `CFG_KIND` is that of the kind's `FB_SENS_*` (R75). -/
theorem sensCode_eq_encode (k : Kind) : sensCode k = encode (Instr.sensOf k) := by
  cases k <;> rfl

theorem exec_fbRoll {s : State} (hl : 8 ≤ s.cfg.l.toNat) :
    ∃ t, exec .fbRoll s = .next t ∧ frameStored s t (encode (Instr.sensOf s.cfg.kind)) [6, 7] ∧
      ∀ i, t.fb.nib i =
        if i = 12 then hiNib s.roll else if i = 13 then loNib s.roll else if i = 14 then batteryNib s.snapBatt else s.fb.nib i := by
  obtain ⟨t, ht, hframe, hfb⟩ := storeAndGo_effect (s := s) (ws := [.byte 6 s.roll, .nib 14 (batteryNib s.snapBatt)])
    (sensCode s.cfg.kind) [6, 7] (by simp [FrameWrite.addr]) (by simp; omega)
  refine ⟨t, ht, sensCode_eq_encode s.cfg.kind ▸ hframe, fun i => ?_⟩
  simp only [hfb, Memory.storeAll_cons, Memory.storeAll_nil, Memory.nib_store]
  grind

/-- Settles O16: byte 6 is the pair of the rolling code's nibbles. -/
theorem fbRollEffect : Obligations.FbRollEffect := by
  intro s hl
  obtain ⟨t, ht, hframe, hnib⟩ := exec_fbRoll hl
  refine ⟨t, ht, hframe, ?_, hnib 14, hnib 15⟩
  calc t.fb.read 6 = joinNibs (hiNib s.roll) (loNib s.roll) :=
        (t.fb.read_eq_nibs 6).trans (congrArg₂ joinNibs (hnib 12) (hnib 13))
    _ = s.roll := joinNibs_hi_lo s.roll

end Sys2Proof.Machine
end

section
/-! SUPPORT. The proofs about the sensor nibbles (spec/41_frame_builder.md R108 to R117): what the `FB_SENS_*` operations store, against the
closed form `sensorNib`, and what they raise. -/

namespace Sys2Proof.Machine

/-! ### A field's nibbles (R109, R110) -/

/-- A field puts a value exactly at the sensor nibbles it takes. -/
theorem fieldNib_eq_none_iff (f : FieldSpec) (v : Int) (m : Nat) : fieldNib f v m = none ↔ m ∉ fieldTakes f := by
  have htakes (d : Nat) : m ∈ (List.range d).map (f.offset + ·) ↔ f.offset ≤ m ∧ m < f.offset + d := by
    simp only [List.mem_map, List.mem_range]
    exact ⟨fun ⟨k, hk, hm⟩ => by omega, fun h => ⟨m - f.offset, by omega, by omega⟩⟩
  unfold fieldNib fieldTakes
  simp only [List.mem_append, Option.mem_toList, not_or]
  by_cases hs : f.signAt = some m
  · simp [hs]
  · rw [if_neg hs, and_iff_left hs]
    cases f.form with
    | bin => simp
    | bcd d o => cases o <;> simp only [htakes, ite_eq_right_iff, reduceCtorEq, imp_false]

/-- What the closed form puts at a sensor nibble is among the field's writes: the digit of the right weight, or the sign. -/
theorem mem_fieldPairs_of_fieldNib {f : FieldSpec} {v : Int} {m : Nat} {n : Nibble} (h : fieldNib f v m = some n) :
    (sensorStart + m, n) ∈ fieldPairs f v := by
  unfold fieldNib at h
  unfold fieldPairs
  rw [List.mem_append]
  by_cases hs : f.signAt = some m
  · rw [if_pos hs] at h
    cases h
    exact .inr (by simp [hs])
  · rw [if_neg hs] at h
    refine .inl ?_
    cases hform : f.form with
    | bin =>
      simp only [hform] at h
      obtain ⟨rfl, hn⟩ := Option.ite_none_right_eq_some.1 h
      cases hn
      exact List.mem_singleton.2 rfl
    | bcd d o =>
      cases o with
      | lsdFirst =>
        simp only [hform] at h
        obtain ⟨⟨hlo, hhi⟩, hn⟩ := Option.ite_none_right_eq_some.1 h
        cases hn
        refine List.mem_map.2 ⟨m - f.offset, List.mem_range.2 (by omega), ?_⟩
        rw [digitPos, Nat.add_sub_cancel' hlo]
      | msdFirst =>
        simp only [hform] at h
        obtain ⟨⟨hlo, hhi⟩, hn⟩ := Option.ite_none_right_eq_some.1 h
        cases hn
        refine List.mem_map.2 ⟨f.offset + d - 1 - m, List.mem_range.2 (by omega), ?_⟩
        rw [digitPos, show f.offset + (d - 1 - (f.offset + d - 1 - m)) = m by omega]

theorem reverse_range_eq_map (d : Nat) : (List.range d).reverse = (List.range d).map (d - 1 - ·) := by
  rw [List.range_eq_range', List.reverse_range', List.range_eq_range', Nat.zero_add]

/-- A field's writes go to the nibbles it takes, in another order where the most significant digit is first. -/
theorem map_fst_fieldPairs_perm (f : FieldSpec) (v : Int) :
    ((fieldPairs f v).map Prod.fst).Perm ((fieldTakes f).map (sensorStart + ·)) := by
  unfold fieldPairs fieldTakes
  rw [List.map_append, List.map_append]
  refine List.Perm.append ?_ (by simp [Function.comp_def])
  cases f.form with
  | bin => exact .refl _
  | bcd d o =>
    cases o with
    | lsdFirst => simp [digitPos, Function.comp_def]
    | msdFirst =>
      have hrev : (List.range d).map (fun k => sensorStart + (f.offset + (d - 1 - k))) =
          ((List.range d).reverse).map fun k => sensorStart + (f.offset + k) := by
        rw [reverse_range_eq_map, List.map_map]
        rfl
      simp only [digitPos, List.map_map, Function.comp_def, hrev]
      exact (List.reverse_perm _).map _

/-! ### The nibbles of a kind's encoder (R109, R115) -/

/-- The writes of a kind's fields and constants, as pairs of a frame nibble and a value. -/
def sensPairs (kind : Kind) (enc : Encoder) (rd : Reading) : List (Nat × Nibble) :=
  ((fieldsOf kind enc).flatMap fun f => fieldPairs f (readField rd f.input)) ++ enc.consts.map fun c => (sensorStart + c.offset, c.value)

/-- The sensor nibbles that a kind's fields and constants take (R109). -/
def sensTakes (kind : Kind) (enc : Encoder) : List Nat :=
  (fieldsOf kind enc).flatMap fieldTakes ++ enc.consts.map ConstNibble.offset

theorem sensorAddrs_eq (kind : Kind) (enc : Encoder) : sensorAddrs kind enc = (sensTakes kind enc).map fun m => (sensorStart + m) / 2 :=
  rfl

/-- `layout_ok`: the nibbles taken lie below `N_kind` and are distinct (R92, R109). -/
theorem layoutOk_iff (kind : Kind) (enc : Encoder) :
    layoutOk kind enc = true ↔ (∀ m ∈ sensTakes kind enc, m < enc.nibbles) ∧ (sensTakes kind enc).Nodup := by
  simp only [layoutOk, Bool.and_eq_true, List.all_eq_true, decide_eq_true_eq]
  rfl

theorem map_fst_sensPairs_perm (kind : Kind) (enc : Encoder) (rd : Reading) :
    ((sensPairs kind enc rd).map Prod.fst).Perm ((sensTakes kind enc).map (sensorStart + ·)) := by
  unfold sensPairs sensTakes
  rw [List.map_append, List.map_append, List.map_flatMap, List.map_flatMap]
  refine List.Perm.append (List.Perm.flatMap_left _ fun f _ => map_fst_fieldPairs_perm f _) ?_
  simp [Function.comp_def]

/-- The closed form gives a value exactly at the sensor nibbles that a field or a constant takes. -/
theorem sensorNib_eq_none_iff (kind : Kind) (enc : Encoder) (rd : Reading) (m : Nat) :
    sensorNib kind enc rd m = none ↔ m ∉ sensTakes kind enc := by
  unfold sensorNib sensTakes
  rw [List.mem_append, not_or, List.mem_flatMap]
  split
  case h_1 n hn =>
    obtain ⟨f, hf, hn⟩ := List.exists_of_findSome?_eq_some hn
    have : m ∈ fieldTakes f := by
      by_contra hm
      rw [(fieldNib_eq_none_iff f _ m).2 hm] at hn
      cases hn
    simp only [reduceCtorEq, false_iff, not_and]
    exact fun h => absurd ⟨f, hf, this⟩ h
  case h_2 hnone =>
    rw [List.findSome?_eq_none_iff] at hnone
    have hfields : ¬ ∃ f ∈ fieldsOf kind enc, m ∈ fieldTakes f := fun ⟨f, hf, hm⟩ =>
      (fieldNib_eq_none_iff f _ m).1 (hnone f hf) hm
    simp [hfields]

/-- What the closed form puts at a sensor nibble is among the writes. -/
theorem mem_sensPairs_of_sensorNib {kind : Kind} {enc : Encoder} {rd : Reading} {m : Nat} {n : Nibble}
    (h : sensorNib kind enc rd m = some n) : (sensorStart + m, n) ∈ sensPairs kind enc rd := by
  unfold sensorNib at h
  unfold sensPairs
  rw [List.mem_append]
  split at h
  case h_1 n' hn =>
    cases h
    obtain ⟨f, hf, hn⟩ := List.exists_of_findSome?_eq_some hn
    exact .inl (List.mem_flatMap.2 ⟨f, hf, mem_fieldPairs_of_fieldNib hn⟩)
  case h_2 hnone =>
    obtain ⟨c, hc, hn⟩ := List.exists_of_findSome?_eq_some h
    obtain ⟨rfl, hn⟩ := Option.ite_none_right_eq_some.1 hn
    rw [if_pos rfl] at hn
    rw [← Option.some.inj hn]
    exact .inr (List.mem_map.2 ⟨c, hc, rfl⟩)

/-! ### The stores of the sensor nibbles -/

/-- A nibble after stores to distinct nibbles, where one of them stores to it. -/
theorem Memory.nib_storeAll_of_mem {ps : List (Nat × Nibble)} (m : Memory) {i : Nat} {v : Nibble} (hnd : (ps.map Prod.fst).Nodup)
    (h : (i, v) ∈ ps) : (m.storeAll (ps.map fun p => .nib p.1 p.2)).nib i = v := by
  rw [m.nib_storeAll_nibs ps i hnd]
  cases hfind : ps.find? fun p => p.1 = i with
  | none => exact absurd (List.find?_eq_none.1 hfind _ h) (by simp)
  | some q =>
    have hq : q.1 = i := by simpa using List.find?_some hfind
    rw [List.inj_on_of_nodup_map hnd (List.mem_of_find?_eq_some hfind) h hq]
    rfl

/-- A nibble that no store goes to. -/
theorem Memory.nib_storeAll_of_not_mem {ps : List (Nat × Nibble)} (m : Memory) {i : Nat} (hnd : (ps.map Prod.fst).Nodup)
    (h : i ∉ ps.map Prod.fst) : (m.storeAll (ps.map fun p => .nib p.1 p.2)).nib i = m.nib i := by
  have hnone : (ps.find? fun p => p.1 = i) = none := by
    refine List.find?_eq_none.2 fun p hp => ?_
    simpa using fun e : p.1 = i => h (e ▸ List.mem_map_of_mem hp)
  rw [m.nib_storeAll_nibs ps i hnd, hnone]
  rfl

theorem nodup_map_fst_sensPairs {kind : Kind} {enc : Encoder} (rd : Reading) (hok : layoutOk kind enc = true) :
    ((sensPairs kind enc rd).map Prod.fst).Nodup :=
  (map_fst_sensPairs_perm kind enc rd).nodup_iff.2 (((layoutOk_iff kind enc).1 hok).2.map fun _ _ => Nat.add_left_cancel)

/-- With a layout that passes, each constant has a sensor nibble of its own. -/
theorem sensorNib_const {kind : Kind} {enc : Encoder} (rd : Reading) (hok : layoutOk kind enc = true) {c : ConstNibble}
    (hc : c ∈ enc.consts) : sensorNib kind enc rd c.offset = some c.value := by
  have htaken : c.offset ∈ sensTakes kind enc := List.mem_append_right _ (List.mem_map_of_mem hc)
  have hpair : (sensorStart + c.offset, c.value) ∈ sensPairs kind enc rd := List.mem_append_right _ (List.mem_map.2 ⟨c, hc, rfl⟩)
  cases hn : sensorNib kind enc rd c.offset with
  | none => exact absurd htaken ((sensorNib_eq_none_iff kind enc rd _).1 hn)
  | some n =>
    have hsame := List.inj_on_of_nodup_map (nodup_map_fst_sensPairs rd hok) (mem_sensPairs_of_sensorNib hn) hpair rfl
    rw [(Prod.mk.inj hsame).2]

/-- With a layout that passes, the stores leave the closed form at the sensor nibbles and every other nibble as it was. -/
theorem Memory.nib_storeAll_sensPairs (m : Memory) {kind : Kind} {enc : Encoder} (rd : Reading) (hok : layoutOk kind enc = true)
    (i : Nat) :
    (m.storeAll ((sensPairs kind enc rd).map fun p => .nib p.1 p.2)).nib i =
      if 15 ≤ i then (sensorNib kind enc rd (i - 15)).getD (m.nib i) else m.nib i := by
  have hnd := nodup_map_fst_sensPairs rd hok
  have hmem : i ∈ (sensPairs kind enc rd).map Prod.fst ↔ ∃ a ∈ sensTakes kind enc, sensorStart + a = i :=
    (map_fst_sensPairs_perm kind enc rd).mem_iff.trans List.mem_map
  split
  case isTrue hi =>
    obtain ⟨j, rfl⟩ := Nat.exists_eq_add_of_le hi
    rw [Nat.add_sub_cancel_left]
    cases hn : sensorNib kind enc rd j with
    | some n => exact m.nib_storeAll_of_mem hnd (mem_sensPairs_of_sensorNib hn)
    | none =>
      refine m.nib_storeAll_of_not_mem hnd fun h => ?_
      obtain ⟨a, ha, he⟩ := hmem.1 h
      cases Nat.add_left_cancel he
      exact (sensorNib_eq_none_iff kind enc rd _).1 hn ha
  case isFalse hi =>
    refine m.nib_storeAll_of_not_mem hnd fun h => ?_
    obtain ⟨a, -, he⟩ := hmem.1 h
    exact hi (he ▸ Nat.le_add_right _ _)

/-! ### The `FB_SENS_*` operations (R108, R117) -/

/-- The operation of the configuration's own kind passes the check of R174 and stores that kind's fields. -/
theorem exec_sensOf (s : State) : exec (Instr.sensOf s.cfg.kind) s = sensStore s.cfg.kind (fieldsOf s.cfg.kind s.cfg.enc) s := by
  cases hk : s.cfg.kind <;> rfl

/-- In a valid profile the sensor nibbles lie within the frame, and below the checksums (R92). -/
theorem sensor_bounds_of_valid {p : Profile} (h : validProfile p = true) :
    layoutOk p.kind p.enc = true ∧ p.k.toNat = 8 + p.enc.nibbles ∧ 19 + p.enc.nibbles ≤ 2 * p.l.toNat := by
  obtain ⟨-, hk, hl, -, -, -, -, hok⟩ := (validProfile_iff p).1 h
  exact ⟨hok, hk, by omega⟩

theorem fieldTakes_lt_of_layoutOk {kind : Kind} {enc : Encoder} (hok : layoutOk kind enc = true) {f : FieldSpec}
    (hf : f ∈ fieldsOf kind enc) : ∀ m ∈ fieldTakes f, m < enc.nibbles := fun m hm =>
  ((layoutOk_iff kind enc).1 hok).1 m (List.mem_append_left _ (List.mem_flatMap.2 ⟨f, hf, hm⟩))

/-- With a valid profile and a reading in its domain, the kind's `FB_SENS_*` stores the closed form and changes nothing else. -/
theorem exec_sensOf_of_fits {s : State} (hv : validProfile s.cfg = true) (hfit : readingFits s.cfg.kind s.cfg.enc s.snapRd = true) :
    ∃ t, exec (Instr.sensOf s.cfg.kind) s = .next t ∧ frameStored s t 0x20 (sensorAddrs s.cfg.kind s.cfg.enc) ∧
      ∀ i, t.fb.nib i =
        if 15 ≤ i then (sensorNib s.cfg.kind s.cfg.enc s.snapRd (i - 15)).getD (s.fb.nib i) else s.fb.nib i := by
  obtain ⟨hok, -, hl⟩ := sensor_bounds_of_valid hv
  have hput := putFields_of_fits s.cfg.l.toNat s.cfg.enc.nibbles s.snapRd (fieldsOf s.cfg.kind s.cfg.enc) (by omega)
    (fun f hf => fieldTakes_lt_of_layoutOk hok hf) fun f hf => List.all_eq_true.1 hfit f hf
  have hexec : exec (Instr.sensOf s.cfg.kind) s =
      storeAndGo ((sensPairs s.cfg.kind s.cfg.enc s.snapRd).map fun p => .nib p.1 p.2) 0x20 s := by
    rw [exec_sensOf, sensStore, if_neg (not_not_intro rfl), hput]
    simp [sensPairs, constWrites, Function.comp_def]
  have haddr (a : Nat) : a ∈ ((sensPairs s.cfg.kind s.cfg.enc s.snapRd).map fun p => FrameWrite.nib p.1 p.2).map FrameWrite.addr ↔
      a ∈ sensorAddrs s.cfg.kind s.cfg.enc := by
    have hperm := (map_fst_sensPairs_perm s.cfg.kind s.cfg.enc s.snapRd).map (· / 2)
    rw [List.map_map] at hperm ⊢
    rw [sensorAddrs_eq]
    exact (hperm.mem_iff (a := a)).trans (by rw [List.map_map]; rfl)
  obtain ⟨t, ht, hframe, hfb⟩ := storeAndGo_effect (s := s) 0x20 _ haddr fun a ha => by
    obtain ⟨m, hm, rfl⟩ := List.mem_map.1 ha
    have := ((layoutOk_iff _ _).1 hok).1 m hm
    rw [sensorStart]
    omega
  exact ⟨t, hexec ▸ ht, hframe, fun i => hfb ▸ s.fb.nib_storeAll_sensPairs s.snapRd hok i⟩

/-- With a valid profile, the first field out of its domain raises READING_RANGE with its detail (R117, R180). -/
theorem exec_sensOf_of_not_fits {s : State} {before after : List FieldSpec} {f : FieldSpec} (hv : validProfile s.cfg = true)
    (hfields : fieldsOf s.cfg.kind s.cfg.enc = before ++ f :: after)
    (hfit : ∀ g ∈ before, fieldFits g (readField s.snapRd g.input) = true) (hf : fieldFits f (readField s.snapRd f.input) = false) :
    exec (Instr.sensOf s.cfg.kind) s = .next (raiseFault s 0x2 (rangeDetail f (readField s.snapRd f.input))) := by
  obtain ⟨hok, -, hl⟩ := sensor_bounds_of_valid hv
  have hput := putFields_of_not_fits s.cfg.l.toNat s.cfg.enc.nibbles s.snapRd before after f (by omega)
    (fun g hg => fieldTakes_lt_of_layoutOk hok (by rw [hfields]; exact List.mem_append_left _ hg)) hfit hf
  rw [exec_sensOf, sensStore, if_neg (not_not_intro rfl), hfields, hput]
  rfl

/-- Settles O19: fault entry discards the operation's writes. -/
theorem fbSensRaisesReadingRange : Obligations.FbSensRaisesReadingRange := fun _ _ _ _ hv hfields hfit hf =>
  ⟨exec_sensOf_of_not_fits hv hfields hfit hf, raiseFault_fb _ _ _⟩

/-! ### FB_SENS_UV (R111) -/

theorem fieldFits_uvField (v : Int) : fieldFits uvField v = true ↔ 0 ≤ v ∧ v ≤ 15 := by
  simp only [fieldFits, uvField, Option.isSome_none, Bool.false_or, Bool.and_eq_true, decide_eq_true_eq]
  omega

/-- A UV reading is in its domain exactly for an index of 0 to 15. -/
theorem readingFits_uv (enc : Encoder) (rd : Reading) : readingFits .uv enc rd = true ↔ 0 ≤ rd.uv ∧ rd.uv ≤ 15 := by
  rw [← fieldFits_uvField]
  exact Eq.congr_left (Bool.and_true _)

/-- Sensor nibble 0 of a UV frame is the index in binary. -/
theorem sensorNib_uv_zero (enc : Encoder) (rd : Reading) : sensorNib .uv enc rd 0 = some (BitVec.ofNat 4 rd.uv.natAbs) := rfl

theorem sensTakes_uv (enc : Encoder) : sensTakes .uv enc = 0 :: enc.consts.map ConstNibble.offset := rfl

/-- An index of 0 to 15 is its own binary nibble. -/
theorem ofNat_natAbs_toNat {v : Int} (h0 : 0 ≤ v) (h15 : v ≤ 15) : ((BitVec.ofNat 4 v.natAbs).toNat : Int) = v := by
  rw [BitVec.toNat_ofNat, Nat.mod_eq_of_lt (by omega)]
  omega

/-- The one field of a UV profile raises READING_RANGE for an index outside 0 to 15 (R111). -/
theorem exec_fbSensUv_of_not_fits {s : State} (hv : validProfile s.cfg = true) (hk : s.cfg.kind = .uv)
    (h : ¬ (0 ≤ s.snapRd.uv ∧ s.snapRd.uv ≤ 15)) :
    exec .fbSensUv s = .next (raiseFault s 0x2 (rangeDetail uvField s.snapRd.uv)) := by
  have hraise := exec_sensOf_of_not_fits (before := []) (after := []) (f := uvField) hv (by rw [hk]; rfl) (by simp)
    (Bool.eq_false_iff.2 (mt (fieldFits_uvField _).1 h))
  rwa [hk] at hraise

/-- Settles O17: `exec_sensOf_of_fits` for the one field and the constants of a UV profile. -/
theorem fbSensUvEffect : Obligations.FbSensUvEffect := by
  intro s hv hk
  refine ⟨fun h0 h15 => ?_, fun h => ?_, fun h => ?_⟩
  · have hok := (sensor_bounds_of_valid hv).1
    obtain ⟨t, ht, hframe, hnib⟩ := exec_sensOf_of_fits hv (by rw [hk, readingFits_uv]; exact ⟨h0, h15⟩)
    rw [hk] at hok ht hframe hnib
    refine ⟨t, ht, hframe, ?_, fun c hc => ?_, fun i hi hconst => ?_⟩
    · rw [hnib, if_pos (le_refl 15), Nat.sub_self, sensorNib_uv_zero, Option.getD_some, ofNat_natAbs_toNat h0 h15]
    · rw [hnib, if_pos (Nat.le_add_right 15 _), Nat.add_sub_cancel_left, sensorNib_const _ hok hc, Option.getD_some]
    · rw [hnib]
      split
      case isTrue hge =>
        have hfree : i - 15 ∉ sensTakes .uv s.cfg.enc := by
          rw [sensTakes_uv, List.mem_cons, List.mem_map]
          rintro (h | ⟨c, hc, h⟩)
          · omega
          · exact hconst c hc (by omega)
        rw [(sensorNib_eq_none_iff _ _ _ _).2 hfree, Option.getD_none]
      case isFalse => rfl
  · rw [exec_fbSensUv_of_not_fits hv hk (by omega), rangeDetail, if_neg (by omega)]
    rfl
  · rw [exec_fbSensUv_of_not_fits hv hk (by omega), rangeDetail, if_pos ⟨rfl, h⟩]

end Sys2Proof.Machine
end

section
/-! SUPPORT. The proofs about what reaches the frame: no environment input (spec/41_frame_builder.md R120), and of the reading only its own
nibbles and the checksums (R118). -/

namespace Sys2Proof.Machine

/-! ### No environment input (R120) -/

theorem guardFrame_withEnv {addrs : List Nat} {s t u : State} (e : Env) (h : guardFrame addrs s t = .next u) :
    guardFrame addrs { s with env := e } { t with env := e } = .next { u with env := e } := by
  obtain ⟨hlt, rfl⟩ := guardFrame_eq_next h
  exact guardFrame_of_lt hlt

theorem storeAndGo_withEnv {ws : List FrameWrite} {c : Byte} {s t : State} (e : Env) (h : storeAndGo ws c s = .next t) :
    storeAndGo ws c { s with env := e } = .next { t with env := e } :=
  guardFrame_withEnv e h

/-- Fault entry reads the clock only for the setpoint that a HIGH line gets (R177). -/
theorem raiseFault_withEnv {s : State} (e : Env) (hlow : s.tx = .low) (code : BitVec 4) (detail : BitVec 8) :
    raiseFault { s with env := e } code detail = { raiseFault s code detail with env := e } := by
  simp [raiseFault, State.forceLow, hlow]

theorem sensStore_withEnv {kind : Kind} {fields : List FieldSpec} {s t : State} (e : Env) (hlow : s.tx = .low)
    (h : sensStore kind fields s = .next t) : sensStore kind fields { s with env := e } = .next { t with env := e } := by
  unfold sensStore at h ⊢
  dsimp only
  split at h
  case isTrue hk =>
    cases h
    rw [if_pos hk, raiseFault_withEnv e hlow]
  case isFalse hk =>
    rw [if_neg hk]
    split at h
    case h_1 =>
      cases h
      rw [← raiseFault_withEnv e hlow]
    case h_2 => cases h
    case h_3 => exact storeAndGo_withEnv e h

/-- Settles O20: each operation is a store, a sensor store or a guarded checksum, and none of these reads the input ports. -/
theorem buildReadsNoInput : Obligations.BuildReadsNoInput := by
  intro s t e i hi hlow h
  simp only [buildOps, checksumOps, List.cons_append, List.nil_append, List.mem_cons, List.not_mem_nil, or_false] at hi
  rcases hi with rfl | rfl | rfl | rfl | rfl | rfl | rfl | rfl
  case inr.inr.inr.inr.inl =>
    rw [exec_sensOf] at h
    exact (exec_sensOf { s with env := e }).trans (sensStore_withEnv e hlow h)
  case inr.inr.inr.inr.inr.inl | inr.inr.inr.inr.inr.inr.inl => exact guardFrame_withEnv e h
  all_goals exact storeAndGo_withEnv e h

/-! ### The CRC of one nibble (R124, R132) -/

/-- A round of the CRC taken back: bit 0 says whether the polynomial was added. -/
def crcUnround (c : Byte) : Byte := if c.getLsbD 0 then ((c ^^^ 0x07) >>> 1) ||| 0x80 else c >>> 1

theorem crcUnround_crcRound (c : Byte) : crcUnround (crcRound c) = c := by
  revert c
  decide

theorem crcRound_injective : Function.Injective crcRound := Function.LeftInverse.injective crcUnround_crcRound

theorem crcRounds_injective : Function.Injective crcRounds := fun _ _ h =>
  crcRound_injective (crcRound_injective (crcRound_injective (crcRound_injective h)))

/-- Different register values stay different over the same nibbles. -/
theorem foldl_crcStep_injective (ns : List Nibble) : Function.Injective fun c => ns.foldl crcStep c := by
  induction ns with
  | nil => exact Function.injective_id
  | cons n ns ih => exact fun c d h => (BitVec.xor_left_inj _).1 (crcRounds_injective (ih h))

/-- The CRC tells apart lists that differ in one nibble. -/
theorem crcOf_ne_of_ne (ns ms : List Nibble) {a b : Nibble} (h : a ≠ b) : crcOf (ns ++ a :: ms) ≠ crcOf (ns ++ b :: ms) := by
  intro hcrc
  rw [crcOf, crcOf, List.foldl_append, List.foldl_append] at hcrc
  have hjoin := (BitVec.xor_right_inj _).1 (crcRounds_injective (foldl_crcStep_injective ms hcrc))
  refine h ?_
  rw [← hiNib_joinNibs a 0, hjoin, hiNib_joinNibs]

/-- The additive checksum tells apart lists that differ in one nibble. -/
theorem sumOf_ne_of_ne (ns ms : List Nibble) {a b : Nibble} (h : a ≠ b) : sumOf (ns ++ a :: ms) ≠ sumOf (ns ++ b :: ms) := by
  intro hsum
  have hmod := congrArg BitVec.toNat hsum
  simp only [sumOf, BitVec.toNat_ofNat, List.map_append, List.map_cons, List.sum_append, List.sum_cons] at hmod
  have ha := a.isLt
  have hb := b.isLt
  exact h (BitVec.eq_of_toNat_eq (by omega))

/-! ### The frame of two readings (R118) -/

/-- A sensor nibble that no field takes does not depend on the reading. -/
theorem sensorNib_eq_of_not_field {kind : Kind} {enc : Encoder} {m : Nat} (rd rd' : Reading)
    (h : ∀ f ∈ fieldsOf kind enc, m ∉ fieldTakes f) : sensorNib kind enc rd m = sensorNib kind enc rd' m := by
  have hnone (r : Reading) : ((fieldsOf kind enc).findSome? fun f => fieldNib f (readField r f.input) m) = none :=
    List.findSome?_eq_none_iff.2 fun f hf => (fieldNib_eq_none_iff f _ m).2 (h f hf)
  rw [sensorNib, sensorNib, hnone, hnone]

theorem bodyNib_sensor {p : Profile} (roll : Byte) (batt : Bool) (rd : Reading) {i : Nat} (h15 : 15 ≤ i) (hk : i < 7 + p.k.toNat) :
    bodyNib p roll batt rd i = (sensorNib p.kind p.enc rd (i - 15)).getD 0 := by
  grind [bodyNib]

theorem bodyNib_above {p : Profile} (roll : Byte) (batt : Bool) (rd : Reading) {i : Nat} (h15 : 15 ≤ i) (hk : 7 + p.k.toNat ≤ i) :
    bodyNib p roll batt rd i = 0 := by
  grind [bodyNib]

/-- A nibble that no field takes does not depend on the reading, before the checksums. -/
theorem bodyNib_eq_of_not_field {p : Profile} (roll : Byte) (batt : Bool) (rd rd' : Reading) {i : Nat}
    (h : ∀ f ∈ fieldsOf p.kind p.enc, ∀ m ∈ fieldTakes f, i ≠ 15 + m) : bodyNib p roll batt rd i = bodyNib p roll batt rd' i := by
  by_cases hs : 15 ≤ i ∧ i < 7 + p.k.toNat
  · obtain ⟨j, rfl⟩ := Nat.exists_eq_add_of_le hs.1
    rw [bodyNib_sensor roll batt rd hs.1 hs.2, bodyNib_sensor roll batt rd' hs.1 hs.2, Nat.add_sub_cancel_left,
      sensorNib_eq_of_not_field rd rd' fun f hf hj => h f hf j hj rfl]
  · grind [bodyNib]

theorem frameNib_of_not_checksum {p : Profile} (roll : Byte) (batt : Bool) (rd : Reading) {i : Nat}
    (h : i < 7 + p.k.toNat ∨ 7 + p.k.toNat + 4 ≤ i) : frameNib p roll batt rd i = bodyNib p roll batt rd i := by
  simp only [frameNib, ckStart]
  rw [if_neg (by omega), if_neg (by omega), if_neg (by omega), if_neg (by omega)]

/-- The range splits at nibble 15, the first sensor nibble. -/
theorem bodyRange_split {p : Profile} (roll : Byte) (batt : Bool) (rd : Reading) (hk : 9 ≤ p.k.toNat) :
    bodyRange p roll batt rd =
      (List.range 8).map (fun j => bodyNib p roll batt rd (7 + j)) ++ bodyNib p roll batt rd 15 ::
        (List.range (p.k.toNat - 9)).map fun j => bodyNib p roll batt rd (16 + j) := by
  have hrange : List.range p.k.toNat = List.range 8 ++ 8 :: (List.range (p.k.toNat - 9)).map (9 + ·) := by
    rw [show p.k.toNat = 8 + 1 + (p.k.toNat - 9) by omega, List.range_add, List.range_succ]
    simp
  rw [bodyRange, hrange, List.map_append, List.map_cons, List.map_map]
  refine congrArg₂ _ rfl (congrArg₂ _ rfl (List.map_congr_left fun j _ => ?_))
  simp only [Function.comp_apply, ckStart]
  congr 1
  omega

/-- Two UV readings give ranges that differ at nibble 15 alone. -/
theorem exists_bodyRange_uv {p : Profile} (roll : Byte) (batt : Bool) (rd rd' : Reading) (hk : p.kind = .uv) (hlen : 9 ≤ p.k.toNat) :
    ∃ ns ms, bodyRange p roll batt rd = ns ++ bodyNib p roll batt rd 15 :: ms ∧
      bodyRange p roll batt rd' = ns ++ bodyNib p roll batt rd' 15 :: ms := by
  have hother (i : Nat) (hi : i ≠ 15) : bodyNib p roll batt rd' i = bodyNib p roll batt rd i := by
    refine bodyNib_eq_of_not_field roll batt rd' rd fun f hf m hm => ?_
    rw [hk] at hf
    cases List.mem_singleton.1 hf
    cases List.mem_singleton.1 hm
    exact hi
  refine ⟨_, _, bodyRange_split roll batt rd hlen, (bodyRange_split roll batt rd' hlen).trans ?_⟩
  refine congrArg₂ _ (List.map_congr_left fun j hj => hother _ ?_) (congrArg _ (List.map_congr_left fun j _ => hother _ (by omega)))
  have := List.mem_range.1 hj
  omega

/-- Nibble 15 of a valid UV profile's frame is the index in binary. -/
theorem bodyNib_uv {p : Profile} (roll : Byte) (batt : Bool) (rd : Reading) (hk : p.kind = .uv) (hlen : 9 ≤ p.k.toNat) :
    bodyNib p roll batt rd 15 = BitVec.ofNat 4 rd.uv.natAbs := by
  rw [bodyNib_sensor roll batt rd (le_refl 15) (by omega), hk]
  rfl

/-- A valid UV profile has room for the index's nibble. -/
theorem nine_le_of_valid_uv {p : Profile} (hv : validProfile p = true) (hk : p.kind = .uv) : 9 ≤ p.k.toNat := by
  obtain ⟨hok, hlen, -⟩ := sensor_bounds_of_valid hv
  rw [hk] at hok
  have : 0 < p.enc.nibbles := ((layoutOk_iff _ _).1 hok).1 0 (by simp [sensTakes_uv])
  omega

/-- Settles O28: outside the fields' nibbles and the checksums the frame is `bodyNib`, which no reading reaches there; two UV indices
change one nibble of the range, which both checksums tell apart. -/
theorem readingChangesOnlyItsNibbles : Obligations.ReadingChangesOnlyItsNibbles := by
  intro p roll batt rd rd'
  refine ⟨fun i hfield hck => ?_, fun hv hk h0 h15 h0' h15' hne => ?_⟩
  · rw [frameNib_of_not_checksum roll batt rd hck, frameNib_of_not_checksum roll batt rd' hck,
      bodyNib_eq_of_not_field roll batt rd rd' hfield]
  · have hlen := nine_le_of_valid_uv hv hk
    have hnib : bodyNib p roll batt rd 15 ≠ bodyNib p roll batt rd' 15 := by
      rw [bodyNib_uv roll batt rd hk hlen, bodyNib_uv roll batt rd' hk hlen]
      intro h
      refine hne ?_
      rw [← ofNat_natAbs_toNat h0 h15, h, ofNat_natAbs_toNat h0' h15']
    obtain ⟨ns, ms, hrange, hrange'⟩ := exists_bodyRange_uv roll batt rd rd' hk hlen
    rw [frameNib_of_not_checksum roll batt rd (by omega), frameNib_of_not_checksum roll batt rd' (by omega), hrange, hrange']
    exact ⟨hnib, sumOf_ne_of_ne ns ms hnib, crcOf_ne_of_ne ns ms hnib⟩

end Sys2Proof.Machine
end

section
/-! SUPPORT. The proofs about the whole frame (spec/41_frame_builder.md R98, R99, R119): what the checksum operations leave, and the eight
steps of BUILD and CHECKSUM against `frameOf`. -/

namespace Sys2Proof.Machine

/-! ### The checksum operations (spec/42_checksum.md R122 to R127) -/

/-- The loop of CK_SUM adds up the nibbles from number `2 * k` on, whole bytes first and then the half-covered one (R123). -/
theorem sumLoop_eq (m : Memory) (r k acc : Nat) :
    sumLoop m r k acc = acc + ((List.range r).map fun j => (m.nib (2 * k + j)).toNat).sum := by
  have hhi (k : Nat) : hiNib (m.read k) = m.nib (2 * k) := by simp [Memory.nib]
  have hlo (k : Nat) : loNib (m.read k) = m.nib (2 * k + 1) := by rw [m.read_eq_nibs, loNib_joinNibs]
  induction r, k, acc using sumLoop.induct m with
  | case1 k acc => simp [sumLoop]
  | case2 k acc => simp [sumLoop, hhi]
  | case3 r k acc ih =>
    have htwo (j : Nat) : 2 * (k + 1) + j = 2 * k + (j + 1 + 1) := by omega
    rw [sumLoop, ih, List.range_succ_eq_map, List.range_succ_eq_map, hhi, hlo]
    simp [htwo, Function.comp_def, Nat.add_assoc]

/-- The checksum range's nibbles, the first of them in byte 3 and the others from byte 4 on (R57). -/
theorem sumLoop_range (m : Memory) {k : Nat} (hk : 1 ≤ k) :
    BitVec.ofNat 8 (sumLoop m (k - 1) 4 (loNib (m.read 3)).toNat) = sumOf (m.rangeNibs k) := by
  have hfirst : loNib (m.read 3) = m.nib 7 := rfl
  obtain ⟨k, rfl⟩ := Nat.exists_eq_add_of_le' hk
  have hrange (j : Nat) : ckStart + (j + 1) = 2 * 4 + j := by rw [ckStart]; omega
  rw [sumLoop_eq, hfirst, Nat.add_sub_cancel, sumOf, Memory.rangeNibs, List.range_succ_eq_map]
  simp [Function.comp_def, hrange]

theorem rangeAddrs_lt {k l : Nat} (hl : 7 + k ≤ 2 * l) : ∀ a ∈ rangeAddrs k, a < l := by
  intro a ha
  obtain ⟨j, hj, rfl⟩ := List.mem_map.1 ha
  rw [List.mem_range] at hj
  rw [ckStart]
  omega

theorem exec_ckSum {s : State} (hk : 1 ≤ s.cfg.k.toNat) (hl : 7 + s.cfg.k.toNat ≤ 2 * s.cfg.l.toNat) :
    exec .ckSum s = .next { s with
      sum := sumOf (s.fb.rangeNibs s.cfg.k.toNat), written := { s.written with sum := true }, seq := 0x21 } := by
  rw [← sumLoop_range s.fb hk]
  refine guardFrame_of_lt fun a ha => ?_
  rcases List.mem_cons.1 ha with rfl | ha
  · omega
  · exact rangeAddrs_lt hl a ha

theorem exec_ckCrc {s : State} (hl : 7 + s.cfg.k.toNat ≤ 2 * s.cfg.l.toNat) :
    exec .ckCrc s = .next { s with
      crc := crcOf (s.fb.rangeNibs s.cfg.k.toNat), written := { s.written with crc := true }, seq := 0x22 } :=
  guardFrame_of_lt (rangeAddrs_lt hl)

theorem exec_ckStore {s : State} (hl : 11 + s.cfg.k.toNat ≤ 2 * s.cfg.l.toNat) :
    let p := 7 + s.cfg.k.toNat
    ∃ t, exec .ckStore s = .next t ∧ frameStored s t 0x30 [p / 2, (p + 1) / 2, (p + 2) / 2, (p + 3) / 2] ∧
      ∀ i, t.fb.nib i =
        if i = p then loNib s.sum else if i = p + 1 then hiNib s.sum
        else if i = p + 2 then loNib s.crc else if i = p + 3 then hiNib s.crc else s.fb.nib i := by
  intro p
  obtain ⟨t, ht, hframe, hfb⟩ := storeAndGo_effect (s := s)
    (ws := [.nib p (loNib s.sum), .nib (p + 1) (hiNib s.sum), .nib (p + 2) (loNib s.crc), .nib (p + 3) (hiNib s.crc)]) 0x30
    [p / 2, (p + 1) / 2, (p + 2) / 2, (p + 3) / 2] (by simp [FrameWrite.addr]) (by simp; omega)
  refine ⟨t, ht, hframe, fun i => ?_⟩
  simp only [hfb, Memory.storeAll_cons, Memory.storeAll_nil, Memory.nib_store]
  grind

/-! ### The run of BUILD and CHECKSUM -/

/-- The second state is the first but for what BUILD, CHECKSUM and the environment may change: the frame buffer, the checksums, the marks,
`SEQ` and the input ports. -/
def sameButFrame (s t : State) : Prop := ∃ fb sum crc written seq env, t = { s with fb, sum, crc, written, seq, env }

theorem sameButFrame.trans {s t u : State} (hst : sameButFrame s t) (htu : sameButFrame t u) : sameButFrame s u := by
  obtain ⟨_, _, _, _, _, _, rfl⟩ := hst
  obtain ⟨_, _, _, _, _, _, rfl⟩ := htu
  exact ⟨_, _, _, _, _, _, rfl⟩

/-- What a frame's inputs, the line and the scheduler's phase are in both states. -/
theorem sameButFrame.fields {s t : State} (h : sameButFrame s t) :
    t.cfg = s.cfg ∧ t.roll = s.roll ∧ t.snapBatt = s.snapBatt ∧ t.snapRd = s.snapRd ∧ t.tx = s.tx ∧ t.trace = s.trace ∧
      t.sphase = s.sphase := by
  obtain ⟨_, _, _, _, _, _, rfl⟩ := h
  exact ⟨rfl, rfl, rfl, rfl, rfl, rfl, rfl⟩

theorem sameButFrame.cfg {s t : State} (h : sameButFrame s t) : t.cfg = s.cfg := h.fields.1

theorem frameStored.sameButFrame {s t : State} {c : Byte} {addrs : List Nat} (h : frameStored s t c addrs) : sameButFrame s t :=
  ⟨_, _, _, _, _, _, h.1⟩

/-- In the run of BUILD and CHECKSUM that began in `s₀`: operation `i` is next, and no reset event is pending or comes in `n` turns. -/
structure InBuild (s₀ : State) (i : Instr) (n : Nat) (s : State) : Prop where
  same : sameButFrame s₀ s
  seq : s.seq = encode i
  resetReq : s.env.resetReq = false
  noReset : s.env.noReset n

/-- The decoder reads each operation's own code (R73). -/
theorem decode_encode (i : Instr) : decode (encode i) = .ok i := by
  cases i <;> rfl

section
variable {s₀ s u : State} {i j : Instr} {n : Nat}

/-- One step of the run: the operation's next state, then a turn of the environment, which reaches the input ports only. -/
theorem InBuild.step (h : InBuild s₀ i (n + 1) s) (hu : exec i s = .next u) (hsame : sameButFrame s u) (hseq : u.seq = encode j)
    (henv : u.env = s.env) :
    ∃ t, Machine.step s = .next t ∧ InBuild s₀ j n t ∧ t.fb = u.fb ∧ t.sum = u.sum ∧ t.crc = u.crc := by
  have hact : s.nextAction = .run i := State.nextAction_run h.resetReq (h.seq ▸ decode_encode i)
  refine ⟨u.environment (Action.run i).takesTime, by rw [step_run hact, hu]; rfl, ⟨?_, hseq, ?_, fun k hk => ?_⟩, rfl, rfl, rfl⟩
  · exact h.same.trans (hsame.trans ⟨_, _, _, _, _, _, rfl⟩)
  · simp [henv, h.resetReq, h.noReset 0 (Nat.succ_pos n)]
  · rw [State.environment_env, Env.turnAt_turned, henv]
    exact h.noReset (k + 1) (Nat.succ_lt_succ hk)

/-- One step of the run that stores to the frame. -/
theorem InBuild.step_store {addrs : List Nat} (h : InBuild s₀ i (n + 1) s) (hu : exec i s = .next u)
    (hframe : frameStored s u (encode j) addrs) : ∃ t, Machine.step s = .next t ∧ InBuild s₀ j n t ∧ t.fb = u.fb := by
  obtain ⟨t, ht, hb, hfb, -⟩ := h.step hu hframe.sameButFrame (congrArg State.seq hframe.1 :) (congrArg State.env hframe.1 :)
  exact ⟨t, ht, hb, hfb⟩

/-! ### BUILD (R98) -/

theorem InBuild.fbClear (h : InBuild s₀ .fbClear (n + 1) s) :
    ∃ t, Machine.step s = .next t ∧ InBuild s₀ .fbHdr n t ∧ ∀ i < 2 * s₀.cfg.l.toNat, t.fb.nib i = 0 := by
  obtain ⟨u, hu, hframe, hzero⟩ := exec_fbClear s
  obtain ⟨t, ht, hb, hfb⟩ := h.step_store (j := .fbHdr) hu hframe
  refine ⟨t, ht, hb, fun i hi => ?_⟩
  rw [hfb, Memory.nib, hzero _ (by rw [h.same.cfg]; omega)]
  exact ite_self _

theorem InBuild.fbHdr (h : InBuild s₀ .fbHdr (n + 1) s) (hl : 4 ≤ s₀.cfg.l.toNat) :
    ∃ t, Machine.step s = .next t ∧ InBuild s₀ .fbId n t ∧
      ∀ i, t.fb.nib i = if i < 6 then 0xF else if i = 6 then 0xA else s.fb.nib i := by
  obtain ⟨u, hu, hframe, hnib⟩ := exec_fbHdr (s := s) (h.same.cfg ▸ hl)
  obtain ⟨t, ht, hb, hfb⟩ := h.step_store (j := .fbId) hu hframe
  exact ⟨t, ht, hb, hfb ▸ hnib⟩

theorem InBuild.fbId (h : InBuild s₀ .fbId (n + 1) s) (hl : 6 ≤ s₀.cfg.l.toNat) :
    ∃ t, Machine.step s = .next t ∧ InBuild s₀ .fbRoll n t ∧
      ∀ i, t.fb.nib i =
        if 7 ≤ i ∧ i < 11 then sidNib s₀.cfg.sensorId (i - 7) else if i = 11 then channelNib s₀.cfg.channel else s.fb.nib i := by
  obtain ⟨u, hu, hframe, hnib⟩ := exec_fbId (s := s) (h.same.cfg ▸ hl)
  obtain ⟨t, ht, hb, hfb⟩ := h.step_store (j := .fbRoll) hu hframe
  exact ⟨t, ht, hb, h.same.cfg ▸ hfb ▸ hnib⟩

theorem InBuild.fbRoll (h : InBuild s₀ .fbRoll (n + 1) s) (hl : 8 ≤ s₀.cfg.l.toNat) :
    ∃ t, Machine.step s = .next t ∧ InBuild s₀ (Instr.sensOf s₀.cfg.kind) n t ∧
      ∀ i, t.fb.nib i =
        if i = 12 then hiNib s₀.roll else if i = 13 then loNib s₀.roll
        else if i = 14 then batteryNib s₀.snapBatt else s.fb.nib i := by
  obtain ⟨hcfg, hroll, hbatt, -⟩ := h.same.fields
  obtain ⟨u, hu, hframe, hnib⟩ := exec_fbRoll (s := s) (hcfg ▸ hl)
  rw [hcfg] at hframe
  rw [hroll, hbatt] at hnib
  obtain ⟨t, ht, hb, hfb⟩ := h.step_store hu hframe
  exact ⟨t, ht, hb, hfb ▸ hnib⟩

theorem InBuild.sens (h : InBuild s₀ (Instr.sensOf s₀.cfg.kind) (n + 1) s) (hv : validProfile s₀.cfg = true)
    (hfit : readingFits s₀.cfg.kind s₀.cfg.enc s₀.snapRd = true) :
    ∃ t, Machine.step s = .next t ∧ InBuild s₀ .ckSum n t ∧
      ∀ i, t.fb.nib i =
        if 15 ≤ i then (sensorNib s₀.cfg.kind s₀.cfg.enc s₀.snapRd (i - 15)).getD (s.fb.nib i) else s.fb.nib i := by
  obtain ⟨hcfg, -, -, hrd, -⟩ := h.same.fields
  rw [← hcfg] at hv
  rw [← hcfg, ← hrd] at hfit
  obtain ⟨u, hu, hframe, hnib⟩ := exec_sensOf_of_fits hv hfit
  rw [hcfg] at hu hnib
  rw [hrd] at hnib
  obtain ⟨t, ht, hb, hfb⟩ := h.step_store (j := .ckSum) hu hframe
  exact ⟨t, ht, hb, hfb ▸ hnib⟩

/-- Above the measurement no field or constant of a valid profile takes a nibble. -/
theorem sensorNib_of_valid {p : Profile} (hv : validProfile p = true) (rd : Reading) {m : Nat} (hm : p.k.toNat ≤ 8 + m) :
    sensorNib p.kind p.enc rd m = none := by
  obtain ⟨hok, hk, -⟩ := sensor_bounds_of_valid hv
  refine (sensorNib_eq_none_iff _ _ _ _).2 fun h => ?_
  have := ((layoutOk_iff _ _).1 hok).1 m h
  omega

/-- BUILD leaves the frame before its checksums. -/
theorem InBuild.build (h : InBuild s₀ .fbClear (n + 5) s) (hv : validProfile s₀.cfg = true)
    (hfit : readingFits s₀.cfg.kind s₀.cfg.enc s₀.snapRd = true) :
    ∃ t, steps 5 s = .next t ∧ InBuild s₀ .ckSum n t ∧
      ∀ i < 2 * s₀.cfg.l.toNat, t.fb.nib i = bodyNib s₀.cfg s₀.roll s₀.snapBatt s₀.snapRd i := by
  obtain ⟨-, -, hl⟩ := sensor_bounds_of_valid hv
  obtain ⟨s₁, h₁, hb₁, hclear⟩ := h.fbClear
  obtain ⟨s₂, h₂, hb₂, hhdr⟩ := hb₁.fbHdr (by omega)
  obtain ⟨s₃, h₃, hb₃, hid⟩ := hb₂.fbId (by omega)
  obtain ⟨s₄, h₄, hb₄, hroll⟩ := hb₃.fbRoll (by omega)
  obtain ⟨t, h₅, hb₅, hsens⟩ := hb₄.sens hv hfit
  refine ⟨t, ?_, hb₅, fun i hi => ?_⟩
  · rw [steps_succ h₁, steps_succ h₂, steps_succ h₃, steps_succ h₄, steps_succ h₅, steps]
  · have hfixed : s₄.fb.nib i = if 15 ≤ i then 0 else bodyNib s₀.cfg s₀.roll s₀.snapBatt s₀.snapRd i := by
      rw [hroll, hid, hhdr, hclear i hi]
      grind [bodyNib]
    rw [hsens, hfixed]
    by_cases h15 : 15 ≤ i
    · rw [if_pos h15, if_pos h15]
      by_cases hk : i < 7 + s₀.cfg.k.toNat
      · rw [bodyNib_sensor _ _ _ h15 hk]
      · rw [bodyNib_above _ _ _ h15 (by omega), sensorNib_of_valid hv _ (by omega), Option.getD_none]
    · rw [if_neg h15, if_neg h15]

/-! ### CHECKSUM (R99) -/

theorem rangeNibs_eq_bodyRange {m : Memory} {p : Profile} {roll : Byte} {batt : Bool} {rd : Reading}
    (hl : 7 + p.k.toNat ≤ 2 * p.l.toNat) (hnib : ∀ i < 2 * p.l.toNat, m.nib i = bodyNib p roll batt rd i) :
    m.rangeNibs p.k.toNat = bodyRange p roll batt rd :=
  List.map_congr_left fun j hj => hnib _ (by
    have := List.mem_range.1 hj
    rw [ckStart]
    omega)

/-- CHECKSUM completes the frame. -/
theorem InBuild.checksum (h : InBuild s₀ .ckSum (n + 3) s) (hv : validProfile s₀.cfg = true)
    (hnib : ∀ i < 2 * s₀.cfg.l.toNat, s.fb.nib i = bodyNib s₀.cfg s₀.roll s₀.snapBatt s₀.snapRd i) :
    ∃ t, steps 3 s = .next t ∧ InBuild s₀ .encStart n t ∧
      ∀ i < 2 * s₀.cfg.l.toNat, t.fb.nib i = frameNib s₀.cfg s₀.roll s₀.snapBatt s₀.snapRd i := by
  obtain ⟨-, hk, hl⟩ := sensor_bounds_of_valid hv
  have hrange := rangeNibs_eq_bodyRange (by omega) hnib
  have hcfg := h.same.cfg
  obtain ⟨s₁, h₁, hb₁, hfb₁, hsum₁, -⟩ := h.step (j := .ckCrc) (exec_ckSum (by rw [hcfg]; omega) (by rw [hcfg]; omega))
    ⟨_, _, _, _, _, _, rfl⟩ rfl rfl
  have hcfg₁ := hb₁.same.cfg
  obtain ⟨s₂, h₂, hb₂, hfb₂, hsum₂, hcrc₂⟩ := hb₁.step (j := .ckStore) (exec_ckCrc (by rw [hcfg₁]; omega))
    ⟨_, _, _, _, _, _, rfl⟩ rfl rfl
  have hcfg₂ := hb₂.same.cfg
  obtain ⟨u, hu, hframe, hstored⟩ := exec_ckStore (s := s₂) (by rw [hcfg₂]; omega)
  obtain ⟨t, h₃, hb₃, hfb₃⟩ := hb₂.step_store (j := .encStart) hu hframe
  refine ⟨t, by rw [steps_succ h₁, steps_succ h₂, steps_succ h₃, steps], hb₃, fun i hi => ?_⟩
  have hsum : s₂.sum = sumOf (bodyRange s₀.cfg s₀.roll s₀.snapBatt s₀.snapRd) := by
    rw [hsum₂, hsum₁, hcfg, hrange]
  have hcrc : s₂.crc = crcOf (bodyRange s₀.cfg s₀.roll s₀.snapBatt s₀.snapRd) := by
    rw [hcrc₂, hfb₁, hcfg₁, hrange]
  rw [hfb₃, hstored, hsum, hcrc, hcfg₂, hfb₂, hfb₁, hnib i hi]
  rfl

/-- A frame of which every nibble is `frameNib` is `frameOf` (R119). -/
theorem bytes_eq_frameOf {m : Memory} {p : Profile} {roll : Byte} {batt : Bool} {rd : Reading}
    (hnib : ∀ i < 2 * p.l.toNat, m.nib i = frameNib p roll batt rd i) : m.bytes p.l.toNat = frameOf p roll batt rd :=
  List.map_congr_left fun k hk => by
    have := List.mem_range.1 hk
    rw [m.read_eq_nibs, hnib _ (by omega), hnib _ (by omega)]

end

/-- Settles O29: the five steps of BUILD, then the three of CHECKSUM; none changes the frame's inputs, the line or the phase. -/
theorem buildAndChecksumGiveFrameOf : Obligations.BuildAndChecksumGiveFrameOf := by
  intro s hseq hv hfit hr hn
  have h : InBuild s .fbClear 8 s := ⟨⟨_, _, _, _, _, _, rfl⟩, hseq, hr, hn⟩
  obtain ⟨a, ha, hba, hbody⟩ := h.build hv hfit
  obtain ⟨t, ht, hbt, hframe⟩ := hba.checksum hv hbody
  obtain ⟨-, -, -, -, htx, htrace, hphase⟩ := hbt.same.fields
  exact ⟨t, (steps_add ha 3).trans ht, bytes_eq_frameOf hframe, hbt.seq, htx, htrace, hphase⟩

end Sys2Proof.Machine
end

section
/-! SUPPORT. The proofs about the checksums (spec/42_checksum.md R122 to R132): what the three checksum operations write, and the CRC as a
linear map, from which its equivalent forms, its table and its laws follow. -/

namespace Sys2Proof.Machine

/-! ### The operations (R122 to R127) -/

/-- Settles O21: the sum that `exec_ckSum` gives is `sumOf` of the range, and taking it modulo 256 first leaves a byte as it is. -/
theorem ckSumIsTheRangeSum : Obligations.CkSumIsTheRangeSum := by
  intro s hk hl
  have hsum : sumOf (s.fb.rangeNibs s.cfg.k.toNat) =
      BitVec.ofNat 8 (((List.range s.cfg.k.toNat).map fun j => (s.fb.nib (7 + j)).toNat).sum % 256) := by
    refine BitVec.eq_of_toNat_eq ?_
    simp [sumOf, Memory.rangeNibs, ckStart, Function.comp_def]
  rw [exec_ckSum hk (by omega), hsum]

/-- Settles O22: every nibble of the range lies in the frame, so the guard of CK_CRC lets it through, an empty range included. -/
theorem ckCrcIsTheRangeCrc : Obligations.CkCrcIsTheRangeCrc := by
  intro s hl
  refine guardFrame_of_lt fun a ha => ?_
  obtain ⟨j, hj, rfl⟩ := List.mem_map.1 ha
  exact hl j (List.mem_range.1 hj)

/-- Settles O23, by the effect of CK_STORE that the frame's proof uses. -/
theorem ckStoreEffect : Obligations.CkStoreEffect := fun _ hl => exec_ckStore (by omega)

/-! ### The rounds are linear (R124) -/

/-- What a round adds for the bit it shifts out: the polynomial `0x07` for 1, nothing for 0 (R124). -/
def crcPoly (b : Bool) : Byte := if b then 0x07 else 0

theorem crcPoly_xor (a b : Bool) : crcPoly (a ^^ b) = crcPoly a ^^^ crcPoly b := by
  cases a <;> cases b <;> rfl

theorem crcRound_eq (c : Byte) : crcRound c = (c <<< 1) ^^^ crcPoly (c.getLsbD 7) := by
  unfold crcRound crcPoly
  split
  · rfl
  · exact (BitVec.xor_zero).symm

theorem crcRound_xor (c d : Byte) : crcRound (c ^^^ d) = crcRound c ^^^ crcRound d := by
  simp only [crcRound_eq, BitVec.shiftLeft_xor_distrib, BitVec.getLsbD_xor, crcPoly_xor]
  ac_rfl

theorem crcRounds_xor (c d : Byte) : crcRounds (c ^^^ d) = crcRounds c ^^^ crcRounds d := by
  simp only [crcRounds, crcRound_xor]

/-- Four rounds move a low nibble into the high half: no 1 is shifted out on the way. -/
theorem crcRounds_joinNibs_zero_left (n : Nibble) : crcRounds (joinNibs 0 n) = joinNibs n 0 := by
  revert n
  decide

theorem joinNibs_xor (h l h' l' : Nibble) : joinNibs h l ^^^ joinNibs h' l' = joinNibs (h ^^^ h') (l ^^^ l') := by
  rw [joinNibs, joinNibs, joinNibs, BitVec.xor_append]

/-! ### The low-nibble form (R126 (b)) -/

/-- The low-nibble form takes its nibble in after the rounds. -/
theorem crcLowStep_eq (c : Byte) (n : Nibble) : crcLowStep c n = crcRounds c ^^^ joinNibs n 0 := by
  rw [crcLowStep, crcRounds_xor, crcRounds_joinNibs_zero_left]

/-- The low-nibble form stays four rounds behind the CRC. -/
theorem crcRounds_foldl_crcLowStep (ns : List Nibble) (c : Byte) :
    crcRounds (ns.foldl crcLowStep c) = ns.foldl crcStep (crcRounds c) := by
  induction ns generalizing c with
  | nil => rfl
  | cons n ns ih =>
    have hstep : crcRounds (crcLowStep c n) = crcStep (crcRounds c) n := by rw [crcLowStep_eq, crcStep]
    rw [List.foldl_cons, List.foldl_cons, ih, hstep]

/-- The trailing zero nibble of the low-nibble form makes up the four rounds. -/
theorem crcLowForm_eq (ns : List Nibble) : crcLowForm ns = crcOf ns := by
  have htrail (c : Byte) : crcLowStep c 0 = crcRounds c := (crcLowStep_eq c 0).trans BitVec.xor_zero
  rw [crcLowForm, List.foldl_append, List.foldl_cons, List.foldl_nil, htrail, crcRounds_foldl_crcLowStep]
  rfl

/-! ### The table form (R126 (a), R129) -/

theorem crcTable_length : crcTable.length = 256 := by
  simp only [crcTable, List.length_append, List.length_cons, List.length_nil]

/-- An entry of the table is eight rounds of its index (R129). -/
theorem crcEntry_eq (b : Byte) : crcEntry b = crcRounds (crcRounds b) := by
  revert b
  decide

/-- A look-up takes in two nibbles at once. -/
theorem crcEntry_xor_joinNibs (c : Byte) (n m : Nibble) : crcEntry (c ^^^ joinNibs n m) = crcStep (crcStep c n) m := by
  have hpair : joinNibs n m = joinNibs n 0 ^^^ joinNibs 0 m := by simp [joinNibs_xor]
  rw [crcEntry_eq, crcStep, crcStep, hpair, ← BitVec.xor_assoc, crcRounds_xor (c ^^^ joinNibs n 0), crcRounds_joinNibs_zero_left]

/-- The last look-up of an odd list is a nibble step: the register's low nibble moves up, its high nibble meets the list's. -/
theorem crcEntry_last (c : Byte) (n : Nibble) :
    joinNibs (loNib c) 0 ^^^ crcEntry (joinNibs 0 (hiNib c) ^^^ joinNibs 0 n) = crcStep c n := by
  have hsplit : c ^^^ joinNibs n 0 = joinNibs 0 (loNib c) ^^^ joinNibs (hiNib c ^^^ n) 0 := by
    conv_lhs => rw [← joinNibs_hi_lo c]
    simp [joinNibs_xor, -joinNibs_hi_lo]
  have hlow : joinNibs 0 (hiNib c) ^^^ joinNibs 0 n = joinNibs 0 (hiNib c ^^^ n) := joinNibs_xor 0 _ 0 _
  rw [crcStep, hsplit, crcRounds_xor, crcRounds_joinNibs_zero_left, hlow, crcEntry_eq, crcRounds_joinNibs_zero_left]

theorem crcByTable_eq (c : Byte) (ns : List Nibble) : crcByTable c ns = ns.foldl crcStep c := by
  induction c, ns using crcByTable.induct with
  | case1 c => rfl
  | case2 c n => exact crcEntry_last c n
  | case3 c n m ns ih =>
    rw [crcByTable, ih, crcEntry_xor_joinNibs]
    rfl

/-- Settles O24: both forms equal the CRC on every list (`crcByTable_eq`, `crcLowForm_eq`); the byte without its trailing step is run. -/
theorem crcFormsAgree : Obligations.CrcFormsAgree :=
  ⟨fun ns => ⟨crcByTable_eq 0 ns, crcLowForm_eq ns⟩, by decide, by decide⟩

/-- Settles O25: the entry of a byte is the table form of its two nibbles, which both other forms equal. -/
theorem crcTableIsTheByteCrc : Obligations.CrcTableIsTheByteCrc := by
  have hcrc (b : Byte) : crcEntry b = crcOf [hiNib b, loNib b] := by
    calc crcEntry b = crcEntry (0#8 ^^^ joinNibs (hiNib b) (loNib b)) := by rw [joinNibs_hi_lo, BitVec.zero_xor]
      _ = crcOf [hiNib b, loNib b] := crcEntry_xor_joinNibs 0 _ _
  exact ⟨crcTable_length, rfl, rfl, fun b => ⟨hcrc b, (hcrc b).trans (crcLowForm_eq _).symm⟩⟩

/-! ### The laws (R131, R132) -/

theorem crcStep_xor (c d : Byte) (n m : Nibble) : crcStep (c ^^^ d) (n ^^^ m) = crcStep c n ^^^ crcStep d m := by
  have hjoin : joinNibs (n ^^^ m) 0 = joinNibs n 0 ^^^ joinNibs m 0 := (joinNibs_xor n 0 m 0).symm
  rw [crcStep, crcStep, crcStep, ← crcRounds_xor, hjoin]
  ac_rfl

/-- The CRC is linear in its register and its nibbles together. -/
theorem foldl_crcStep_xor {ns ms : List Nibble} (h : ns.length = ms.length) (c d : Byte) :
    (List.zipWith (· ^^^ ·) ns ms).foldl crcStep (c ^^^ d) = ns.foldl crcStep c ^^^ ms.foldl crcStep d := by
  induction ns generalizing ms c d with
  | nil =>
    obtain rfl := List.length_eq_zero_iff.1 h.symm
    rfl
  | cons n ns ih =>
    cases ms with
    | nil => cases h
    | cons m ms =>
      rw [List.zipWith_cons_cons, List.foldl_cons, crcStep_xor, ih (Nat.succ.inj h)]
      rfl

theorem sumOf_perm {ns ms : List Nibble} (h : ns.Perm ms) : sumOf ns = sumOf ms :=
  congrArg (BitVec.ofNat 8) (h.map BitVec.toNat).sum_eq

/-- Settles O26: a sum does not see the order, the CRC is a fold of the linear step from 0, and the range `0 1` has another CRC than
`1 0`. -/
theorem checksumLaws : Obligations.ChecksumLaws :=
  ⟨fun _ _ => sumOf_perm, fun _ _ h => foldl_crcStep_xor h 0 0, [0, 1], [1, 0], .swap 1 0 [], by decide⟩

/-- Settles O27: a step's nibble can be taken back from its register, and no later step loses the difference (`crcOf_ne_of_ne`). -/
theorem crcSeesEverySingleNibble : Obligations.CrcSeesEverySingleNibble := fun ns ms _ _ h => crcOf_ne_of_ne ns ms h

end Sys2Proof.Machine
end

section
/-! SUPPORT. The proofs about the line encoder (spec/43_manchester.md R138 to R146): the effect of its operations, the run from ENC_START
bit by bit with whatever delays, and its waveform in the ideal model. -/

namespace Sys2Proof.Machine

/-! ### The operations (R140 to R143) -/

/-- Settles O30: the operation's definition, with `setLine` in it written out. -/
theorem encStartEffect : Obligations.EncStartEffect := fun _ => rfl

/-- The state after ENC_START (R140). -/
def State.encStarted (s : State) : State :=
  { s.setLine .low with dl := s.env.now, bitix := 0, written := { s.written with dl := true, bitix := true }, seq := 0x31 }

/-- The state after ENC_FIRST inside the bit stream (R141). -/
def State.firstPhase (s : State) : State :=
  { (s.sleepUntil s.dl).setLine (firstLevel (s.fb.lineBit s.bitix.toNat)) with lastBit := s.fb.lineBit s.bitix.toNat, seq := 0x32 }

/-- The time of the transition in the middle of a bit (R137), free where it does not fit the clock (log 9). -/
def State.transition (s : State) : Time := fit 64 (s.dl.toNat + s.onUs.toNat)

/-- The state after ENC_SECOND (R142). -/
def State.secondPhase (s : State) : State :=
  { (s.sleepUntil s.transition).setLine (secondLevel s.lastBit) with
    dl := fit 64 (s.dl.toNat + bitUs)
    bitix := fit 16 (s.bitix.toNat + 1)
    written := { s.written with dl := true, bitix := true }
    seq := if (fit 16 (s.bitix.toNat + 1)).toNat = 8 * s.cfg.l.toNat then 0x33 else 0x31 }

/-- The state at the end of ENC_END's sleeps (R143). -/
def State.closed (s : State) : State :=
  if s.lastBit then (s.sleepUntil s.dl).sleepUntil (fit 64 (s.dl.toNat + halfUs)) else s.sleepUntil s.dl

/-- The state after ENC_END (R143). -/
def State.encEnded (s : State) : State := (s.closed.setLine .low).goto (if s.cfg.logPresent then 0x50 else 0x42)

theorem exec_encStart (s : State) : exec .encStart s = .next s.encStarted := rfl

theorem exec_encFirst {s : State} (h : s.bitix.toNat < 8 * s.cfg.l.toNat) : exec .encFirst s = .next s.firstPhase :=
  guardFrame_of_lt fun a ha => by
    rw [List.mem_singleton.1 ha]
    omega

theorem exec_encSecond (s : State) : exec .encSecond s = .next s.secondPhase := rfl

theorem exec_encEnd (s : State) : exec .encEnd s = .next s.encEnded := rfl

@[simp] theorem State.closed_fb (s : State) : s.closed.fb = s.fb := by
  unfold State.closed
  split <;> rfl

@[simp] theorem State.closed_trace (s : State) : s.closed.trace = s.trace := by
  unfold State.closed
  split <;> rfl

/-- Settles O31: the bit that ENC_FIRST reads at its cursor is the bit of the stream there (R60). -/
theorem encFirstEffect : Obligations.EncFirstEffect := by
  intro s hcursor b hb
  rw [frameBits_bytes_getElem? _ hcursor] at hb
  cases hb
  exact exec_encFirst hcursor

/-! ### The run of an encode (R138) -/

/-- A step whose operation comes before an encoder wait: its next state, then a turn in which no processing time passes (R205). -/
theorem step_beforeWait {s u : State} {i : Instr} (hr : s.env.resetReq = false) (hseq : s.seq = encode i) (hi : i ∈ beforeWait)
    (hu : exec i s = .next u) : step s = .next (u.environment false) := by
  have htimed : (Action.run i).takesTime = false := decide_eq_false fun h => h hi
  rw [step_run (State.nextAction_run hr (hseq ▸ decode_encode i)), hu, htimed]
  rfl

/-- The state after the two operations of a bit, each with its turn of the environment. -/
def State.bitSent (s : State) : State := (s.firstPhase.environment false).secondPhase.environment false

/-- The state after ENC_START and `j` bits. -/
def State.afterBits (s : State) : Nat → State
  | 0 => s.encStarted.environment false
  | j + 1 => (s.afterBits j).bitSent

/-! The fields of `State.bitSent` are read off by `simp`: a check by unfolding would evaluate `fit` at `2 ^ 64`. -/

@[simp] theorem State.bitSent_cfg (s : State) : s.bitSent.cfg = s.cfg := by
  simp [State.bitSent, State.firstPhase, State.secondPhase]

@[simp] theorem State.bitSent_fb (s : State) : s.bitSent.fb = s.fb := by
  simp [State.bitSent, State.firstPhase, State.secondPhase]

@[simp] theorem State.bitSent_onUs (s : State) : s.bitSent.onUs = s.onUs := by
  simp [State.bitSent, State.firstPhase, State.secondPhase]

@[simp] theorem State.bitSent_dl (s : State) : s.bitSent.dl = fit 64 (s.dl.toNat + bitUs) := by
  simp [State.bitSent, State.firstPhase, State.secondPhase]

@[simp] theorem State.bitSent_bitix (s : State) : s.bitSent.bitix = fit 16 (s.bitix.toNat + 1) := by
  simp [State.bitSent, State.firstPhase, State.secondPhase]

@[simp] theorem State.bitSent_lastBit (s : State) : s.bitSent.lastBit = s.fb.lineBit s.bitix.toNat := by
  simp [State.bitSent, State.firstPhase, State.secondPhase]

theorem State.bitSent_seq (s : State) : s.bitSent.seq = if s.bitSent.bitix.toNat = 8 * s.cfg.l.toNat then 0x33 else 0x31 := by
  by_cases h : (fit 16 (s.bitix.toNat + 1)).toNat = 8 * s.cfg.l.toNat <;> simp [State.bitSent, State.firstPhase, State.secondPhase, h]

/-- A bit takes two sleeps, to the deadline and to the transition, and two turns. -/
theorem State.bitSent_env (s : State) :
    s.bitSent.env = (((s.env.slept s.dl).turned false).slept s.transition).turned false := by
  simp [State.bitSent, State.firstPhase, State.secondPhase, State.transition]

/-- A bit makes a setpoint at the end of each of its two sleeps. -/
theorem State.bitSent_trace (s : State) :
    s.bitSent.trace = s.trace ++
      [{ time := (s.env.slept s.dl).now, level := firstLevel (s.fb.lineBit s.bitix.toNat) },
        { time := (((s.env.slept s.dl).turned false).slept s.transition).now
          level := secondLevel (s.fb.lineBit s.bitix.toNat) }] := by
  simp [State.bitSent, State.firstPhase, State.secondPhase, State.transition]

/-- After ENC_START in `s₀` and `j` bits: what the encode keeps, the deadline and the cursor on their grid, the operation that is next, and
no reset event pending or in the next `n` turns. Nothing here depends on the delays. -/
structure InEncode (s₀ : State) (j n : Nat) (s : State) : Prop where
  cfg : s.cfg = s₀.cfg
  fb : s.fb = s₀.fb
  onUs : s.onUs = s₀.onUs
  dl : s.dl.toNat = s₀.env.now.toNat + bitUs * j
  bitix : s.bitix.toNat = j
  seq : s.seq = if j = 8 * s₀.cfg.l.toNat then 0x33 else 0x31
  resetReq : s.env.resetReq = false
  noReset : s.env.noReset n

section
variable {s₀ s : State} {j n : Nat}

theorem steps_encStart (hseq : s.seq = 0x30) (hr : s.env.resetReq = false) : steps 1 s = .next (s.afterBits 0) := by
  rw [steps_succ (step_beforeWait (i := .encStart) hr hseq (by decide) (exec_encStart s))]
  rfl

theorem InEncode.start (hl : 1 ≤ s.cfg.l.toNat) (hr : s.env.resetReq = false) (hn : s.env.noReset (n + 1)) :
    InEncode s 0 n (s.afterBits 0) where
  cfg := rfl
  fb := rfl
  onUs := rfl
  dl := rfl
  bitix := rfl
  seq := (if_neg (by omega)).symm
  resetReq := by simp [State.afterBits, State.encStarted, hr, hn 0 (Nat.succ_pos n)]
  noReset k hk := by
    rw [State.afterBits, State.environment_env, Env.turnAt_turned]
    exact hn (k + 1) (Nat.succ_lt_succ hk)

/-- Inside the frame two steps send a bit. -/
theorem InEncode.steps_bit (h : InEncode s₀ j (n + 2) s) (hj : j < 8 * s₀.cfg.l.toNat) : steps 2 s = .next s.bitSent := by
  have hseq : s.seq = encode .encFirst := h.seq.trans (if_neg hj.ne)
  have hcursor : s.bitix.toNat < 8 * s.cfg.l.toNat := by rw [h.bitix, h.cfg]; exact hj
  have hr : (s.firstPhase.environment false).env.resetReq = false := by
    simp [State.firstPhase, h.resetReq, h.noReset 0 (Nat.succ_pos _)]
  rw [steps_succ (step_beforeWait h.resetReq hseq (by decide) (exec_encFirst hcursor)),
    steps_succ (step_beforeWait hr rfl (by decide) (exec_encSecond _))]
  rfl

/-- A bit takes the deadline one period on, from the deadline and not from the clock. -/
theorem InEncode.bitSent (h : InEncode s₀ j (n + 2) s) (hj : j < 8 * s₀.cfg.l.toNat)
    (hfit : s₀.env.now.toNat + bitUs * (j + 1) < 2 ^ 64) : InEncode s₀ (j + 1) n s.bitSent := by
  have hl := s₀.cfg.l.isLt
  have hbitix : s.bitSent.bitix.toNat = j + 1 := by
    rw [State.bitSent_bitix, h.bitix, fit_of_lt (by omega)]
  exact {
    cfg := s.bitSent_cfg.trans h.cfg
    fb := s.bitSent_fb.trans h.fb
    onUs := s.bitSent_onUs.trans h.onUs
    dl := by
      have hdl : s.dl.toNat + bitUs = s₀.env.now.toNat + bitUs * (j + 1) := by rw [h.dl, Nat.mul_succ, Nat.add_assoc]
      rw [State.bitSent_dl, hdl, fit_of_lt hfit]
    bitix := hbitix
    seq := by rw [State.bitSent_seq, hbitix, h.cfg]
    resetReq := by
      simp [State.bitSent_env, Env.turnAt_turned, h.resetReq, h.noReset 0 (by omega), h.noReset 1 (by omega)]
    noReset := fun k hk => by
      simpa [State.bitSent_env, Env.turnAt_turned] using h.noReset (k + 2) (by omega) }

theorem InEncode.afterBits (hl : 1 ≤ s.cfg.l.toNat) (hr : s.env.resetReq = false) (hj : j ≤ 8 * s.cfg.l.toNat)
    (hn : s.env.noReset (n + 1 + 2 * j)) (hfit : s.env.now.toNat + bitUs * j < 2 ^ 64) : InEncode s j n (s.afterBits j) := by
  induction j generalizing n with
  | zero => exact .start hl hr hn
  | succ j ih =>
    have h := ih (n := n + 2) (by omega) (fun k hk => hn k (by omega)) (by rw [bitUs] at *; omega)
    exact h.bitSent hj hfit

theorem steps_afterBits (hseq : s.seq = 0x30) (hl : 1 ≤ s.cfg.l.toNat) (hr : s.env.resetReq = false) (hj : j ≤ 8 * s.cfg.l.toNat)
    (hn : s.env.noReset (1 + 2 * j)) (hfit : s.env.now.toNat + bitUs * j < 2 ^ 64) : steps (1 + 2 * j) s = .next (s.afterBits j) := by
  induction j with
  | zero => exact steps_encStart hseq hr
  | succ j ih =>
    have hfit' : s.env.now.toNat + bitUs * j < 2 ^ 64 := by rw [bitUs] at *; omega
    have h : InEncode s j 2 (s.afterBits j) := .afterBits hl hr (by omega) (fun k hk => hn k (by omega)) hfit'
    rw [Nat.mul_succ, ← Nat.add_assoc, steps_add (ih (by omega) (fun k hk => hn k (by omega)) hfit')]
    exact h.steps_bit hj

theorem step_encEnd (hr : s.env.resetReq = false) (hseq : s.seq = 0x33) : step s = .next (s.encEnded.environment true) := by
  have hact : s.nextAction = .run .encEnd := State.nextAction_run hr (by rw [hseq]; rfl)
  rw [step_run hact, exec_encEnd]
  rfl

end

/-- Settles O36: each bit moves the deadline on from itself (`InEncode.bitSent`), and no sleep writes it. -/
theorem deadlinesStayOnTheGrid : Obligations.DeadlinesStayOnTheGrid := by
  intro s j hseq hl hj hr hn hfit
  have h : InEncode s j 0 (s.afterBits j) := .afterBits hl hr hj (fun k hk => hn k (by omega)) hfit
  exact ⟨_, steps_afterBits hseq hl hr hj hn hfit, h.dl, h.bitix, h.fb, h.seq⟩

/-! ### The waveform of the ideal model (R146) -/

/-- A sleep without a delay, begun before its deadline, ends at the deadline (R144). -/
theorem Env.slept_now_of_le {e : Env} {t : Time} (h : e.latencyAt 0 = 0) (hle : e.now.toNat ≤ t.toNat) : (e.slept t).now = t := by
  rw [Env.slept_now_of_zero t h, if_pos (BitVec.le_def.2 hle)]

theorem setpoints_append (tr tr' : List Setpoint) : setpoints (tr ++ tr') = setpoints tr ++ setpoints tr' := List.map_append

/-- A further bit adds its two setpoints to the waveform. -/
theorem waveBits_append_singleton (t0 on j : Nat) (bs : List Bool) (b : Bool) :
    waveBits t0 on j (bs ++ [b]) = waveBits t0 on j bs ++
      [(t0 + bitUs * (j + bs.length), firstLevel b), (t0 + bitUs * (j + bs.length) + on, secondLevel b)] := by
  induction bs generalizing j with
  | nil => rfl
  | cons c bs ih =>
    simp only [List.cons_append, waveBits, ih, List.length_cons, Nat.add_right_comm j 1, Nat.add_assoc j]

/-- The first `j` bits that the cursor reads. -/
def Memory.lineBits (m : Memory) (j : Nat) : List Bool := (List.range j).map m.lineBit

@[simp] theorem Memory.lineBits_length (m : Memory) (j : Nat) : (m.lineBits j).length = j := by simp [Memory.lineBits]

theorem Memory.lineBits_succ (m : Memory) (j : Nat) : m.lineBits (j + 1) = m.lineBits j ++ [m.lineBit j] := by
  simp [Memory.lineBits, List.range_succ]

theorem Memory.lineBits_getLast? (m : Memory) {j : Nat} (hj : 0 < j) : (m.lineBits j).getLast? = some (m.lineBit (j - 1)) := by
  obtain ⟨k, rfl⟩ := Nat.exists_eq_add_one.2 hj
  rw [Memory.lineBits_succ, List.getLast?_concat, Nat.add_sub_cancel]

/-- The waveform's last setpoint comes a half period after the last bit period if the last bit is 1 (R143). -/
theorem waveEnd_lineBits (m : Memory) {j : Nat} (hj : 0 < j) (t0 : Nat) :
    waveEnd t0 (m.lineBits j) = t0 + bitUs * j + if m.lineBit (j - 1) then halfUs else 0 := by
  rw [waveEnd, Memory.lineBits_length, List.getLastD_eq_getLast?, m.lineBits_getLast? hj, Option.getD_some]

/-- The frame's bit stream is what the cursor reads from its start to its end (R60). -/
theorem frameBits_bytes (m : Memory) (l : Nat) : frameBits (m.bytes l) = m.lineBits (8 * l) := by
  refine List.ext_getElem? fun j => ?_
  by_cases hj : j < 8 * l
  · rw [frameBits_bytes_getElem? m hj, Memory.lineBits, List.getElem?_map, List.getElem?_range hj, Option.map_some]
  · rw [List.getElem?_eq_none (by simpa using hj), List.getElem?_eq_none (by simpa using hj)]

/-- In the ideal model, after ENC_START in `s₀` and `j` bits: no delay in the next `m` sleeps, the clock not past the deadline, `LASTBIT`
the last bit sent, and the setpoints so far those of the waveform. -/
structure OnTime (s₀ : State) (j m : Nat) (s : State) : Prop where
  undelayed : ∀ i < m, s.env.latencyAt i = 0
  now_le : s.env.now.toNat ≤ s.dl.toNat
  lastBit : 0 < j → s.lastBit = s₀.fb.lineBit (j - 1)
  trace : setpoints s.trace = setpoints s₀.trace ++
    (s₀.env.now.toNat, .low) :: waveBits s₀.env.now.toNat s₀.onUs.toNat 0 (s₀.fb.lineBits j)

section
variable {s₀ s : State} {j m n : Nat}

theorem OnTime.start (hr : (s.env.turnAt 0).reset = false) (hm : ∀ i < m, s.env.latencyAt i = 0) : OnTime s 0 m (s.afterBits 0) where
  undelayed := hm
  now_le := (congrArg BitVec.toNat (Env.turned_now_of_noReset hr)).le
  lastBit h := absurd h (Nat.lt_irrefl 0)
  trace := setpoints_append _ _

/-- A bit sent on time: its first level stands at the deadline, its second `ON_US` later, and the clock is then still before the next
deadline, because the first phase is shorter than the bit. -/
theorem OnTime.bitSent (ht : OnTime s₀ j (m + 2) s) (h : InEncode s₀ j (n + 2) s) (hon : s₀.onUs.toNat ≤ 975)
    (hfit : s₀.env.now.toNat + bitUs * (j + 1) < 2 ^ 64) : OnTime s₀ (j + 1) m s.bitSent := by
  have hsum : s.dl.toNat + bitUs < 2 ^ 64 := by rw [h.dl, Nat.add_assoc, ← Nat.mul_succ]; exact hfit
  have hdl : s.transition.toNat = s.dl.toNat + s.onUs.toNat :=
    fit_of_lt (by rw [h.onUs]; rw [bitUs] at hsum; omega)
  have hfirst : (s.env.slept s.dl).now = s.dl := Env.slept_now_of_le (ht.undelayed 0 (by omega)) ht.now_le
  have hwait : ((s.env.slept s.dl).turned false).now = s.dl :=
    (Env.turned_now_of_noReset (e := s.env.slept s.dl) (h.noReset 0 (by omega))).trans hfirst
  have hsecond : (((s.env.slept s.dl).turned false).slept s.transition).now = s.transition := by
    refine Env.slept_now_of_le ?_ (by rw [hwait, hdl]; omega)
    rw [Env.latencyAt_turned, Env.latencyAt_slept]
    exact ht.undelayed 1 (by omega)
  have hnow : s.bitSent.env.now = s.transition := by
    rw [State.bitSent_env, Env.turned_now_of_noReset, hsecond]
    simpa [Env.turnAt_turned] using h.noReset 1 (by omega)
  have hset : setpoints s.bitSent.trace = setpoints s.trace ++
      [(s.dl.toNat, firstLevel (s.fb.lineBit j)), (s.dl.toNat + s.onUs.toNat, secondLevel (s.fb.lineBit j))] := by
    rw [State.bitSent_trace, hfirst, hsecond, h.bitix, setpoints_append, ← hdl]
    rfl
  exact {
    undelayed := fun i hi => by
      simpa [State.bitSent_env, Env.latencyAt_slept] using ht.undelayed (i + 2) (by omega)
    now_le := by
      rw [hnow, State.bitSent_dl, hdl, fit_of_lt hsum, h.onUs, bitUs]
      omega
    lastBit := fun _ => by rw [State.bitSent_lastBit, h.bitix, h.fb, Nat.add_sub_cancel]
    trace := by
      rw [hset, ht.trace, Memory.lineBits_succ, waveBits_append_singleton, h.dl, h.onUs, h.fb]
      simp }

theorem OnTime.afterBits (hl : 1 ≤ s.cfg.l.toNat) (hon : s.onUs.toNat ≤ 975) (hr : s.env.resetReq = false)
    (hj : j ≤ 8 * s.cfg.l.toNat) (hn : s.env.noReset (1 + 2 * j)) (hm : ∀ i < m + 2 * j, s.env.latencyAt i = 0)
    (hfit : s.env.now.toNat + bitUs * j < 2 ^ 64) : OnTime s j m (s.afterBits j) := by
  induction j generalizing m with
  | zero => exact .start (hn 0 (Nat.succ_pos 0)) hm
  | succ j ih =>
    have hfit' : s.env.now.toNat + bitUs * j < 2 ^ 64 := by rw [bitUs] at *; omega
    have h : InEncode s j 2 (s.afterBits j) := .afterBits hl hr (by omega) (fun k hk => hn k (by omega)) hfit'
    have ht := ih (m := m + 2) (by omega) (fun k hk => hn k (by omega)) (fun i hi => hm i (by omega)) hfit'
    exact ht.bitSent (n := 0) h hon hfit

/-- ENC_END on time: its sleeps end at the deadline, or a half period later after a final 1. -/
theorem State.closed_now (h₀ : s.env.latencyAt 0 = 0) (h₁ : s.env.latencyAt 1 = 0) (hnow : s.env.now.toNat ≤ s.dl.toNat)
    (hfit : s.dl.toNat + halfUs < 2 ^ 64) : s.closed.env.now.toNat = s.dl.toNat + if s.lastBit then halfUs else 0 := by
  have hfirst : (s.env.slept s.dl).now = s.dl := Env.slept_now_of_le h₀ hnow
  unfold State.closed
  cases s.lastBit with
  | false => exact congrArg BitVec.toNat hfirst
  | true =>
    have hsum := fit_of_lt hfit
    have hle : (s.env.slept s.dl).now.toNat ≤ (fit 64 (s.dl.toNat + halfUs)).toNat := by rw [hfirst, hsum]; omega
    exact (congrArg BitVec.toNat (Env.slept_now_of_le ((Env.latencyAt_slept _ _ 0).trans h₁) hle)).trans hsum

/-- After bits sent on time ENC_END ends when the waveform does. -/
theorem OnTime.closed_now (ht : OnTime s₀ j 2 s) (h : InEncode s₀ j n s) (hj : 0 < j)
    (hfit : s₀.env.now.toNat + bitUs * j + halfUs < 2 ^ 64) :
    s.closed.env.now.toNat = waveEnd s₀.env.now.toNat (s₀.fb.lineBits j) := by
  rw [waveEnd_lineBits _ hj, ← h.dl, ← ht.lastBit hj]
  exact State.closed_now (ht.undelayed 0 Nat.two_pos) (ht.undelayed 1 Nat.one_lt_two) ht.now_le (h.dl ▸ hfit)

/-- ENC_END adds the waveform's last setpoint. -/
theorem OnTime.encEnded_trace (ht : OnTime s₀ j 2 s) (hend : s.closed.env.now.toNat = waveEnd s₀.env.now.toNat (s₀.fb.lineBits j)) :
    setpoints s.encEnded.trace = setpoints s₀.trace ++ wave (s₀.fb.lineBits j) s₀.env.now.toNat s₀.onUs.toNat := by
  have hset : setpoints s.encEnded.trace = setpoints s.trace ++ [(s.closed.env.now.toNat, .low)] := by
    simp [State.encEnded, setpoints]
  rw [hset, ht.trace, hend, List.append_assoc]
  rfl

end

/-- Settles O37: after `8 * CFG_L` bits on time (`OnTime.afterBits`) the step of ENC_END adds the waveform's last setpoint. -/
theorem encodePutsTheWaveformOnTheLine : Obligations.EncodePutsTheWaveformOnTheLine := by
  intro s hseq hl _ hon hr hideal hfit
  obtain ⟨hn, hm⟩ := hideal
  rw [frameBits_bytes]
  obtain ⟨j, hj⟩ : ∃ j, j = 8 * s.cfg.l.toNat := ⟨_, rfl⟩
  have hcount : 1 + 16 * s.cfg.l.toNat = 1 + 2 * j := by omega
  have hcount' : 2 + 16 * s.cfg.l.toNat = 1 + 2 * j + 1 := by omega
  rw [← hj] at hfit ⊢
  rw [hcount'] at hn hm
  rw [hcount, hcount']
  have hpos : 0 < j := by omega
  have hgrid : s.env.now.toNat + bitUs * j < 2 ^ 64 := Nat.lt_of_le_of_lt (Nat.le_add_right _ _) hfit
  have hn' : s.env.noReset (1 + 2 * j) := fun k hk => hn k (Nat.lt_succ_of_lt hk)
  have hsteps := steps_afterBits hseq hl hr hj.le hn' hgrid
  have h : InEncode s j 0 (s.afterBits j) := .afterBits hl hr hj.le (fun k hk => hn' k (by omega)) hgrid
  have ht : OnTime s j 2 (s.afterBits j) := .afterBits hl hon hr hj.le hn' (fun k hk => hm k (by omega)) hgrid
  generalize s.afterBits j = u at hsteps h ht
  have hend := ht.closed_now h hpos hfit
  have hlast : step u = .next (u.encEnded.environment true) := step_encEnd h.resetReq (h.seq.trans (if_pos hj))
  refine ⟨u, u.encEnded, u.encEnded.environment true, hsteps, exec_encEnd u, ?_, rfl, ht.encEnded_trace hend, ?_, rfl,
    u.closed_fb.trans h.fb, ?_⟩
  · rw [steps_add hsteps, steps_succ hlast, steps]
  · rw [s.fb.lineBits_getLast? hpos]
    simpa [State.encEnded, bitUs, halfUs] using hend.trans (waveEnd_lineBits s.fb hpos _)
  · rw [← h.cfg]
    rfl

end Sys2Proof.Machine
end

section
/-! SUPPORT. The proofs about the transmit scheduler (spec/44_scheduler.md R152, R153): SCH_DONE, and the transitions of `SPHASE`. -/

namespace Sys2Proof.Machine

/-- Settles O41: the operation's definition. -/
theorem schDoneEffect : Obligations.SchDoneEffect := fun _ => rfl

/-! ### The scheduler's phase (R153) -/

/-- Only RESET and the scheduler's operations write `SPHASE` (R83, R149, R150, R152). -/
theorem Performs.sphase_cases {s t : State} {i : Instr} (h : Performs s i t) :
    t.sphase = s.sphase ∨
    (i = .schTick ∧ t.sphase = .pending) ∨
    (i = .schEval ∧ (t.sphase = .sent ∨ t.sphase = .idle)) ∨
    (i = .schDone ∧ t.sphase = .idle) ∨
    (i = .reset ∧ t.sphase = .idle) := by
  cases h
  case reset h =>
    cases h
    simp
  case tick | fire | idle | done => simp
  case encEnd u hu => rcases hu with rfl | ⟨_, rfl⟩ <;> exact .inl rfl
  all_goals exact .inl (by simp)

/-- Under the invariant an operation is performed in the phase of its code (R153). -/
theorem State.Inv.sphase_of_decode {s : State} {i : Instr} {p : SPhase} (hinv : s.Inv) (hd : decode s.seq = .ok i)
    (hp : phaseOf (encode i) = some p) : s.sphase = p :=
  hinv.phase p (encode_of_decode hd ▸ hp)

/-- Settles O45: the operation alone decides the new phase (`Performs.sphase_cases`), and the invariant gives the phase it started in. -/
theorem schedulerTransitions : Obligations.SchedulerTransitions := by
  intro s t hinv h hne
  obtain ⟨u, hu, rfl⟩ := step_eq_next h
  rw [State.environment_sphase] at hne ⊢
  rcases act_cases s with ⟨hr, ha⟩ | ⟨hr, i, hd, ha⟩ | ⟨-, c, -, ha⟩ | ⟨-, -, ha⟩ <;> rw [ha] at hu
  · cases hu
    exact .inr (.inr (.inr (.inr ⟨rfl, State.nextAction_reset hr⟩)))
  · have hact : s.nextAction = .run i := State.nextAction_run hr hd
    rcases (performs_of_exec i hu).sphase_cases with hsame | ⟨rfl, ht⟩ | ⟨rfl, ht⟩ | ⟨rfl, ht⟩ | ⟨rfl, ht⟩
    · exact absurd hsame hne
    · exact .inl ⟨hinv.sphase_of_decode hd rfl, ht, hact⟩
    · have hs : s.sphase = .pending := hinv.sphase_of_decode hd rfl
      rcases ht with ht | ht
      · exact .inr (.inl ⟨hs, ht, hact⟩)
      · exact .inr (.inr (.inl ⟨hs, ht, hact⟩))
    · exact .inr (.inr (.inr (.inl ⟨hinv.sphase_of_decode hd rfl, ht, hact⟩)))
    · exact .inr (.inr (.inr (.inr ⟨ht, hact⟩)))
  · cases hu
    exact absurd (raiseFault_sphase s _ _) hne
  · cases hu
    exact absurd rfl hne

end Sys2Proof.Machine
end

section
/-! SUPPORT. The proofs about the debug sink (spec/45_debug_sink.md R163): the characters of a rendered frame, by position. -/

namespace Sys2Proof.Machine

/-! ### A byte's two digits -/

theorem hiNib_toNat (b : Byte) : (hiNib b).toNat = b.toNat / 16 := by
  rw [hiNib, BitVec.extractLsb'_toNat, Nat.shiftRight_eq_div_pow]
  exact Nat.mod_eq_of_lt (Nat.div_lt_of_lt_mul b.isLt)

theorem loNib_toNat (b : Byte) : (loNib b).toNat = b.toNat % 16 := by
  rw [loNib, BitVec.extractLsb'_toNat, Nat.shiftRight_zero]

/-- `hexDigit` never uses its default: the alphabet has a character for every nibble. -/
theorem hexAlphabet_getElem?_toNat (n : Nibble) : "0123456789ABCDEF".toList[n.toNat]? = some (hexDigit n) := by
  have hn : n.toNat < "0123456789ABCDEF".toList.length := n.isLt
  rw [hexDigit, List.getD_eq_getElem?_getD, List.getElem?_eq_getElem hn, Option.getD_some]

/-! ### The rendering of a byte sequence -/

/-- A byte with another after it takes three characters. -/
theorem renderChars_cons_cons (b c : Byte) (bs : List Byte) :
    renderChars (b :: c :: bs) = hexDigit (hiNib b) :: hexDigit (loNib b) :: ' ' :: renderChars (c :: bs) := rfl

theorem length_renderChars_cons (b : Byte) (bs : List Byte) : (renderChars (b :: bs)).length = 3 * bs.length + 2 := by
  induction bs generalizing b with
  | nil => rfl
  | cons c bs ih =>
    rw [renderChars_cons_cons, List.length_cons, List.length_cons, List.length_cons, ih, List.length_cons]
    omega

/-- The characters after the first byte's are those of the rest: position `3 * (k + 1) + j` of the whole is `3 * k + j` of the rest. -/
theorem renderChars_cons_cons_getElem? (b c : Byte) (bs : List Byte) (k j : Nat) :
    (renderChars (b :: c :: bs))[3 * (k + 1) + j]? = (renderChars (c :: bs))[3 * k + j]? := by
  rw [Nat.mul_succ, Nat.add_right_comm]
  rfl

theorem renderChars_getElem?_digits {bs : List Byte} {k : Nat} {b : Byte} (hb : bs[k]? = some b) :
    (renderChars bs)[3 * k]? = some (hexDigit (hiNib b)) ∧ (renderChars bs)[3 * k + 1]? = some (hexDigit (loNib b)) := by
  induction bs using renderChars.induct generalizing k with
  | case1 => cases hb
  | case2 a =>
    obtain ⟨rfl, rfl⟩ : k = 0 ∧ a = b := by simpa [List.getElem?_singleton] using hb
    exact ⟨rfl, rfl⟩
  | case3 a c bs ih =>
    cases k with
    | zero =>
      cases hb
      exact ⟨rfl, rfl⟩
    | succ k =>
      obtain ⟨hhi, hlo⟩ := ih hb
      exact ⟨(renderChars_cons_cons_getElem? a c bs k 0).trans hhi, (renderChars_cons_cons_getElem? a c bs k 1).trans hlo⟩

theorem renderChars_getElem?_space {bs : List Byte} {k : Nat} (hk : k + 1 < bs.length) :
    (renderChars bs)[3 * k + 2]? = some ' ' := by
  induction bs using renderChars.induct generalizing k with
  | case1 => cases hk
  | case2 => exact absurd hk (by simp)
  | case3 a c bs ih =>
    cases k with
    | zero => rfl
    | succ k => exact (renderChars_cons_cons_getElem? a c bs k 2).trans (ih (Nat.lt_of_succ_lt_succ hk))

/-- Settles O47: by induction along `renderChars`, every byte but the last takes three characters, so byte `k` begins at `3 * k`. -/
theorem renderingShape : Obligations.RenderingShape := by
  intro bs hne
  refine ⟨?length, fun k b hb => ?digits, fun k hk => renderChars_getElem?_space hk⟩
  case length =>
    obtain ⟨b, bs, rfl⟩ := List.exists_cons_of_ne_nil hne
    rw [render, String.length_ofList, length_renderChars_cons, List.length_cons]
    omega
  case digits =>
    rw [← hiNib_toNat, ← loNib_toNat, hexAlphabet_getElem?_toNat, hexAlphabet_getElem?_toNat]
    exact renderChars_getElem?_digits hb

end Sys2Proof.Machine
end

section
/-! SUPPORT. The proofs about exceptions (spec/60_exceptions.md R177): fault entry's whole effect, and that a faulting operation does
nothing else. -/

namespace Sys2Proof.Machine

/-- The forced line, whole: the level is LOW either way, and the trace alone tells whether it was HIGH (R177). -/
theorem State.forceLow_eq (s : State) :
    s.forceLow = { s with
      tx := .low, trace := s.trace ++ (if s.tx = .high then [{ time := s.env.now, level := .low }] else []) } := by
  rw [← s.forceLow_trace, ← s.forceLow_tx]
  unfold State.forceLow
  split <;> rfl

/-- Every operation but RESET leaves `FAULT` or does fault entry from the state it found, with none of its own writes (R177). -/
theorem Performs.fault_eq_or_eq_raiseFault {s t : State} {i : Instr} (h : Performs s i t) (hi : i ≠ .reset) :
    t.fault = s.fault ∨ ∃ code detail, t = raiseFault s code detail := by
  cases h
  case reset => exact absurd rfl hi
  case validateBad | sensIllegal | sensRange => exact .inr ⟨_, _, rfl⟩
  case encEnd u hu => rcases hu with rfl | ⟨_, rfl⟩ <;> exact .inl rfl
  all_goals exact .inl rfl

/-- Settles O48: fault entry is the forced line (`State.forceLow_eq`) with `FAULT` and `SEQ` written, and an operation that changes
`FAULT` is fault entry (`Performs.fault_eq_or_eq_raiseFault`). -/
theorem faultEntryEffect : Obligations.FaultEntryEffect := by
  refine ⟨fun s code detail => ?entry, fun i s t hi h hne => ?precise⟩
  case entry => rw [raiseFault, s.forceLow_eq]
  case precise => exact ((performs_of_exec i h).fault_eq_or_eq_raiseFault hi).resolve_left hne

end Sys2Proof.Machine
end

section
/-! SUPPORT. The proofs about the step (spec/30_encoding.md R73 to R76; spec/10_state.md R43; spec/60_exceptions.md R174 to R180): decode
against encode, what the sequencer does with each byte in `SEQ`, and the environment's turn. -/

namespace Sys2Proof

/-! ### Decode and encode (R73, R76) -/

theorem decode_eq_ok_iff (c : Byte) (i : Instr) : decode c = .ok i ↔ c = encode i :=
  ⟨Machine.encode_of_decode, fun h => h ▸ Machine.decode_encode i⟩

theorem encode_ne_halted (i : Instr) : encode i ≠ 0xFF := by
  cases i <;> decide

/-- A byte is 0xFF, an operation's code, or reserved. -/
theorem decode_cases (c : Byte) :
    (c = 0xFF ∧ decode c = .error .halted) ∨ (∃ i, c = encode i ∧ decode c = .ok i) ∨
      (c ≠ 0xFF ∧ (∀ i, c ≠ encode i) ∧ decode c = .error (.reserved c)) := by
  by_cases hff : c = 0xFF
  · exact .inl ⟨hff, if_pos hff⟩
  · by_cases hcode : ∃ i, c = encode i
    · obtain ⟨i, rfl⟩ := hcode
      exact .inr (.inl ⟨i, rfl, Machine.decode_encode i⟩)
    · exact .inr (.inr ⟨hff, not_exists.1 hcode, decode_eq_reserved hff (not_exists.1 hcode)⟩)

theorem decode_eq_halted_iff (c : Byte) : decode c = .error .halted ↔ c = 0xFF := by
  rcases decode_cases c with ⟨rfl, h⟩ | ⟨i, rfl, h⟩ | ⟨hff, -, h⟩ <;> rw [h]
  · simp
  · simpa using encode_ne_halted i
  · simpa using hff

theorem decode_eq_reserved_iff (c d : Byte) :
    decode c = .error (.reserved d) ↔ d = c ∧ c ≠ 0xFF ∧ ∀ i, c ≠ encode i := by
  rcases decode_cases c with ⟨rfl, h⟩ | ⟨i, rfl, h⟩ | ⟨hff, hcode, h⟩ <;> rw [h]
  · simp
  · simp
  · simpa [hcode, eq_comm] using fun _ => hff

/-- Settles O2: a byte is 0xFF, an operation's code or neither (`decode_cases`), and in each case the decoder's answer is known. -/
theorem decodeInvertsEncode : Obligations.DecodeInvertsEncode :=
  ⟨decode_eq_ok_iff, decode_eq_halted_iff, decode_eq_reserved_iff⟩

namespace Machine

/-! ### The environment's turn (R45, R159, R179, R205) -/

/-- The clock moves on by the delay and stops at its last value (log 8). -/
theorem later_toNat (t : Time) (d : Nat) : (later t d).toNat = min (t.toNat + d) (2 ^ 64 - 1) := by
  rw [later, BitVec.toNat_ofNat, Nat.mod_eq_of_lt (by omega)]

theorem Env.passing_eq (timed : Bool) (e : Env) :
    e.passing timed = if timed = true ∨ (e.turnAt 0).reset = true then (e.turnAt 0).delay else 0 := by
  simp only [Env.passing, Bool.or_eq_true]

/-- Settles O3: `step_run` for an operation; the turn's fields are those of `Env.turned`. -/
theorem stepRunsTheDecodedOperation : Obligations.StepRunsTheDecodedOperation := by
  refine ⟨fun s i hr hd => ?_, fun u timed => ⟨rfl, rfl, ?_, u.env.turnAt_turned timed, fun _ => rfl, fun _ => rfl⟩⟩
  · rw [step_run (State.nextAction_run hr hd)]
    cases exec i s <;> rfl
  · rw [State.environment_env, Env.turned_now, later_toNat, Env.passing_eq]

/-! ### The sequencer's choice (R43, R76, R178, R180) -/

/-- Everything an action does to what a count of ticks depends on: an operation performs, or, on a byte that is no operation's code, `SEQ`
becomes 0xFF and neither the seconds nor the input ports move. -/
theorem act_next_cases {s u : State} (h : act s = .next u) :
    (∃ i, s.nextAction = .run i ∧ Performs s i u ∧ (s.env.resetReq = false → s.seq = encode i)) ∨
    ((∀ i, s.nextAction ≠ .run i ∧ s.seq ≠ encode i) ∧ u.seq = 0xFF ∧ u.elapsed = s.elapsed ∧ u.env = s.env) := by
  rcases act_cases s with ⟨hr, ha⟩ | ⟨hr, i, hd, ha⟩ | ⟨hr, c, hd, ha⟩ | ⟨hr, hd, ha⟩ <;> rw [ha] at h
  · exact .inl ⟨.reset, State.nextAction_reset hr, performs_of_exec _ h, by simp [hr]⟩
  · exact .inl ⟨i, State.nextAction_run hr hd, performs_of_exec _ h, fun _ => encode_of_decode hd⟩
  · cases h
    refine .inr ⟨fun i => ⟨?_, ((decode_eq_reserved_iff _ _).1 hd).2.2 i⟩, raiseFault_seq _ _ _, raiseFault_elapsed _ _ _,
      raiseFault_env _ _ _⟩
    rw [State.nextAction_illegal hr hd]
    nofun
  · cases h
    have hff := (decode_eq_halted_iff _).1 hd
    refine .inr ⟨fun i => ⟨?_, hff ▸ (encode_ne_halted i).symm⟩, hff, rfl, rfl⟩
    rw [State.nextAction_halted hr hd]
    nofun

/-- Settles O4: the event comes first (`State.nextAction_reset`), and RESET clears it. -/
theorem resetEventTakesPriority : Obligations.ResetEventTakesPriority := fun _ hr =>
  ⟨_, rfl, rfl, step_run (State.nextAction_reset hr)⟩

/-- Settles O5: such a byte decodes to `reserved`. -/
theorem reservedCodeRaisesIllegalOp : Obligations.ReservedCodeRaisesIllegalOp := fun _ hr hff hcode =>
  step_illegal (State.nextAction_illegal hr (decode_eq_reserved hff hcode))

/-- Settles O6: 0xFF decodes to `halted`. -/
theorem haltedStepChangesNothing : Obligations.HaltedStepChangesNothing := fun s hr hff =>
  step_halted (State.nextAction_halted hr ((decode_eq_halted_iff s.seq).2 hff))

/-- Each `FB_SENS_*` is the shared sensor store of its kind, with some fields. -/
theorem exec_sensOf_eq_sensStore (k : Kind) (s : State) : ∃ fields, exec (Instr.sensOf k) s = sensStore k fields s := by
  cases k <;> exact ⟨_, rfl⟩

/-- Settles O7: the check of the kind stands before everything else in the sensor store. -/
theorem sensorCodeOfAnotherKindIsIllegal : Obligations.SensorCodeOfAnotherKindIsIllegal := by
  intro s k hk
  obtain ⟨fields, h⟩ := exec_sensOf_eq_sensStore k s
  rw [h, sensStore, if_pos hk.symm, sensCode_eq_encode]
  rfl

/-- Settles O55: every operation, RESET and ILLEGAL_OP included, leaves a code of its own row (`Performs.seq_mem_successors`). -/
theorem sequencerFollowsItsTable : Obligations.SequencerFollowsItsTable := fun i _ _ hseq _ h =>
  (performs_of_exec i h).seq_mem_successors fun hi => by rw [hseq, hi]; rfl

/-- Settles O9: the literal of `State.powerOn`. -/
theorem resetStateValues : Obligations.ResetStateValues := by
  refine ⟨rfl, rfl, rfl, rfl, rfl, ?_, ?_, rfl⟩ <;> decide

end Machine

end Sys2Proof
end

section
/-! SUPPORT. The proofs about what an operation writes (spec/10_state.md R38; spec/20_memory.md R64, R67; spec/44_scheduler.md R159): the
line, the frame buffer and the outstanding ticks. -/

namespace Sys2Proof.Machine

/-- The encoder's operations and RESET, the only ones that drive the line outside fault entry (R38). -/
def lineInstrs : List Instr := [.reset, .encStart, .encFirst, .encSecond, .encEnd]

/-- Outside RESET and the encoder an operation leaves the line, or it is fault entry from the state it found (R177). -/
theorem Performs.line {s t : State} {i : Instr} (h : Performs s i t) (hi : i ∉ lineInstrs) :
    (t.tx = s.tx ∧ t.trace = s.trace) ∨ ∃ code detail, t = raiseFault s code detail := by
  cases h
  case reset | encStart | encFirst | encSecond | encEnd => simp [lineInstrs] at hi
  case validateBad | sensIllegal | sensRange => exact .inr ⟨_, _, rfl⟩
  all_goals exact .inl ⟨rfl, rfl⟩

/-- Settles O53, by `Performs.line`. -/
theorem onlyTheEncoderDrivesTheLine : Obligations.OnlyTheEncoderDrivesTheLine := fun i _ _ hi h =>
  (performs_of_exec i h).line hi

/-- An operation that is neither RESET nor one of those that store leaves the frame buffer and its marks (R64, R67). -/
theorem Performs.frame {s t : State} {i : Instr} (h : Performs s i t) (hreset : i ≠ .reset) (hstore : i ∉ storing) :
    t.fb = s.fb ∧ t.written.fb = s.written.fb := by
  cases h
  case reset => exact absurd rfl hreset
  case store hi _ => exact absurd hi hstore
  case encEnd u hu => rcases hu with rfl | ⟨_, rfl⟩ <;> simp
  all_goals simp

/-- Settles O54: what is left without RESET and the operations that store (`Performs.frame`). -/
theorem onlyTheBuilderWritesTheFrame : Obligations.OnlyTheBuilderWritesTheFrame := by
  intro i s t hi h
  simp only [List.mem_cons, List.not_mem_nil, or_false, not_or] at hi
  exact (performs_of_exec i h).frame hi.1 (by simp [storing, hi])

/-- What an operation leaves of the outstanding ticks: none after RESET, one less after a SCH_TICK that had one (R159, R192). -/
theorem Performs.tickReq {s t : State} {i : Instr} (h : Performs s i t) :
    t.env.tickReq = if i = .reset then 0 else if i = .schTick then s.env.tickReq - 1 else s.env.tickReq := by
  cases h
  case reset h =>
    cases h
    rfl
  case store hi _ =>
    have hne : i ≠ .reset ∧ i ≠ .schTick := ⟨fun e => absurd hi (by rw [e]; decide), fun e => absurd hi (by rw [e]; decide)⟩
    rw [if_neg hne.1, if_neg hne.2]
    rfl
  case sensIllegal k _ => cases k <;> simp [Instr.sensOf]
  case sensRange k _ _ => cases k <;> simp [Instr.sensOf]
  case encEnd u hu => rcases hu with rfl | ⟨_, rfl⟩ <;> rfl
  case tickWait h => simp [h]
  case drawBad | drawOk | tick => rfl
  all_goals simp

/-- Settles O44: the turn adds its ticks to what the action leaves (`Performs.tickReq`); fault entry and a halted step leave them all. -/
theorem ticksAreConserved : Obligations.TicksAreConserved := by
  intro s t h
  obtain ⟨u, hu, rfl⟩ := step_eq_next h
  rw [State.environment_env, Env.turned_tickReq, Nat.add_comm]
  rcases act_next_cases hu with ⟨i, hact, hp, -⟩ | ⟨hno, -, -, henv⟩
  · simp only [hact, hp.tickReq, hp.turnAt, Action.run.injEq]
  · rw [henv, if_neg (hno _).1, if_neg (hno _).1]

end Sys2Proof.Machine
end

section
/-! SUPPORT. The proofs about the effect of single operations: the scheduler (spec/44_scheduler.md R149, R150, R155), the encoder
(spec/43_manchester.md R142 to R144), the sensor nibbles (spec/41_frame_builder.md R108) and the debug sink (spec/45_debug_sink.md R168). -/

namespace Sys2Proof.Machine

/-! ### SCH_TICK and SCH_EVAL (R149, R150) -/

/-- The state after a SCH_TICK that accepts a tick (R149). -/
def State.ticked (s : State) : State :=
  { s with env := { s.env with tickReq := s.env.tickReq - 1 }, elapsed := s.elapsed + 1, sphase := .pending, seq := 0x41 }

theorem exec_schTick_of_pos {s : State} (h : s.env.tickReq ≠ 0) : exec .schTick s = .next s.ticked := if_neg h

theorem exec_schTick_of_zero {s : State} (h : s.env.tickReq = 0) : exec .schTick s = .next s := if_pos h

/-- The count of seconds goes up by one, modulo `2 ^ 32` (R149). -/
theorem elapsed_add_one (e : BitVec 32) : e + 1 = BitVec.ofNat 32 ((e.toNat + 1) % 2 ^ 32) := by
  apply BitVec.eq_of_toNat_eq
  simp

/-- Settles O39, one clause for each branch. -/
theorem schTickEffect : Obligations.SchTickEffect := by
  refine fun s => ⟨fun n hn => ?_, exec_schTick_of_zero⟩
  rw [exec_schTick_of_pos (by omega), State.ticked, hn, ← elapsed_add_one]
  rfl

/-- The state after a SCH_EVAL that fires (R150). -/
def State.fired (s : State) : State := { s with snapRd := s.env.reading, snapBatt := s.env.batt, sphase := .sent, seq := 0x10 }

/-- The state after a SCH_EVAL that does not fire (R150). -/
def State.unfired (s : State) : State := { s with sphase := .idle, seq := 0x40 }

theorem exec_schEval (s : State) :
    exec .schEval s = .next (if elapsedMod s.elapsed s.cfg.interval = 0 then s.fired else s.unfired) :=
  (apply_ite Host.Outcome.next _ _ _).symm

theorem elapsedMod_of_ne {e : BitVec 32} {i : BitVec 16} (h : i ≠ 0) : elapsedMod e i = e.toNat % i.toNat := if_neg h

theorem exec_schEval_of_dvd {s : State} (hi : s.cfg.interval ≠ 0) (h : s.elapsed.toNat % s.cfg.interval.toNat = 0) :
    exec .schEval s = .next s.fired := by
  rw [exec_schEval, elapsedMod_of_ne hi, if_pos h]

theorem exec_schEval_of_not_dvd {s : State} (hi : s.cfg.interval ≠ 0) (h : s.elapsed.toNat % s.cfg.interval.toNat ≠ 0) :
    exec .schEval s = .next s.unfired := by
  rw [exec_schEval, elapsedMod_of_ne hi, if_neg h]

/-- Settles O40: the remainder decides; whatever it is for the interval 0 (log 10), one of the two branches is taken. -/
theorem schEvalFiresOnMultiples : Obligations.SchEvalFiresOnMultiples := by
  refine fun s => ⟨exec_schEval_of_dvd, exec_schEval_of_not_dvd, ?_⟩
  rw [exec_schEval]
  split
  · exact .inl rfl
  · exact .inr rfl

/-- Settles O42: the count wraps to 0, which every interval divides. -/
theorem wrappingTickFires : Obligations.WrappingTickFires := by
  intro s he hi hn
  have hwrap : s.elapsed + 1 = 0 := by rw [he]; rfl
  have hdvd : s.ticked.elapsed.toNat % s.cfg.interval.toNat = 0 := by
    rw [State.ticked, hwrap]
    exact Nat.zero_mod _
  exact ⟨_, exec_schTick_of_pos (by omega), hwrap, exec_schEval_of_dvd hi hdvd⟩

/-! ### The encoder's sleeps (R142 to R144) -/

/-- Settles O32: the three sums are those of `State.secondPhase`, each exact where it fits (`fit_of_lt`). -/
theorem encSecondEffect : Obligations.EncSecondEffect := fun s =>
  ⟨s.transition, fit 64 (s.dl.toNat + bitUs), fit 16 (s.bitix.toNat + 1), fit_of_lt, fit_of_lt, fit_of_lt, exec_encSecond s⟩

theorem State.closed_env (s : State) :
    s.closed.env =
      if s.lastBit then (s.env.slept s.dl).slept (fit 64 (s.dl.toNat + halfUs)) else s.env.slept s.dl :=
  apply_ite State.env _ _ _

/-- ENC_END's sleeps move the input ports only. -/
theorem State.closed_eq (s : State) : s.closed = { s with env := s.closed.env } := by
  unfold State.closed
  split <;> rfl

/-- Settles O33: `LASTBIT` decides whether the second sleep happens. -/
theorem encEndEffect : Obligations.EncEndEffect := by
  refine fun s => ⟨fit 64 (s.dl.toNat + halfUs), fit_of_lt, ?_⟩
  rw [exec_encEnd, State.encEnded, State.closed_eq, State.closed_env]
  simp only [State.setLine, State.goto, apply_ite Env.now]

/-- A sleep ends at the later of the present and its deadline, plus its delay (R144, log 8). -/
theorem Env.slept_now_toNat (e : Env) (t : Time) :
    (e.slept t).now.toNat = min (max e.now.toNat t.toNat + e.latencyAt 0) (2 ^ 64 - 1) := by
  have hmax : (if e.now ≤ t then t else e.now).toNat = max e.now.toNat t.toNat := by
    split <;> rename_i h <;> rw [BitVec.le_def] at h <;> omega
  rw [Env.slept_now, later_toNat, hmax]

/-- Settles O34: the clock by `Env.slept_now_toNat`; a sleep moves only the clock and the script of the delays. -/
theorem sleepEndsAtTheDeadlinePlusDelay : Obligations.SleepEndsAtTheDeadlinePlusDelay := fun e t =>
  ⟨e.slept_now_toNat t, BitVec.le_def.1 (e.le_slept t), BitVec.le_def.1 (e.now_le_slept t), e.latencyAt_slept t,
    e.turnAt_slept t, fun _ => rfl, rfl, rfl, rfl, rfl⟩

/-! ### The sensor nibbles and the debug record (R108, R168) -/

/-- Settles O18, by the effect of the sensor stores that the frame's proof uses. -/
theorem fbSensEffect : Obligations.FbSensEffect := fun _ => exec_sensOf_of_fits

theorem exec_dbgLog (s : State) :
    exec .dbgLog s = .next { s with
      log := if s.cfg.logPresent then s.log ++ [{ stamp := s.env.now, bytes := render (s.fb.bytes s.cfg.l.toNat) }] else s.log
      seq := 0x42 } := rfl

/-- Settles O46: `LOG_PRESENT` decides whether the record is kept. -/
theorem dbgLogEffect : Obligations.DbgLogEffect := fun s =>
  ⟨fun h => by rw [exec_dbgLog, if_pos h], fun h => by rw [exec_dbgLog, if_neg (Bool.not_eq_true _ ▸ h)]⟩

end Sys2Proof.Machine
end

section
/-! SUPPORT. The proofs about the invariant of the block (spec/10_state.md section 2; spec/43_manchester.md R139, R144; spec/44_scheduler.md
R153; spec/60_exceptions.md R177, R178): what each operation keeps of it, part by part, and that under it no step stops. -/

namespace Sys2Proof.Machine

/-! ### The trace (R16, R144) -/

/-- The part of the invariant about the trace: times never decrease, none lies after the present, and the last level is the line's. -/
structure State.TraceOk (s : State) : Prop where
  sorted : s.trace.Pairwise fun p q => p.time ≤ q.time
  past : ∀ p ∈ s.trace, p.time ≤ s.env.now
  level : s.trace.getLast?.map Setpoint.level = some s.tx

theorem State.Inv.traceOk {s : State} (h : s.Inv) : s.TraceOk :=
  ⟨h.traceTimes.1, h.traceTimes.2, h.traceLevel⟩

/-- The same trace and level at a later time. -/
theorem State.TraceOk.of_eq {s t : State} (h : s.TraceOk) (htrace : t.trace = s.trace) (htx : t.tx = s.tx)
    (hnow : s.env.now ≤ t.env.now) : t.TraceOk where
  sorted := htrace ▸ h.sorted
  past p hp := BitVec.le_trans (h.past p (htrace ▸ hp)) hnow
  level := by rw [htrace, htx, h.level]

/-- A setpoint at the present keeps the trace in order. -/
theorem State.TraceOk.setLine {s : State} (h : s.TraceOk) (l : Level) : (s.setLine l).TraceOk where
  sorted := List.pairwise_append.2 ⟨h.sorted, List.pairwise_singleton _ _, by simpa using h.past⟩
  past p hp := by
    rcases List.mem_append.1 hp with hp | hp
    · exact h.past p hp
    · rw [List.mem_singleton.1 hp]
      exact BitVec.le_refl _
  level := by simp

theorem State.TraceOk.sleepUntil {s : State} (h : s.TraceOk) (t : Time) : (s.sleepUntil t).TraceOk :=
  h.of_eq rfl rfl (s.env.now_le_slept t)

theorem State.TraceOk.raiseFault {s : State} (h : s.TraceOk) (code : BitVec 4) (detail : BitVec 8) :
    (raiseFault s code detail).TraceOk := by
  have hforce : s.forceLow.TraceOk := by
    unfold State.forceLow
    split
    · exact h.setLine .low
    · exact h
  exact hforce.of_eq rfl rfl (BitVec.le_refl _)

theorem Performs.traceOk {s t : State} {i : Instr} (h : Performs s i t) (hs : s.TraceOk) : t.TraceOk := by
  cases h
  case reset h =>
    cases h
    exact (hs.setLine .low).of_eq rfl rfl (BitVec.le_refl _)
  case validateBad | sensIllegal | sensRange => exact hs.raiseFault _ _
  case encStart => exact (hs.setLine .low).of_eq rfl rfl (BitVec.le_refl _)
  case encFirst b _ => exact ((hs.sleepUntil s.dl).setLine (firstLevel b)).of_eq rfl rfl (BitVec.le_refl _)
  case encSecond t _ _ _ => exact ((hs.sleepUntil t).setLine (secondLevel s.lastBit)).of_eq rfl rfl (BitVec.le_refl _)
  case encEnd u hu =>
    have hu' : u.TraceOk := by
      rcases hu with rfl | ⟨t, rfl⟩
      · exact hs.sleepUntil s.dl
      · exact (hs.sleepUntil s.dl).sleepUntil t
    exact (hu'.setLine .low).of_eq rfl rfl (BitVec.le_refl _)
  all_goals exact hs.of_eq rfl rfl (BitVec.le_refl _)

/-! ### The frame buffer (R32, R53) -/

/-- Every operation keeps the frame buffer canonical and inside the frame. -/
theorem Performs.frameOk {s t : State} {i : Instr} (h : Performs s i t) (hwf : s.fb.wf = true)
    (hin : s.fb.within s.cfg.l.toNat = true) : t.fb.wf = true ∧ t.fb.within t.cfg.l.toNat = true := by
  rw [h.cfg]
  cases h
  case reset h =>
    cases h
    exact ⟨Memory.wf_ofBytes _ _, Memory.within_ofBytes _ _⟩
  case store ws c _ hlt _ _ => exact ⟨Memory.wf_storeAll ws hwf, Memory.within_storeAll ws hlt hin⟩
  case encEnd u hu => rcases hu with rfl | ⟨_, rfl⟩ <;> exact ⟨by simpa using hwf, by simpa using hin⟩
  all_goals exact ⟨by simpa using hwf, by simpa using hin⟩

/-! ### The sequencer and the scheduler's phase (R76, R153, R158) -/

/-- The sequencer's table by operations: those whose code may stand in `SEQ` after one of the kind's, fault entry aside (R158). -/
def nextInstrs (kind : Kind) : Instr → List Instr
  | .reset => [.validate]
  | .validate => [.drawRoll]
  | .drawRoll => [.drawRoll, .schTick]
  | .schTick => [.schEval, .schTick]
  | .schEval => [.fbClear, .schTick]
  | .fbClear => [.fbHdr]
  | .fbHdr => [.fbId]
  | .fbId => [.fbRoll]
  | .fbRoll => [Instr.sensOf kind]
  | .fbSensUv | .fbSensWind | .fbSensTh | .fbSensRain => [.ckSum]
  | .ckSum => [.ckCrc]
  | .ckCrc => [.ckStore]
  | .ckStore => [.encStart]
  | .encStart => [.encFirst]
  | .encFirst => [.encSecond]
  | .encSecond => [.encFirst, .encEnd]
  | .encEnd => [.dbgLog, .schDone]
  | .dbgLog => [.schDone]
  | .schDone => [.schTick]

/-- Every code of the table is 0xFF or that of one of the next operations. -/
theorem eq_encode_of_mem_successors {kind : Kind} {i : Instr} {c : Byte} (h : c ∈ successors kind i) :
    c = 0xFF ∨ ∃ j ∈ nextInstrs kind i, c = encode j := by
  revert h
  cases i <;>
    simp only [successors, nextInstrs, List.mem_cons, List.not_mem_nil, or_false, exists_eq_or_imp, exists_eq_left, encode] <;>
    tauto

/-- An operation leaves 0xFF or the code of one of its next operations in `SEQ`. -/
theorem Performs.next {s t : State} {i : Instr} (h : Performs s i t) (hseq : s.seq = encode i) :
    t.seq = 0xFF ∨ ∃ j ∈ nextInstrs s.cfg.kind i, t.seq = encode j :=
  eq_encode_of_mem_successors (h.seq_mem_successors fun e => by rw [hseq, e]; rfl)

/-- The next operations are legal under the kind, and RESET is none of them (R76). -/
theorem legal_of_mem_nextInstrs (kind : Kind) (i : Instr) : ∀ j ∈ nextInstrs kind i, j.wellFormed kind = true ∧ j ≠ .reset := by
  cases i <;> cases kind <;> decide

/-- The operation of a sensor kind is legal under that kind alone (R75). -/
theorem kind_eq_of_wellFormed_sensOf {k kind : Kind} (h : (Instr.sensOf k).wellFormed kind = true) : kind = k := by
  cases k <;> simpa [Instr.sensOf, Instr.wellFormed] using h

theorem sensOf_mem_storing (k : Kind) : Instr.sensOf k ∈ storing := by
  cases k <;> decide

/-- The phase an operation is performed in (R149, R150, R153). -/
def phaseOfInstr : Instr → SPhase
  | .validate | .drawRoll | .schTick => .idle
  | .schEval => .pending
  | .reset | .fbClear | .fbHdr | .fbId | .fbRoll | .fbSensUv | .fbSensWind | .fbSensTh | .fbSensRain | .ckSum | .ckCrc | .ckStore
  | .encStart | .encFirst | .encSecond | .encEnd | .schDone | .dbgLog => .sent

theorem phaseOf_encode (i : Instr) : phaseOf (encode i) = some (phaseOfInstr i) := by
  cases i <;> rfl

/-- The scheduler's own operations. -/
def schedulerInstrs : List Instr := [.schTick, .schEval, .schDone]

/-- The table leaves the phase only by RESET and the scheduler's operations. -/
theorem phaseOfInstr_of_mem_nextInstrs {kind : Kind} {i : Instr} (hreset : i ≠ .reset) (hsch : i ∉ schedulerInstrs) :
    ∀ j ∈ nextInstrs kind i, phaseOfInstr j = phaseOfInstr i := by
  revert hreset hsch
  cases i <;> cases kind <;> decide

/-- An operation performed in its phase leaves the phase of the next. -/
theorem Performs.phase {s t : State} {i : Instr} (h : Performs s i t) (hreset : i ≠ .reset) (hseq : s.seq = encode i)
    (hs : s.sphase = phaseOfInstr i) : ∀ p, phaseOf t.seq = some p → t.sphase = p := by
  intro p hp
  by_cases hsch : i ∈ schedulerInstrs
  · have hstore : i ∉ storing := fun hi => (by decide : ∀ j ∈ storing, j ∉ schedulerInstrs) i hi hsch
    cases h
    case tickWait =>
      rw [hseq, phaseOf_encode] at hp
      exact hs.trans (Option.some.inj hp)
    case tick | fire | idle | done => exact Option.some.inj hp
    case store hi _ => exact absurd hi hstore
    case sensIllegal | sensRange => exact absurd (sensOf_mem_storing _) hstore
    all_goals simp [schedulerInstrs] at hsch
  · have hkeep : t.sphase = s.sphase := by
      rcases h.sphase_cases with h | ⟨rfl, -⟩ | ⟨rfl, -⟩ | ⟨rfl, -⟩ | ⟨rfl, -⟩
      · exact h
      all_goals simp [schedulerInstrs] at hsch hreset
    rcases h.next hseq with hff | ⟨j, hj, hcode⟩
    · rw [hff] at hp
      cases hp
    · rw [hcode, phaseOf_encode, phaseOfInstr_of_mem_nextInstrs hreset hsch j hj, ← hs] at hp
      exact hkeep.trans (Option.some.inj hp)

/-! ### The registers of power-on (R31, R39) -/

/-- `VALIDATE` writes the on phase whole: it fits the register (R91). -/
theorem ofInt_onPhase_toNat {p : Profile} (h : validProfile p = true) : ((BitVec.ofInt 16 (onPhase p)).toNat : Int) = onPhase p := by
  obtain ⟨-, -, -, -, -, -, ⟨hlo, hhi⟩, -⟩ := (validProfile_iff p).1 h
  rw [BitVec.toNat_ofInt]
  omega

/-- The profile is valid and `ON_US` is its on phase. -/
def State.phaseSet (s : State) : Prop := validProfile s.cfg = true ∧ (s.onUs.toNat : Int) = onPhase s.cfg

/-- `VALIDATE` sets the on phase if it does not fault, and no operation but RESET loses it. -/
theorem Performs.phaseSet {s t : State} {i : Instr} (h : Performs s i t) (hreset : i ≠ .reset) (hs : i ≠ .validate → s.phaseSet)
    (hne : t.seq ≠ 0xFF) : t.phaseSet := by
  cases h
  case reset => exact absurd rfl hreset
  case validateBad | sensIllegal | sensRange => exact absurd (raiseFault_seq s _ _) hne
  case validateOk hc =>
    have hvalid : validProfile s.cfg = true := Option.isNone_iff_eq_none.2 hc
    exact ⟨hvalid, ofInt_onPhase_toNat hvalid⟩
  case store hi _ => exact hs fun e => absurd hi (by rw [e]; decide)
  case encEnd u hu => rcases hu with rfl | ⟨_, rfl⟩ <;> simpa [State.phaseSet] using hs nofun
  all_goals simpa [State.phaseSet] using hs nofun

/-- The draw leaves no degenerate rolling code behind, and no later operation changes it (R31, R94). -/
theorem Performs.rollBad {s t : State} {i : Instr} (h : Performs s i t) (hs : i ∉ powerOnInstrs → rollBad s.roll = false)
    (hne : t.seq ≠ 0x02 ∧ t.seq ≠ 0x03 ∧ t.seq ≠ 0xFF) : rollBad t.roll = false := by
  by_cases hi : i ∈ powerOnInstrs
  · have hstore : i ∉ storing := fun h => (by decide : ∀ j ∈ storing, j ∉ powerOnInstrs) i h hi
    cases h
    case drawOk hr => exact hr
    case reset h =>
      cases h
      exact absurd rfl hne.1
    case validateOk | drawBad => exact absurd rfl hne.2.1
    case validateBad => exact absurd (raiseFault_seq s _ _) hne.2.2
    case store h _ => exact absurd h hstore
    case sensIllegal | sensRange => exact absurd (sensOf_mem_storing _) hstore
    all_goals simp [powerOnInstrs] at hi
  · rw [h.roll hi]
    exact hs hi

/-! ### The line and the cursor (R41, R136, R139) -/

/-- The part of the invariant about an encode: the cursor, and the line within and outside it. -/
structure State.EncodeOk (s : State) : Prop where
  cursor : (s.seq = 0x31 ∨ s.seq = 0x32 → s.bitix.toNat < 8 * s.cfg.l.toNat) ∧ (s.seq = 0x33 → s.bitix.toNat = 8 * s.cfg.l.toNat)
  low : ¬ encoding s.seq → s.tx = .low
  level : encoding s.seq → s.tx = encodeLevel s

theorem State.Inv.encodeOk {s : State} (h : s.Inv) : s.EncodeOk := ⟨h.cursor, h.lineLow, h.lineLevel⟩

/-- Outside an encode a LOW line is all there is to say. -/
theorem encodeOk_of_not_encoding {s : State} (hseq : ¬ encoding s.seq) (htx : s.tx = .low) : s.EncodeOk where
  cursor := ⟨fun h => absurd (h.imp_right .inl) hseq, fun h => absurd (.inr (.inr h)) hseq⟩
  low _ := htx
  level h := absurd h hseq

/-- The encoder's operations that are performed while a frame is on the line (R145). -/
def encodingInstrs : List Instr := [.encFirst, .encSecond, .encEnd]

theorem encoding_encode_iff (i : Instr) : encoding (encode i) ↔ i ∈ encodingInstrs := by
  cases i <;> simp [encoding, encode, encodingInstrs]

/-- No operation but those that drive the line stands or ends within an encode (R158). -/
theorem not_encoding_of_not_mem_lineInstrs {kind : Kind} {i : Instr} (hi : i ∉ lineInstrs) :
    ∀ j ∈ i :: nextInstrs kind i, ¬ encoding (encode j) := by
  simp only [encoding_encode_iff]
  revert hi
  cases i <;> cases kind <;> decide

theorem not_encoding_halted : ¬ encoding 0xFF := by
  simp [encoding]

/-- The cursor's next place fits its register: a frame has at most 255 bytes. -/
theorem cursor_add_one_lt {s : State} (h : s.bitix.toNat < 8 * s.cfg.l.toNat) : s.bitix.toNat + 1 < 2 ^ 16 := by
  have := s.cfg.l.isLt
  omega

/-- After ENC_SECOND the line has the second level of the bit just sent, before the next bit and at the end of the stream alike. -/
theorem encodeOk_after_second {s : State} (t d : Time) (b : BitVec 16) (hlt : s.bitix.toNat < 8 * s.cfg.l.toNat)
    (hb : b.toNat = s.bitix.toNat + 1) :
    State.EncodeOk { (s.sleepUntil t).setLine (secondLevel s.lastBit) with
      dl := d, bitix := b, written := { s.written with dl := true, bitix := true }
      seq := if b.toNat = 8 * s.cfg.l.toNat then 0x33 else 0x31 } := by
  by_cases hend : b.toNat = 8 * s.cfg.l.toNat
  · rw [if_pos hend]
    exact ⟨⟨nofun, fun _ => hend⟩, fun h => absurd (.inr (.inr rfl)) h, fun _ => rfl⟩
  · have hcursor : b.toNat < 8 * s.cfg.l.toNat := by omega
    have hne : b ≠ 0 := by
      rintro rfl
      cases hb
    rw [if_neg hend]
    refine ⟨⟨fun _ => hcursor, nofun⟩, fun h => absurd (.inl rfl) h, fun _ => ?_⟩
    rw [encodeLevel, if_pos rfl, if_neg hne]
    rfl

/-- The operations that drive the line leave it as the encode's progress says; every other one stands and ends outside an encode, with the
line LOW. -/
theorem Performs.encodeOk {s t : State} {i : Instr} (h : Performs s i t) (hreset : i ≠ .reset) (hseq : s.seq = encode i)
    (hl : i = .encStart → 0 < s.cfg.l.toNat) (hs : s.EncodeOk) : t.EncodeOk := by
  by_cases hi : i ∈ lineInstrs
  · have hstore : i ∉ storing := fun h => (by decide : ∀ j ∈ storing, j ∉ lineInstrs) i h hi
    cases h
    case reset => exact absurd rfl hreset
    case encStart => exact ⟨⟨fun _ => Nat.mul_pos (by decide) (hl rfl), nofun⟩, fun _ => rfl, fun _ => rfl⟩
    case encFirst b hb => exact ⟨⟨fun _ => hb, nofun⟩, fun h => absurd (.inr (.inl rfl)) h, fun _ => rfl⟩
    case encSecond t d b hb =>
      have hlt : s.bitix.toNat < 8 * s.cfg.l.toNat := hs.cursor.1 (.inr hseq)
      exact encodeOk_after_second t d b hlt (hb (cursor_add_one_lt hlt))
    case encEnd =>
      refine encodeOk_of_not_encoding ?_ rfl
      rw [State.goto_seq]
      split <;> simp [encoding]
    case store h _ => exact absurd h hstore
    case sensIllegal | sensRange => exact absurd (sensOf_mem_storing _) hstore
    all_goals simp [lineInstrs] at hi
  · have hout := not_encoding_of_not_mem_lineInstrs (kind := s.cfg.kind) hi
    have hlow : s.tx = .low := hs.low (hseq ▸ hout i (by simp))
    have hnext : ¬ encoding t.seq := by
      rcases h.next hseq with hff | ⟨j, hj, hcode⟩
      · exact hff ▸ not_encoding_halted
      · exact hcode ▸ hout j (by simp [hj])
    refine encodeOk_of_not_encoding hnext ?_
    rcases h.line hi with ⟨htx, -⟩ | ⟨code, detail, rfl⟩
    · rw [htx, hlow]
    · exact raiseFault_tx s _ _

/-! ### Fault entry (R171, R173, R177) -/

/-- An operation that is legal under the kind goes on without touching `FAULT`, or it is one of the block's two fault entries, each in its
phase. -/
theorem Performs.goes_on_or_faults {s t : State} {i : Instr} (h : Performs s i t) (hreset : i ≠ .reset) (hseq : s.seq = encode i)
    (hlegal : i.wellFormed s.cfg.kind = true) :
    (t.fault = s.fault ∧ t.seq ≠ 0xFF) ∨
    ∃ code detail, t = raiseFault s code detail ∧
      ((code = configError ∧ phaseOfInstr i = .idle) ∨ (code = readingRange ∧ phaseOfInstr i = .sent)) := by
  cases h
  case reset => exact absurd rfl hreset
  case validateBad d => exact .inr ⟨_, d, rfl, .inl ⟨rfl, rfl⟩⟩
  case sensIllegal k hk => exact absurd (kind_eq_of_wellFormed_sensOf hlegal) hk
  case sensRange k d _ => exact .inr ⟨_, d, rfl, .inr ⟨rfl, by cases k <;> rfl⟩⟩
  case store hne _ _ _ => exact .inl ⟨rfl, hne⟩
  case encSecond =>
    refine .inl ⟨rfl, ?_⟩
    dsimp only
    split <;> decide
  case encEnd u hu =>
    refine .inl ⟨by rcases hu with rfl | ⟨_, rfl⟩ <;> simp, ?_⟩
    rw [State.goto_seq]
    split <;> decide
  case tickWait => exact .inl ⟨rfl, hseq ▸ encode_ne_halted _⟩
  all_goals exact .inl ⟨rfl, by simp⟩

/-- Fault entry with one of the block's two codes, in its phase, keeps the invariant. -/
theorem State.Inv.raiseFault {s : State} (h : s.Inv) {code : BitVec 4}
    (hcode : (code = configError ∧ s.sphase = .idle) ∨ (code = readingRange ∧ s.sphase = .sent)) (detail : BitVec 8) :
    (raiseFault s code detail).Inv := by
  have hseq : (Machine.raiseFault s code detail).seq = 0xFF := raiseFault_seq s _ _
  have htrace := h.traceOk.raiseFault code detail
  have hencode : (Machine.raiseFault s code detail).EncodeOk :=
    encodeOk_of_not_encoding (hseq ▸ not_encoding_halted) (raiseFault_tx s _ _)
  exact {
    canonical := by simpa using h.canonical
    inFrame := by simpa using h.inFrame
    legal := .inl hseq
    halted := ⟨fun _ => hseq, fun _ => rfl⟩
    noFault := nofun
    faultCode := fun _ => by simpa using hcode
    phase := fun p hp => by
      rw [hseq] at hp
      cases hp
    validated := fun _ hne => absurd hseq hne
    rolled := fun _ _ hne => absurd hseq hne
    cursor := hencode.cursor
    lineLow := hencode.low
    lineLevel := hencode.level
    traceTimes := ⟨htrace.sorted, htrace.past⟩
    traceLevel := htrace.level }

/-! ### The invariant (O58, O59) -/

/-- A block with VALIDATE next, idle, without a fault and the line LOW. -/
theorem inv_of_validate_next {s : State} (hseq : s.seq = 0x02) (hfault : s.fault = FaultReg.clear) (hphase : s.sphase = .idle)
    (htx : s.tx = .low) (hwf : s.fb.wf = true) (hin : s.fb.within s.cfg.l.toNat = true) (htrace : s.TraceOk) : s.Inv := by
  have hencode : s.EncodeOk := encodeOk_of_not_encoding (by rw [hseq]; simp [encoding]) htx
  exact {
    canonical := hwf
    inFrame := hin
    legal := .inr ⟨.validate, by rw [hseq]; rfl, rfl, by decide⟩
    halted := by rw [hfault, hseq]; decide
    noFault := fun _ => hfault
    faultCode := fun h => by
      rw [hfault] at h
      cases h
    phase := fun p hp => by
      rw [hseq] at hp
      exact hphase.trans (Option.some.inj hp)
    validated := fun hne => absurd hseq hne
    rolled := fun hne => absurd hseq hne
    cursor := hencode.cursor
    lineLow := hencode.low
    lineLevel := hencode.level
    traceTimes := ⟨htrace.sorted, htrace.past⟩
    traceLevel := htrace.level }

/-- Settles O58: `State.powerOn` has VALIDATE next, an empty frame buffer and one setpoint. -/
theorem invariantHoldsAtReset : Obligations.InvariantHoldsAtReset := fun _ =>
  inv_of_validate_next rfl rfl rfl rfl rfl rfl
    ⟨List.pairwise_singleton _ _, fun _ hp => List.mem_singleton.1 hp ▸ BitVec.le_refl _, rfl⟩

/-- What the invariant says of an operation in `SEQ`: it is legal under the kind and not RESET. -/
theorem State.Inv.legal_of_decode {s : State} {i : Instr} (h : s.Inv) (hd : decode s.seq = .ok i) :
    i.wellFormed s.cfg.kind = true ∧ i ≠ .reset := by
  rcases h.legal with hff | ⟨j, hj, hlegal⟩
  · rw [hff] at hd
    cases hd
  · rw [hj] at hd
    cases hd
    exact hlegal

/-- Under the invariant `SEQ` holds no reserved code. -/
theorem State.Inv.not_reserved {s : State} {c : Byte} (h : s.Inv) : decode s.seq ≠ .error (.reserved c) := by
  rcases h.legal with hff | ⟨j, hj, -⟩
  · rw [hff]
    nofun
  · rw [hj]
    nofun

/-- Past VALIDATE, for an operation in `SEQ` (R39). -/
theorem State.Inv.phaseSet {s : State} {i : Instr} (h : s.Inv) (hseq : s.seq = encode i) (hi : i ≠ .validate) : s.phaseSet := by
  refine h.validated (fun h2 => hi ?_) (hseq ▸ encode_ne_halted i)
  have hd : decode (encode i) = .ok .validate := by rw [← hseq, h2]; rfl
  rw [decode_encode] at hd
  cases hd
  rfl

/-- Past the draw, for an operation in `SEQ` (R31). -/
theorem State.Inv.rollBad {s : State} {i : Instr} (h : s.Inv) (hseq : s.seq = encode i) (hi : i ∉ powerOnInstrs) :
    rollBad s.roll = false := by
  have hcode : ∀ j ∈ powerOnInstrs, s.seq ≠ encode j := by
    intro j hj hc
    have hd := decode_encode i
    rw [← hseq, hc, decode_encode] at hd
    cases hd
    exact hi hj
  exact h.rolled (hcode .validate (by decide)) (hcode .drawRoll (by decide)) (hseq ▸ encode_ne_halted i)

/-- An operation that goes on keeps the invariant, part by part. -/
theorem State.Inv.performs {s t : State} {i : Instr} (hs : s.Inv) (hd : decode s.seq = .ok i) (h : Performs s i t) : t.Inv := by
  obtain ⟨hlegal, hreset⟩ := hs.legal_of_decode hd
  have hseq := encode_of_decode hd
  have hphase : s.sphase = phaseOfInstr i := hs.sphase_of_decode hd (phaseOf_encode i)
  rcases h.goes_on_or_faults hreset hseq hlegal with ⟨hfault, hne⟩ | ⟨code, detail, rfl, hcode⟩
  · have hclear : s.fault = FaultReg.clear := hs.noFault (Bool.eq_false_iff.2 fun hh =>
      encode_ne_halted i (hseq ▸ hs.halted.1 hh))
    have hnothalted : ¬ t.fault.halted = true := by rw [hfault, hclear]; decide
    obtain ⟨hwf, hin⟩ := h.frameOk hs.canonical hs.inFrame
    have hencode := h.encodeOk hreset hseq
      (fun e => by have := (validProfile_iff _).1 (hs.phaseSet hseq (by rw [e]; decide)).1; omega) hs.encodeOk
    have htrace := h.traceOk hs.traceOk
    exact {
      canonical := hwf
      inFrame := hin
      legal := by
        rw [h.cfg]
        obtain ⟨j, hj, hcode⟩ := (h.next hseq).resolve_left hne
        exact .inr ⟨j, hcode ▸ decode_encode j, legal_of_mem_nextInstrs _ _ j hj⟩
      halted := ⟨fun hh => absurd hh hnothalted, fun hh => absurd hh hne⟩
      noFault := fun _ => hfault.trans hclear
      faultCode := fun hh => absurd hh hnothalted
      phase := h.phase hreset hseq hphase
      validated := fun _ _ => h.phaseSet hreset (hs.phaseSet hseq) hne
      rolled := fun h2 h3 hff => h.rollBad (hs.rollBad hseq) ⟨h2, h3, hff⟩
      cursor := hencode.cursor
      lineLow := hencode.low
      lineLevel := hencode.level
      traceTimes := ⟨htrace.sorted, htrace.past⟩
      traceLevel := htrace.level }
  · exact hs.raiseFault (by rwa [hphase]) detail

/-- RESET establishes the invariant from any state whose trace is in order. -/
theorem inv_of_reset {s t : State} (hs : s.TraceOk) (h : exec .reset s = .next t) : t.Inv := by
  have htrace := (Performs.reset t h).traceOk hs
  cases h
  exact inv_of_validate_next rfl rfl rfl rfl (Memory.wf_ofBytes _ _) (Memory.within_ofBytes _ _) htrace

/-- The environment's turn keeps the invariant: it only moves the clock on. -/
theorem State.Inv.environment {s : State} (h : s.Inv) (timed : Bool) : (s.environment timed).Inv := by
  have htrace : (s.environment timed).TraceOk := h.traceOk.of_eq rfl rfl (s.env.now_le_turned timed)
  exact { h with traceTimes := ⟨htrace.sorted, htrace.past⟩ }

/-- Settles O59: RESET establishes the invariant, a legal operation keeps it (`State.Inv.performs`), a halted step changes nothing, and no
reserved code is there. -/
theorem everyStepKeepsTheInvariant : Obligations.EveryStepKeepsTheInvariant := by
  intro s t hs h
  obtain ⟨u, hu, rfl⟩ := step_eq_next h
  refine State.Inv.environment ?_ _
  rcases act_cases s with ⟨-, ha⟩ | ⟨-, i, hd, ha⟩ | ⟨-, c, hd, -⟩ | ⟨-, -, ha⟩
  · exact inv_of_reset hs.traceOk (ha ▸ hu)
  · exact hs.performs hd (performs_of_exec i (ha ▸ hu))
  · exact absurd hd hs.not_reserved
  · cases ha.symm.trans hu
    exact hs

/-! ### No stop (R53, R121) -/

/-- With a valid profile the kind's `FB_SENS_*` answers: it stores, or its first field out of its domain raises READING_RANGE. -/
theorem exec_sensOf_answers {s : State} (hv : validProfile s.cfg = true) : ∃ t, exec (Instr.sensOf s.cfg.kind) s = .next t := by
  cases hfind : (fieldsOf s.cfg.kind s.cfg.enc).find? fun f => !fieldFits f (readField s.snapRd f.input) with
  | none =>
    have hfit : readingFits s.cfg.kind s.cfg.enc s.snapRd = true :=
      List.all_eq_true.2 fun f hf => by simpa using List.find?_eq_none.1 hfind f hf
    obtain ⟨t, ht, -⟩ := exec_sensOf_of_fits hv hfit
    exact ⟨t, ht⟩
  | some f =>
    obtain ⟨hf, before, after, hfields, hbefore⟩ := List.find?_eq_some_iff_append.1 hfind
    exact ⟨_, exec_sensOf_of_not_fits hv hfields (fun g hg => by simpa using hbefore g hg) (by simpa using hf)⟩

theorem exec_sensOf_answers_of_legal {s : State} (k : Kind) (hv : validProfile s.cfg = true)
    (hlegal : (Instr.sensOf k).wellFormed s.cfg.kind = true) : ∃ t, exec (Instr.sensOf k) s = .next t := by
  obtain rfl := kind_eq_of_wellFormed_sensOf hlegal
  exact exec_sensOf_answers hv

/-- A legal operation answers a next state if the profile is valid, past VALIDATE, and the cursor lies in the bit stream, at ENC_FIRST: the
frame of a valid profile has at least ten bytes. -/
theorem exec_answers {s : State} {i : Instr} (hlegal : i.wellFormed s.cfg.kind = true)
    (hv : i ∉ powerOnInstrs → validProfile s.cfg = true) (hc : i = .encFirst → s.bitix.toNat < 8 * s.cfg.l.toNat) :
    ∃ t, exec i s = .next t := by
  have hbounds (hi : i ∉ powerOnInstrs) := (sensor_bounds_of_valid (hv hi)).2
  cases i with
  | reset | drawRoll | encStart | encSecond | encEnd | schDone | dbgLog => exact ⟨_, rfl⟩
  | validate =>
    cases hcheck : configCheck s.cfg with
    | none => exact ⟨_, exec_validate_of_passes hcheck⟩
    | some d => exact ⟨_, exec_validate_of_fails hcheck⟩
  | schTick =>
    by_cases ht : s.env.tickReq = 0
    · exact ⟨_, exec_schTick_of_zero ht⟩
    · exact ⟨_, exec_schTick_of_pos ht⟩
  | schEval => exact ⟨_, exec_schEval s⟩
  | fbClear => exact (exec_fbClear s).imp fun _ => And.left
  | fbHdr => exact (exec_fbHdr (s := s) (by have := hbounds (by decide); omega)).imp fun _ => And.left
  | fbId => exact (exec_fbId (s := s) (by have := hbounds (by decide); omega)).imp fun _ => And.left
  | fbRoll => exact (exec_fbRoll (s := s) (by have := hbounds (by decide); omega)).imp fun _ => And.left
  | fbSensUv => exact exec_sensOf_answers_of_legal .uv (hv (by decide)) hlegal
  | fbSensWind => exact exec_sensOf_answers_of_legal .wind (hv (by decide)) hlegal
  | fbSensTh => exact exec_sensOf_answers_of_legal .th (hv (by decide)) hlegal
  | fbSensRain => exact exec_sensOf_answers_of_legal .rain (hv (by decide)) hlegal
  | ckSum =>
    have := hbounds (by decide)
    exact ⟨_, exec_ckSum (by omega) (by omega)⟩
  | ckCrc =>
    have := hbounds (by decide)
    exact ⟨_, exec_ckCrc (by omega)⟩
  | ckStore => exact (exec_ckStore (s := s) (by have := hbounds (by decide); omega)).imp fun _ => And.left
  | encFirst => exact ⟨_, exec_encFirst (hc rfl)⟩

/-- Settles O60: the invariant gives the premises of `exec_answers` for the operation in `SEQ`; every other action answers anyway. -/
theorem noStepStopsUnderTheInvariant : Obligations.NoStepStopsUnderTheInvariant := by
  intro s hs
  have hact : ∃ u, act s = .next u := by
    rcases act_cases s with ⟨-, ha⟩ | ⟨-, i, hd, ha⟩ | ⟨-, c, -, ha⟩ | ⟨-, -, ha⟩ <;> rw [ha]
    · exact ⟨_, rfl⟩
    · have hseq := encode_of_decode hd
      refine exec_answers (hs.legal_of_decode hd).1 (fun hi => (hs.phaseSet hseq fun e => hi ?_).1) fun e => hs.cursor.1 (.inl ?_)
      · rw [e]
        decide
      · rw [hseq, e]
        rfl
    · exact ⟨_, rfl⟩
    · exact ⟨_, rfl⟩
  obtain ⟨u, hu⟩ := hact
  exact ⟨_, step_of_act hu⟩

end Sys2Proof.Machine
end

section
/-! SUPPORT. The proofs about the stops outside the frame (spec/20_memory.md R53; log 11): the first address that an operation misses. -/

namespace Sys2Proof.Machine

/-! ### The first address outside (R53) -/

theorem guardFrame_of_outside {addrs : List Nat} {s t : State} {a : Nat} (h : outside s.cfg.l.toNat addrs = some a) :
    guardFrame addrs s t = .fault (.noFrameByte a) := by
  rw [guardFrame, h]

/-- Addresses that rise by at most one at a time meet the frame's end at its first missing byte, or start beyond it. -/
theorem outside_of_isChain {l a : Nat} {as : List Nat} (hchain : (a :: as).IsChain fun x y => y ≤ x + 1)
    (hex : ∃ x ∈ a :: as, l ≤ x) : outside l (a :: as) = some (max a l) := by
  induction as generalizing a with
  | nil =>
    obtain ⟨x, hx, hl⟩ := hex
    rw [List.mem_singleton] at hx
    subst hx
    rw [max_eq_left hl]
    exact List.find?_cons_of_pos (decide_eq_true hl)
  | cons b as ih =>
    by_cases hl : l ≤ a
    · rw [max_eq_left hl]
      exact List.find?_cons_of_pos (decide_eq_true hl)
    · obtain ⟨hab, htail⟩ := List.isChain_cons_cons.1 hchain
      have hex' : ∃ x ∈ b :: as, l ≤ x := by
        obtain ⟨x, hx, hlx⟩ := hex
        rcases List.mem_cons.1 hx with rfl | hx
        · exact absurd hlx hl
        · exact ⟨x, hx, hlx⟩
      have hmax : max b l = max a l := by omega
      rw [← hmax, ← ih htail hex']
      exact List.find?_cons_of_neg (by simpa using hl)

/-- A store whose addresses rise so stops at the frame's end. -/
theorem storeAndGo_of_isChain {ws : List FrameWrite} {c : Byte} {s : State} {a : Nat} {as : List Nat}
    (haddr : ws.map FrameWrite.addr = a :: as) (hchain : (a :: as).IsChain fun x y => y ≤ x + 1)
    (hex : ∃ x ∈ a :: as, s.cfg.l.toNat ≤ x) : storeAndGo ws c s = .fault (.noFrameByte (max a s.cfg.l.toNat)) :=
  guardFrame_of_outside (haddr ▸ outside_of_isChain hchain hex)

/-! ### The checksum range (R57) -/

theorem rangeAddrs_isChain (k : Nat) : (rangeAddrs k).IsChain fun x y => y ≤ x + 1 := by
  rw [rangeAddrs, List.isChain_map, List.isChain_range]
  intro m _
  rw [ckStart]
  omega

/-- A range that is not empty begins in byte 3. -/
theorem rangeAddrs_succ (k : Nat) : ∃ as, rangeAddrs (k + 1) = 3 :: as :=
  ⟨_, by rw [rangeAddrs, List.range_succ_eq_map, List.map_cons]; rfl⟩

/-- A range that is not empty ends in byte `(6 + k) / 2`. -/
theorem mem_rangeAddrs_last {k : Nat} (hk : k ≠ 0) : (6 + k) / 2 ∈ rangeAddrs k :=
  List.mem_map.2 ⟨k - 1, List.mem_range.2 (by omega), by rw [ckStart]; omega⟩

/-- The range's first byte outside the frame. -/
theorem outside_rangeAddrs {l k : Nat} (hk : k ≠ 0) (hl : l ≤ (6 + k) / 2) : outside l (rangeAddrs k) = some (max 3 l) := by
  have hchain := rangeAddrs_isChain k
  have hlast := mem_rangeAddrs_last hk
  obtain ⟨k, rfl⟩ := Nat.exists_eq_succ_of_ne_zero hk
  obtain ⟨as, has⟩ := rangeAddrs_succ k
  rw [has] at hchain hlast ⊢
  exact outside_of_isChain hchain ⟨_, hlast, hl⟩

/-- CK_SUM reads byte 3 even for an empty range (log 16). -/
theorem outside_three_rangeAddrs {l k : Nat} (hl : l ≤ (6 + k) / 2) : outside l (3 :: rangeAddrs k) = some (max 3 l) := by
  by_cases h3 : l ≤ 3
  · rw [max_eq_left h3]
    exact List.find?_cons_of_pos (decide_eq_true h3)
  · rw [← outside_rangeAddrs (k := k) (by omega) hl]
    exact List.find?_cons_of_neg (by simpa using h3)

/-! ### The sensor nibbles (R108, log 27) -/

/-- The kind's `FB_SENS_*` stops in a field if the fields up to it are in their domains. -/
theorem exec_sensOf_of_outside_field {s : State} {upTo after : List FieldSpec} {a : Nat}
    (hfields : fieldsOf s.cfg.kind s.cfg.enc = upTo ++ after)
    (hfit : ∀ g ∈ upTo, fieldFits g (readField s.snapRd g.input) = true)
    (hout : outside s.cfg.l.toNat (upTo.flatMap fieldAddrs) = some a) :
    exec (Instr.sensOf s.cfg.kind) s = .fault (.noFrameByte a) := by
  rw [exec_sensOf, sensStore, if_neg (not_not_intro rfl), hfields, putFields_append _ _ _ _ hfit, hout]

/-- The kind's `FB_SENS_*` stops in a constant if every field is in its domain and inside the frame. -/
theorem exec_sensOf_of_outside_const {s : State} {a : Nat} (hfit : readingFits s.cfg.kind s.cfg.enc s.snapRd = true)
    (hin : outside s.cfg.l.toNat ((fieldsOf s.cfg.kind s.cfg.enc).flatMap fieldAddrs) = none)
    (hout : outside s.cfg.l.toNat ((fieldsOf s.cfg.kind s.cfg.enc).flatMap fieldAddrs ++ constAddrs s.cfg.enc) = some a) :
    exec (Instr.sensOf s.cfg.kind) s = .fault (.noFrameByte a) := by
  have hput := putFields_append s.cfg.l.toNat s.snapRd (fieldsOf s.cfg.kind s.cfg.enc) [] (List.all_eq_true.1 hfit)
  rw [List.append_nil, hin, putFields] at hput
  rw [exec_sensOf, sensStore, if_neg (not_not_intro rfl), hput]
  refine guardFrame_of_outside ?_
  rw [List.append_nil, List.map_append, List.map_flatMap, map_addr_constWrites]
  simpa only [map_addr_fieldPairs] using hout

/-- Settles O50: the addresses of each operation rise by at most one (`outside_of_isChain`); the sensor stores stop in the fields, and if
none of these is outside, in the constants. -/
theorem addressOutsideTheFrameStops : Obligations.AddressOutsideTheFrameStops := by
  intro s
  refine ⟨fun h => ?hdr, fun h => ?id, fun h => ?roll, fun h => ?first, fun h => ?sum, fun hk h => ?crc, fun h => ?store,
    fun _ _ _ hfields hfit hout => exec_sensOf_of_outside_field hfields hfit hout, fun a hfit hout => ?const⟩
  case hdr =>
    have hstop := storeAndGo_of_isChain (s := s) (ws := [.byte 0 0xFF, .byte 1 0xFF, .byte 2 0xFF, .nib 6 0xA]) (c := 0x12)
      (a := 0) (as := [1, 2, 3]) rfl (by simp) ⟨3, by simp, by omega⟩
    rwa [Nat.zero_max] at hstop
  case id =>
    exact storeAndGo_of_isChain (a := 3) (as := [4, 4, 5, 5]) rfl (by simp) ⟨5, by simp, by omega⟩
  case roll =>
    exact storeAndGo_of_isChain (a := 6) (as := [7]) rfl (by simp) ⟨7, by simp, by omega⟩
  case first =>
    have hstop := outside_of_isChain (l := s.cfg.l.toNat) (a := s.bitix.toNat / 8) (as := []) (List.isChain_singleton _)
      ⟨_, List.mem_singleton_self _, by omega⟩
    rw [max_eq_left (by omega)] at hstop
    exact guardFrame_of_outside hstop
  case sum => exact guardFrame_of_outside (outside_three_rangeAddrs h)
  case crc => exact guardFrame_of_outside (outside_rangeAddrs (fun e => hk (BitVec.eq_of_toNat_eq e)) h)
  case store =>
    refine storeAndGo_of_isChain (a := (7 + s.cfg.k.toNat) / 2)
      (as := [(7 + s.cfg.k.toNat + 1) / 2, (7 + s.cfg.k.toNat + 2) / 2, (7 + s.cfg.k.toNat + 3) / 2]) rfl ?_
      ⟨(7 + s.cfg.k.toNat + 3) / 2, by simp, by omega⟩
    simp only [List.isChain_cons_cons, List.isChain_singleton, and_true]
    omega
  case const =>
    cases hin : outside s.cfg.l.toNat ((fieldsOf s.cfg.kind s.cfg.enc).flatMap fieldAddrs) with
    | none => exact exec_sensOf_of_outside_const hfit hin hout
    | some b =>
      have hfind : outside s.cfg.l.toNat ((fieldsOf s.cfg.kind s.cfg.enc).flatMap fieldAddrs ++ constAddrs s.cfg.enc) = some b := by
        rw [outside, List.find?_append, ← outside, hin]
        rfl
      cases hfind.symm.trans hout
      exact exec_sensOf_of_outside_field (List.append_nil _).symm (List.all_eq_true.1 hfit) hin

end Sys2Proof.Machine
end

section
/-! SUPPORT. The proof about the receiver (spec/43_manchester.md R148): the level of the ideal waveform in the first phase of each bit, and
the bits regrouped into bytes. -/

namespace Sys2Proof.Machine

/-! ### The level of a waveform at a time (R146) -/

/-- The level at time `t` of a line that has the level `l` before the setpoints `w`. -/
def levelFrom (t : Nat) (l : Level) (w : List (Nat × Level)) : Level := w.foldl (fun l p => if p.1 ≤ t then p.2 else l) l

theorem levelAt_eq_levelFrom (w : List (Nat × Level)) (t : Nat) : levelAt w t = levelFrom t .low w := rfl

theorem levelFrom_cons (t : Nat) (l : Level) (p : Nat × Level) (w : List (Nat × Level)) :
    levelFrom t l (p :: w) = levelFrom t (if p.1 ≤ t then p.2 else l) w := rfl

/-- Setpoints to come do not change the level. -/
theorem levelFrom_of_lt {t : Nat} {w : List (Nat × Level)} (l : Level) (h : ∀ p ∈ w, t < p.1) : levelFrom t l w = l := by
  induction w with
  | nil => rfl
  | cons p w ih =>
    rw [levelFrom_cons, if_neg (Nat.not_le.2 (h p (by simp)))]
    exact ih fun q hq => h q (by simp [hq])

theorem levelFrom_append_of_lt {t : Nat} {w w' : List (Nat × Level)} (l : Level) (h : ∀ p ∈ w', t < p.1) :
    levelFrom t l (w ++ w') = levelFrom t l w := by
  rw [levelFrom, List.foldl_append]
  exact levelFrom_of_lt _ h

/-- The setpoints from bit `j` on are not before that bit. -/
theorem le_time_of_mem_waveBits {t0 on j : Nat} {bs : List Bool} : ∀ p ∈ waveBits t0 on j bs, t0 + bitUs * j ≤ p.1 := by
  induction bs generalizing j with
  | nil => nofun
  | cons b bs ih =>
    intro p hp
    rw [waveBits, List.mem_cons, List.mem_cons] at hp
    rcases hp with rfl | rfl | hp
    · exact Nat.le_refl _
    · exact Nat.le_add_right _ _
    · have := ih p hp
      rw [bitUs] at *
      omega

/-- In the middle of its first phase a bit has its first level. -/
theorem levelFrom_waveBits {t0 on : Nat} (h1 : 1 ≤ on) (h975 : on ≤ 975) {bs : List Bool} {b : Bool} {k : Nat} (j : Nat) (l : Level)
    (hb : bs[k]? = some b) : levelFrom (t0 + bitUs * (j + k) + on / 2) l (waveBits t0 on j bs) = firstLevel b := by
  induction bs generalizing j k l with
  | nil => cases hb
  | cons c bs ih =>
    rw [waveBits, levelFrom_cons, levelFrom_cons]
    cases k with
    | zero =>
      cases hb
      have hnow : t0 + bitUs * j ≤ t0 + bitUs * (j + 0) + on / 2 := Nat.le_add_right _ _
      have hsecond : ¬ t0 + bitUs * j + on ≤ t0 + bitUs * (j + 0) + on / 2 := by rw [Nat.add_zero]; omega
      rw [if_pos hnow, if_neg hsecond]
      refine levelFrom_of_lt _ fun p hp => ?_
      have := le_time_of_mem_waveBits p hp
      rw [bitUs] at *
      omega
    | succ k =>
      rw [← Nat.succ_add_eq_add_succ]
      exact ih (j + 1) _ hb

/-- What the receiver samples in bit `j` of a waveform is the bit (R148). -/
theorem levelAt_wave {t0 on : Nat} (h1 : 1 ≤ on) (h975 : on ≤ 975) {bits : List Bool} {b : Bool} {j : Nat} (hb : bits[j]? = some b) :
    levelAt (wave bits t0 on) (t0 + bitUs * j + on / 2) = firstLevel b := by
  have hj : j < bits.length := (List.getElem?_eq_some_iff.1 hb).1
  have hend : t0 + bitUs * j + on / 2 < waveEnd t0 bits := by
    rw [waveEnd, bitUs]
    omega
  have hbits := levelFrom_waveBits (t0 := t0) h1 h975 0 .low hb
  rw [Nat.zero_add] at hbits
  rw [levelAt_eq_levelFrom, wave, levelFrom_append_of_lt _ (by simpa using hend), levelFrom_cons, ite_self]
  exact hbits

theorem firstLevel_eq_high_iff (b : Bool) : firstLevel b = .high ↔ b = true := by
  cases b <;> simp [firstLevel]

/-- The receiver samples the bits that were sent. -/
theorem sampled_wave {t0 on : Nat} (h1 : 1 ≤ on) (h975 : on ≤ 975) (bits : List Bool) :
    sampled (wave bits t0 on) t0 on bits.length = bits := by
  refine List.ext_getElem (by simp [sampled]) fun j _ hj => ?_
  simp only [sampled, List.getElem_map, List.getElem_range, levelAt_wave h1 h975 (List.getElem?_eq_getElem hj),
    firstLevel_eq_high_iff, Bool.decide_eq_true]

/-! ### Bits to bytes (R60, R148) -/

theorem byteOfBits_byteBits (b : Byte) :
    byteOfBits (b.getLsbD 4) (b.getLsbD 5) (b.getLsbD 6) (b.getLsbD 7) (b.getLsbD 0) (b.getLsbD 1) (b.getLsbD 2) (b.getLsbD 3) = b := by
  revert b
  decide

theorem bytesOfBits_frameBits (bs : List Byte) : bytesOfBits (frameBits bs) = bs := by
  induction bs with
  | nil => rfl
  | cons b bs ih => exact congrArg₂ List.cons (byteOfBits_byteBits b) ih

/-- Settles O38: the receiver samples the bits that were sent (`sampled_wave`), and regrouping them undoes `frameBits`. -/
theorem receiverRecoversEveryByte : Obligations.ReceiverRecoversEveryByte := by
  intro bs t0 on h1 h975
  rw [← frameBits_length, sampled_wave h1 h975, bytesOfBits_frameBits]

end Sys2Proof.Machine
end

section
/-! SUPPORT. The proofs about the firing count (spec/44_scheduler.md R149, R150, R154): what one step does to the seconds, the ticks that a
run of steps fires, and the seconds of `exec` alone. -/

namespace Sys2Proof.Machine

/-! ### The multiples of the interval -/

/-- The multiples of `I` among the ticks 1 to `T`. -/
def multiples (I T : Nat) : List Nat := ((List.range T).map (· + 1)).filter fun j => decide (j % I = 0)

theorem multiples_succ (I T : Nat) : multiples I (T + 1) = multiples I T ++ if (T + 1) % I = 0 then [T + 1] else [] := by
  rw [multiples, List.range_succ, List.map_append, List.filter_append, ← multiples]
  congr 1
  by_cases h : (T + 1) % I = 0 <;> simp [h]

/-- There are `floor(T / I)` of them (R154). -/
theorem countP_multiples (I T : Nat) : (List.range T).countP (fun j => decide ((j + 1) % I = 0)) = T / I := by
  rw [← Nat.card_multiples T I]
  simp only [Nat.dvd_iff_mod_eq_zero]
  exact List.countP_eq_length_filter

theorem multiples_length (I T : Nat) : (multiples I T).length = T / I := by
  rw [multiples, ← List.countP_eq_length_filter, List.countP_map]
  exact countP_multiples I T

/-! ### One step -/

/-- A step writes `ELAPSED` by RESET and by an accepted tick alone (R83, R149). -/
theorem step_elapsed {s t : State} (h : step s = .next t) :
    t.elapsed = if s.nextAction = .run .reset then 0
      else if s.nextAction = .run .schTick ∧ s.env.tickReq ≠ 0 then s.elapsed + 1 else s.elapsed := by
  obtain ⟨u, hu, rfl⟩ := step_eq_next h
  rw [State.environment_elapsed]
  rcases act_next_cases hu with ⟨i, hact, hp, -⟩ | ⟨hno, -, he, -⟩
  · simp only [hact, hp.elapsed, Action.run.injEq]
  · rw [he, if_neg (hno _).1, if_neg fun hc => (hno _).1 hc.1]

/-- A SCH_EVAL step fires exactly if the interval divides `ELAPSED` (R150). -/
theorem step_schEval_sphase {s t : State} (h : step s = .next t) (hact : s.nextAction = .run .schEval) (hi : s.cfg.interval ≠ 0) :
    t.sphase = .sent ↔ s.elapsed.toNat % s.cfg.interval.toNat = 0 := by
  rw [step_run hact] at h
  by_cases hdvd : s.elapsed.toNat % s.cfg.interval.toNat = 0
  · rw [exec_schEval_of_dvd hi hdvd] at h
    cases h
    exact iff_of_true rfl hdvd
  · rw [exec_schEval_of_not_dvd hi hdvd] at h
    cases h
    exact iff_of_false nofun hdvd

/-- Without a reset event the operation performed is the one whose code `SEQ` holds. -/
theorem nextAction_eq_run_iff {s : State} (hr : s.env.resetReq = false) (i : Instr) : s.nextAction = .run i ↔ s.seq = encode i := by
  rw [← decode_eq_ok_iff]
  rcases decode_cases s.seq with ⟨-, h⟩ | ⟨j, -, h⟩ | ⟨-, -, h⟩
  · simp [State.nextAction_halted hr h, h]
  · simp [State.nextAction_run hr h, h]
  · simp [State.nextAction_illegal hr h, h]

theorem State.acceptsTick_iff {s : State} : s.acceptsTick = true ↔ s.nextAction = .run .schTick ∧ s.env.tickReq ≠ 0 :=
  decide_eq_true_iff

/-- Without a reset event SCH_EVAL is next exactly after an accepted tick, and RESET never is (R158). -/
theorem step_seq {s t : State} (h : step s = .next t) (hr : s.env.resetReq = false) :
    (t.seq = 0x41 ↔ s.acceptsTick = true) ∧ t.seq ≠ 0x01 := by
  obtain ⟨u, hu, rfl⟩ := step_eq_next h
  rw [State.environment_seq, State.acceptsTick_iff]
  rcases act_next_cases hu with ⟨i, hact, hp, hseq⟩ | ⟨hno, hff, -⟩
  · have hne (e : i = .schTick) : s.seq = 0x40 := by rw [hseq hr, e]; rfl
    rw [hp.seq_eq_eval fun e => by rw [hne e]; decide, hact, Action.run.injEq]
    exact ⟨Iff.rfl, hp.seq_ne_reset fun e => by rw [hne e]; decide⟩
  · rw [hff]
    exact ⟨iff_of_false (by decide) fun hc => (hno _).1 hc.1, by decide⟩

/-- No operation raises the reset event (R82). -/
theorem Performs.resetReq_eq_false {s t : State} {i : Instr} (h : Performs s i t) (hr : s.env.resetReq = false) :
    t.env.resetReq = false := by
  cases h
  case reset h =>
    cases h
    rfl
  case encEnd u hu => rcases hu with rfl | ⟨_, rfl⟩ <;> simpa using hr
  all_goals simpa using hr

/-- A step whose turn brings no reset event leaves none pending, nor one in the turns to come. -/
theorem step_noReset {s t : State} {n : Nat} (h : step s = .next t) (hr : s.env.resetReq = false) (hn : s.env.noReset (n + 1)) :
    t.env.resetReq = false ∧ t.env.noReset n := by
  obtain ⟨u, hu, rfl⟩ := step_eq_next h
  have hu' : u.env.resetReq = false ∧ ∀ j, u.env.turnAt j = s.env.turnAt j := by
    rcases act_next_cases hu with ⟨i, -, hp, -⟩ | ⟨-, -, -, henv⟩
    · exact ⟨hp.resetReq_eq_false hr, hp.turnAt⟩
    · rw [henv]
      exact ⟨hr, fun _ => rfl⟩
  refine ⟨?_, fun j hj => ?_⟩
  · rw [State.environment_env, Env.turned_resetReq, hu'.1, hu'.2, hn 0 (Nat.succ_pos n), Bool.or_false]
  · rw [State.environment_env, Env.turnAt_turned, hu'.2]
    exact hn (j + 1) (Nat.succ_lt_succ hj)

/-! ### A run of steps (R154) -/

/-- Of `k` accepted ticks those that have been evaluated: all, or all but the last while its SCH_EVAL is to come. -/
def State.evaluated (s : State) (k : Nat) : Nat := if s.seq = 0x41 then k - 1 else k

/-- `k` ticks were accepted since `ELAPSED` was 0, and no RESET is to come but one before the first of them. -/
structure Counting (k : Nat) (s : State) : Prop where
  interval : s.cfg.interval ≠ 0
  elapsed : s.elapsed.toNat = k
  fresh : s.seq = 0x01 → k = 0
  begun : s.seq = 0x41 → 1 ≤ k
  resetReq : s.env.resetReq = false

section
variable {s t : State} {k n : Nat}

/-- A step counts the tick it accepts. -/
theorem Counting.step (h : Counting k s) (ht : Machine.step s = .next t) (hn : s.env.noReset (n + 1))
    (hlt : k + s.acceptsTick.toNat < 2 ^ 32) : Counting (k + s.acceptsTick.toNat) t := by
  obtain ⟨heval, hreset⟩ := step_seq ht h.resetReq
  have helapsed : t.elapsed.toNat = k + s.acceptsTick.toNat := by
    rw [step_elapsed ht]
    by_cases hr : s.nextAction = .run .reset
    · have hno : s.acceptsTick = false := by
        rw [← Bool.not_eq_true, State.acceptsTick_iff, hr]
        exact fun hc => absurd hc.1 nofun
      rw [if_pos hr, hno, h.fresh ((nextAction_eq_run_iff h.resetReq _).1 hr)]
      rfl
    · rw [if_neg hr]
      by_cases hacc : s.nextAction = .run .schTick ∧ s.env.tickReq ≠ 0
      · rw [State.acceptsTick_iff.2 hacc] at hlt ⊢
        rw [if_pos hacc, BitVec.toNat_add, h.elapsed]
        exact Nat.mod_eq_of_lt hlt
      · rw [if_neg hacc, Bool.eq_false_iff.2 (mt State.acceptsTick_iff.1 hacc), h.elapsed]
        rfl
  exact {
    interval := configurationIsNeverWritten s t ht ▸ h.interval
    elapsed := helapsed
    fresh := fun e => absurd e hreset
    begun := fun e => by
      rw [heval.1 e]
      exact Nat.le_add_left 1 k
    resetReq := (step_noReset ht h.resetReq hn).1 }

/-- The ticks that fire in one step are the multiples of the interval among those it evaluates. -/
theorem Counting.step_fires (h : Counting k s) (ht : Machine.step s = .next t) :
    multiples s.cfg.interval.toNat (s.evaluated k) ++
        (if s.nextAction = .run .schEval ∧ t.sphase = .sent then [k] else []) =
      multiples s.cfg.interval.toNat (t.evaluated (k + s.acceptsTick.toNat)) := by
  have heval := (step_seq ht h.resetReq).1
  have hact := nextAction_eq_run_iff h.resetReq .schEval
  by_cases hs : s.seq = 0x41
  · have hno : s.acceptsTick = false := by
      rw [← Bool.not_eq_true, State.acceptsTick_iff, hact.2 hs]
      exact fun hc => absurd hc.1 nofun
    have ht' : t.seq ≠ 0x41 := by
      rw [Ne, heval, hno]
      decide
    obtain ⟨k, rfl⟩ := Nat.exists_eq_succ_of_ne_zero (Nat.one_le_iff_ne_zero.1 (h.begun hs))
    have hfires := step_schEval_sphase ht (hact.2 hs) h.interval
    rw [h.elapsed] at hfires
    rw [State.evaluated, State.evaluated, if_pos hs, if_neg ht', hno]
    simp [hact.2 hs, hfires, multiples_succ]
  · have hnot : ¬ (s.nextAction = .run .schEval ∧ t.sphase = .sent) := fun hc => hs (hact.1 hc.1)
    rw [if_neg hnot, List.append_nil, State.evaluated, State.evaluated, if_neg hs]
    cases hacc : s.acceptsTick with
    | true => rw [if_pos (heval.2 hacc)]; rfl
    | false => rw [if_neg (by rw [heval, hacc]; decide)]; rfl

theorem accepted_succ (h : Machine.step s = .next t) (n : Nat) : accepted (n + 1) s = s.acceptsTick.toNat + accepted n t := by
  rw [accepted, h]

theorem firings_succ (h : Machine.step s = .next t) (k n : Nat) :
    firings k (n + 1) s =
      (if s.nextAction = .run .schEval ∧ t.sphase = .sent then [k] else []) ++ firings (k + s.acceptsTick.toNat) n t := by
  rw [firings, h]

/-- Over a run the ticks that fire are the multiples of the interval among those evaluated in it. -/
theorem Counting.steps (h : Counting k s) (hn : s.env.noReset n) (hs : steps n s = .next t) (hlt : k + accepted n s < 2 ^ 32) :
    Counting (k + accepted n s) t ∧
      multiples s.cfg.interval.toNat (s.evaluated k) ++ firings k n s =
        multiples s.cfg.interval.toNat (t.evaluated (k + accepted n s)) := by
  induction n generalizing k s with
  | zero =>
    cases hs
    exact ⟨h, List.append_nil _⟩
  | succ n ih =>
    cases hu : Machine.step s with
    | next u =>
      rw [steps_succ hu] at hs
      rw [accepted_succ hu, ← Nat.add_assoc] at hlt ⊢
      have hnext := ih (h.step hu hn (by omega)) (step_noReset hu h.resetReq hn).2 hs hlt
      rw [configurationIsNeverWritten s u hu] at hnext
      rw [firings_succ hu, ← List.append_assoc, h.step_fires hu]
      exact hnext
    | fault r => simp [Machine.steps, hu] at hs
    | refused r => simp [Machine.steps, hu] at hs

end

/-! ### Seconds of `exec` alone -/

/-- One second with a tick outstanding: the tick fires exactly if the interval divides its number. -/
theorem second_eq {s : State} {k : Nat} (hi : s.cfg.interval ≠ 0) (he : s.elapsed.toNat = k) (hk : k + 1 < 2 ^ 32)
    (hn : s.env.tickReq ≠ 0) :
    ∃ t, second s = some (decide ((k + 1) % s.cfg.interval.toNat = 0), t) ∧ t.cfg = s.cfg ∧ t.elapsed.toNat = k + 1 ∧
      t.env.tickReq = s.env.tickReq - 1 := by
  have hnext : s.ticked.elapsed.toNat = k + 1 := by
    rw [State.ticked, BitVec.toNat_add, he]
    exact Nat.mod_eq_of_lt hk
  have hi' : s.ticked.cfg.interval ≠ 0 := hi
  rw [second, exec_schTick_of_pos hn]
  dsimp only
  by_cases hdvd : (k + 1) % s.cfg.interval.toNat = 0
  · rw [exec_schEval_of_dvd hi' (hnext ▸ hdvd), decide_eq_true hdvd]
    exact ⟨_, rfl, rfl, hnext, rfl⟩
  · rw [exec_schEval_of_not_dvd hi' (hnext ▸ hdvd), decide_eq_false hdvd]
    exact ⟨_, rfl, rfl, hnext, rfl⟩

/-- The seconds that fire are those whose number the interval divides. -/
theorem seconds_eq {n k : Nat} {s : State} (hi : s.cfg.interval ≠ 0) (he : s.elapsed.toNat = k) (hk : k + n < 2 ^ 32)
    (hn : n ≤ s.env.tickReq) :
    seconds n s = some ((List.range n).map fun j => decide ((k + j + 1) % s.cfg.interval.toNat = 0)) := by
  induction n generalizing s k with
  | zero => rfl
  | succ n ih =>
    obtain ⟨t, ht, hcfg, hek, htick⟩ := second_eq hi he (by omega) (by omega)
    have hrest := ih (hcfg ▸ hi) hek (by omega) (by omega)
    rw [seconds, ht]
    dsimp only
    rw [hrest, hcfg, List.range_succ_eq_map]
    simp [Function.comp_def, Nat.add_assoc, Nat.add_comm, Nat.add_left_comm]

/-- Settles O43: what a step does (`step_elapsed`, `step_schEval_sphase`), a run by induction over its steps (`Counting.steps`), and the
seconds of `exec` alone (`seconds_eq`). -/
theorem firingsAreTheMultiples : Obligations.FiringsAreTheMultiples := by
  refine ⟨fun s t h => ⟨step_elapsed h, fun hact hi => step_schEval_sphase h hact hi⟩, ?run, ?seconds⟩
  case run =>
    intro s t n hi he hseq hr hn hs hlt
    have hstart : Counting 0 s := ⟨hi, by rw [he]; rfl, fun _ => rfl, fun e => absurd e hseq, hr⟩
    have hzero : s.evaluated 0 = 0 := if_neg hseq
    obtain ⟨hend, hfire⟩ := hstart.steps hn hs (by rwa [Nat.zero_add])
    rw [Nat.zero_add] at hend hfire
    rw [hzero] at hfire
    refine ⟨hend.elapsed, ?_⟩
    rintro T rfl
    exact ⟨hfire, (congrArg List.length hfire).trans (multiples_length _ _)⟩
  case seconds =>
    intro s n hi he hn htick
    refine ⟨_, seconds_eq (k := 0) hi (by rw [he]; rfl) (by omega) htick, by simp only [Nat.zero_add], ?_⟩
    rw [List.count, List.countP_map, ← countP_multiples]
    simp [Function.comp_def]

end Sys2Proof.Machine
end

section
/-! SUPPORT. The proof about a whole transmission (spec/30_encoding.md R79, R80; spec/44_scheduler.md R158): the operations performed from a
firing are the listing TRANSMIT. -/

namespace Sys2Proof.Machine

/-! ### Performing a listing -/

/-- A run that performs the operations of a list, one in each step. -/
def State.runs (s : State) (is : List Instr) (t : State) : Prop := steps is.length s = .next t ∧ performed is.length s = is

theorem performed_add {m : Nat} {s t : State} (h : steps m s = .next t) (n : Nat) :
    performed (m + n) s = performed m s ++ performed n t := by
  induction m generalizing s with
  | zero =>
    cases h
    rw [Nat.zero_add]
    rfl
  | succ m ih =>
    cases hs : step s with
    | next u =>
      rw [steps_succ hs] at h
      rw [Nat.add_right_comm]
      cases hact : s.nextAction <;> simp only [performed, hact, hs, ih h, List.cons_append]
    | fault r => simp [steps, hs] at h
    | refused r => simp [steps, hs] at h

theorem State.runs_nil (s : State) : s.runs [] s := ⟨rfl, rfl⟩

theorem State.runs.append {s t u : State} {is js : List Instr} (h : s.runs is t) (h' : t.runs js u) : s.runs (is ++ js) u := by
  rw [State.runs, List.length_append]
  exact ⟨(steps_add h.1 _).trans h'.1, (performed_add h.1 _).trans (congrArg₂ _ h.2 h'.2)⟩

/-- One step that performs an operation. -/
theorem State.runs_singleton {s t : State} {i : Instr} (hact : s.nextAction = .run i) (h : step s = .next t) : s.runs [i] t := by
  refine ⟨by rw [List.length_singleton, steps_succ h, steps], ?_⟩
  rw [List.length_singleton, performed, hact, h]
  rfl

/-- RESET and SCH_EVAL, the only operations that write the snapshot (R83, R150). -/
theorem Performs.snapRd {s t : State} {i : Instr} (h : Performs s i t) (hi : i ∉ [Instr.reset, .schEval]) : t.snapRd = s.snapRd := by
  cases h
  case reset | fire => simp at hi
  case encEnd u hu => rcases hu with rfl | ⟨_, rfl⟩ <;> simp
  all_goals simp

/-- In a transmission that began in `s₀`: operation `i` is next, under the same profile and snapshot, and no reset event is pending or
comes in `n` turns. -/
structure InTransmit (s₀ : State) (i : Instr) (n : Nat) (s : State) : Prop where
  cfg : s.cfg = s₀.cfg
  snapRd : s.snapRd = s₀.snapRd
  seq : s.seq = encode i
  resetReq : s.env.resetReq = false
  noReset : s.env.noReset n

section
variable {s₀ s u : State} {i j : Instr} {n : Nat}

/-- One step of a transmission: the operation is performed, and the next one is the one whose code it leaves. -/
theorem InTransmit.step (h : InTransmit s₀ i (n + 1) s) (hi : i ∉ [Instr.reset, .schEval]) (hu : exec i s = .next u)
    (hseq : u.seq = encode j) : ∃ t, s.runs [i] t ∧ InTransmit s₀ j n t ∧ t.bitix = u.bitix := by
  have hact : s.nextAction = .run i := (nextAction_eq_run_iff h.resetReq i).2 h.seq
  have ht : Machine.step s = .next (u.environment (Action.run i).takesTime) := by
    rw [step_run hact, hu]
    rfl
  have hp := performs_of_exec i hu
  obtain ⟨hr, hn⟩ := step_noReset ht h.resetReq h.noReset
  exact ⟨_, State.runs_singleton hact ht, ⟨hp.cfg.trans h.cfg, (hp.snapRd hi).trans h.snapRd, hseq, hr, hn⟩, rfl⟩

theorem frameStored.seq {s t : State} {c : Byte} {addrs : List Nat} (h : frameStored s t c addrs) : t.seq = c :=
  (congrArg State.seq h.1 :)

/-- One step of a transmission that stores to the frame. -/
theorem InTransmit.step_store {addrs : List Nat} (h : InTransmit s₀ i (n + 1) s) (hi : i ∉ [Instr.reset, .schEval])
    (hu : exec i s = .next u) (hframe : frameStored s u (encode j) addrs) : ∃ t, s.runs [i] t ∧ InTransmit s₀ j n t := by
  obtain ⟨t, ht, hnext, -⟩ := h.step hi hu hframe.seq
  exact ⟨t, ht, hnext⟩

/-! ### BUILD and CHECKSUM (R79) -/

theorem InTransmit.sens (h : InTransmit s₀ (Instr.sensOf s₀.cfg.kind) (n + 1) s) (hv : validProfile s₀.cfg = true)
    (hfit : readingFits s₀.cfg.kind s₀.cfg.enc s₀.snapRd = true) :
    ∃ t, s.runs [Instr.sensOf s₀.cfg.kind] t ∧ InTransmit s₀ .ckSum n t := by
  rw [← h.cfg] at hv
  rw [← h.cfg, ← h.snapRd] at hfit
  obtain ⟨u, hu, hframe, -⟩ := exec_sensOf_of_fits hv hfit
  rw [h.cfg] at hu
  exact h.step_store (by cases s₀.cfg.kind <;> decide) hu hframe

theorem InTransmit.build (h : InTransmit s₀ .fbClear (n + 5) s) (hv : validProfile s₀.cfg = true)
    (hfit : readingFits s₀.cfg.kind s₀.cfg.enc s₀.snapRd = true) :
    ∃ t, s.runs (buildOps s₀.cfg.kind) t ∧ InTransmit s₀ .ckSum n t := by
  obtain ⟨-, -, hl⟩ := sensor_bounds_of_valid hv
  obtain ⟨u₁, hu₁, hf₁, -⟩ := exec_fbClear s
  obtain ⟨s₁, h₁, hn₁⟩ := h.step_store (j := .fbHdr) (by decide) hu₁ hf₁
  obtain ⟨u₂, hu₂, hf₂, -⟩ := exec_fbHdr (s := s₁) (by rw [hn₁.cfg]; omega)
  obtain ⟨s₂, h₂, hn₂⟩ := hn₁.step_store (j := .fbId) (by decide) hu₂ hf₂
  obtain ⟨u₃, hu₃, hf₃, -⟩ := exec_fbId (s := s₂) (by rw [hn₂.cfg]; omega)
  obtain ⟨s₃, h₃, hn₃⟩ := hn₂.step_store (j := .fbRoll) (by decide) hu₃ hf₃
  obtain ⟨u₄, hu₄, hf₄, -⟩ := exec_fbRoll (s := s₃) (by rw [hn₃.cfg]; omega)
  obtain ⟨s₄, h₄, hn₄⟩ := hn₃.step_store (by decide) hu₄ hf₄
  rw [hn₃.cfg] at hn₄
  obtain ⟨t, h₅, hn₅⟩ := hn₄.sens hv hfit
  exact ⟨t, h₁.append (h₂.append (h₃.append (h₄.append h₅))), hn₅⟩

theorem InTransmit.checksum (h : InTransmit s₀ .ckSum (n + 3) s) (hv : validProfile s₀.cfg = true) :
    ∃ t, s.runs checksumOps t ∧ InTransmit s₀ .encStart n t := by
  obtain ⟨-, hk, hl⟩ := sensor_bounds_of_valid hv
  obtain ⟨s₁, h₁, hn₁, -⟩ := h.step (j := .ckCrc) (by decide) (exec_ckSum (by rw [h.cfg]; omega) (by rw [h.cfg]; omega)) rfl
  obtain ⟨s₂, h₂, hn₂, -⟩ := hn₁.step (j := .ckStore) (by decide) (exec_ckCrc (by rw [hn₁.cfg]; omega)) rfl
  obtain ⟨u₃, hu₃, hf₃, -⟩ := exec_ckStore (s := s₂) (by rw [hn₂.cfg]; omega)
  obtain ⟨t, h₃, hn₃⟩ := hn₂.step_store (j := .encStart) (by decide) hu₃ hf₃
  exact ⟨t, h₁.append (h₂.append h₃), hn₃⟩

/-! ### ENCODE (R79) -/

/-- The operation that is next with `m` bits left to send. -/
def bitOp (m : Nat) : Instr := if m = 0 then .encEnd else .encFirst

/-- The two operations of a bit, whatever the deadline and the delays. -/
theorem InTransmit.bit {m : Nat} (h : InTransmit s₀ (bitOp (m + 1)) (n + 2) s) (hm : s.bitix.toNat + (m + 1) = 8 * s₀.cfg.l.toNat) :
    ∃ t, s.runs [.encFirst, .encSecond] t ∧ InTransmit s₀ (bitOp m) n t ∧ t.bitix.toNat + m = 8 * s₀.cfg.l.toNat := by
  have hcursor : s.bitix.toNat < 8 * s.cfg.l.toNat := by
    rw [h.cfg]
    omega
  have hnext := fit_of_lt (cursor_add_one_lt hcursor)
  obtain ⟨s₁, h₁, hn₁, hb₁⟩ := InTransmit.step (j := .encSecond) h (by simp [bitOp]) (exec_encFirst hcursor) rfl
  rw [show s.firstPhase.bitix = s.bitix from rfl] at hb₁
  have hseq : s₁.secondPhase.seq = encode (bitOp m) := by
    rw [State.secondPhase, hb₁, hnext, hn₁.cfg, bitOp]
    by_cases h0 : m = 0
    · rw [if_pos h0, if_pos (by omega)]
      rfl
    · rw [if_neg h0, if_neg (by omega)]
      rfl
  obtain ⟨t, h₂, hn₂, hb₂⟩ := hn₁.step (by decide) (exec_encSecond s₁) hseq
  refine ⟨t, h₁.append h₂, hn₂, ?_⟩
  rw [hb₂, State.secondPhase, hb₁, hnext]
  omega

theorem InTransmit.bits {m : Nat} (h : InTransmit s₀ (bitOp m) (n + 2 * m) s) (hm : s.bitix.toNat + m = 8 * s₀.cfg.l.toNat) :
    ∃ t, s.runs (List.replicate m [Instr.encFirst, .encSecond]).flatten t ∧ InTransmit s₀ .encEnd n t := by
  induction m generalizing s with
  | zero => exact ⟨s, s.runs_nil, h⟩
  | succ m ih =>
    obtain ⟨u, hu, hnu, hbu⟩ := h.bit hm
    obtain ⟨t, ht, hnt⟩ := ih hnu hbu
    exact ⟨t, hu.append ht, hnt⟩

/-- The operation after ENC_END under a profile (R143). -/
def afterEncEnd (p : Profile) : Instr := if p.logPresent then .dbgLog else .schDone

theorem InTransmit.encodeFrame (h : InTransmit s₀ .encStart (n + (2 + 16 * s₀.cfg.l.toNat)) s) (hv : validProfile s₀.cfg = true) :
    ∃ t, s.runs (encodeOps s₀.cfg.l.toNat) t ∧ InTransmit s₀ (afterEncEnd s₀.cfg) n t := by
  obtain ⟨-, -, hl⟩ := sensor_bounds_of_valid hv
  have hcount : n + (2 + 16 * s₀.cfg.l.toNat) = n + 1 + 2 * (8 * s₀.cfg.l.toNat) + 1 := by omega
  rw [hcount] at h
  have hfirst : s.encStarted.seq = encode (bitOp (8 * s₀.cfg.l.toNat)) := by
    rw [bitOp, if_neg (by omega)]
    rfl
  obtain ⟨s₁, h₁, hn₁, hb₁⟩ := h.step (by decide) (exec_encStart s) hfirst
  have hcursor : s₁.bitix.toNat + 8 * s₀.cfg.l.toNat = 8 * s₀.cfg.l.toNat := by
    rw [hb₁]
    exact Nat.zero_add _
  obtain ⟨s₂, h₂, hn₂⟩ := hn₁.bits hcursor
  have hend : s₂.encEnded.seq = encode (afterEncEnd s₀.cfg) := by
    rw [State.encEnded, State.goto_seq, hn₂.cfg, afterEncEnd]
    split <;> rfl
  obtain ⟨t, h₃, hn₃, -⟩ := hn₂.step (by decide) (exec_encEnd s₂) hend
  exact ⟨t, (h₁.append h₂).append h₃, hn₃⟩

/-! ### TRANSMIT (R79) -/

/-- The debug record, if there is a sink, and the end of the transmission. -/
theorem InTransmit.finish (h : InTransmit s₀ (afterEncEnd s₀.cfg) ((if s₀.cfg.logPresent then 1 else 0) + 1) s) :
    ∃ t, s.runs ((if s₀.cfg.logPresent then [.dbgLog] else []) ++ [.schDone]) t := by
  have hdone {s : State} (h : InTransmit s₀ .schDone 1 s) : ∃ t, s.runs [.schDone] t := by
    obtain ⟨t, ht, -⟩ := h.step (j := .schTick) (by decide) (schDoneEffect s) rfl
    exact ⟨t, ht⟩
  rw [afterEncEnd] at h
  cases hlog : s₀.cfg.logPresent with
  | false =>
    simp only [hlog] at h
    exact hdone h
  | true =>
    simp only [hlog] at h
    obtain ⟨u, hu, hnu, -⟩ := h.step (j := .schDone) (by decide) (exec_dbgLog s) rfl
    obtain ⟨t, ht⟩ := hdone hnu
    exact ⟨t, hu.append ht⟩

end

/-- Settles O56: the parts of the listing are performed one after the other. -/
theorem transmissionIsTheListing : Obligations.TransmissionIsTheListing := by
  intro s hseq hv hfit hr hn
  have hcount : (transmitOps s.cfg).length =
      (if s.cfg.logPresent then 1 else 0) + 1 + (2 + 16 * s.cfg.l.toNat) + 3 + 5 := by
    rw [transmitOps_length]
    omega
  obtain ⟨s₁, h₁, hn₁⟩ := InTransmit.build (s₀ := s) ⟨rfl, rfl, hseq, hr, hcount ▸ hn⟩ hv hfit
  obtain ⟨s₂, h₂, hn₂⟩ := hn₁.checksum hv
  obtain ⟨s₃, h₃, hn₃⟩ := hn₂.encodeFrame hv
  obtain ⟨t, h₄⟩ := hn₃.finish
  have hall := ((h₁.append h₂).append h₃).append h₄
  rw [← List.append_assoc] at hall
  exact hall.2

end Sys2Proof.Machine
end
